-- ==== Sys2Proof/Word.lean ====
section
/-! DEFINITION. The bit-vector types of the spec's values: every value is an unsigned integer of a stated width
(00_scope.md R10, R11). -/

namespace Sys2Proof

/-- One byte of memory (20_memory.md R40). -/
abbrev Byte := BitVec 8

/-- The 64-bit word: packed data, and an address (00_scope.md R6 `WORD_BITS`, R7 `ADDR_W`). -/
abbrev Word := BitVec 64

/-- A 32-bit command field: `N`, `STRIDE`, `OFFSET` (00_scope.md R7). -/
abbrev Half := BitVec 32

/-- A packed ADC sample (00_scope.md R6 `ADC_BITS`). -/
abbrev Adc := BitVec 12

/-- An output sample (00_scope.md R6 `OUT_BITS`, 30_encoding.md R79). -/
abbrev Sample := BitVec 16

/-- A command as one 256-bit number `D` (30_encoding.md R82, R83). -/
abbrev Command := BitVec 256

end Sys2Proof
end

