-- ==== Sys2Proof/Config.lean ====
section
/-! DEFINITION. The constants the spec fixes (00_scope.md R6, R7; its own decisions among them, log 14) and the values it leaves open, which are constants
without a body: every proof holds for all values of them. -/

namespace Sys2Proof.Config

/-- Channels per WIB frame (R6 `NCHAN`). -/
@[simp] def nchan : Nat := 128
/-- ADCs per cold-data link (R6 `CH_PER_LINK`). -/
@[simp] def chPerLink : Nat := 64
/-- Bytes per WIB frame (R6 `FRAME_BYTES`). -/
@[simp] def frameBytes : Nat := 240
/-- Packed ADC words per link (R6 `LINK_ADC_WORDS`). -/
@[simp] def linkAdcWords : Nat := 12
/-- Frame word index of link A's first ADC word (R6 `ADC_WORD_A`). -/
@[simp] def adcWordA : Nat := 4
/-- Frame word index of link B's first ADC word (R6 `ADC_WORD_B`). -/
@[simp] def adcWordB : Nat := 18
/-- Channels of one group (R6 `GROUP_CH`). -/
@[simp] def groupCh : Nat := 16
/-- Words of one packed group (R6 `GROUP_WORDS`). -/
@[simp] def groupWords : Nat := 3
/-- Groups per frame (R6 `NGROUP`). -/
@[simp] def ngroup : Nat := 8
/-- `N` must be a multiple of this (R6 `TICK_QUANTUM`). -/
@[simp] def tickQuantum : Nat := 8
/-- Bytes of a row pointer (R7 `PTR_BYTES`). -/
@[simp] def ptrBytes : Nat := 8
/-- One past the last address: `2^ADDR_W` (R7). -/
@[simp] def addrSpace : Nat := 2 ^ 64

/-- The platform parameter `HAS_SIMD256`, open (R7, 10_state.md R24). DESIGN CHOICE of its form: a constant without
a body, log 9; safe, since a proof holds for both values. -/
opaque hasSimd256 : Bool

/-- The platform parameter `CMD_PORT`, open (R7, 20_memory.md R63); no rule of the spec uses it. DESIGN CHOICE log 13;
safe, nothing reads it. -/
opaque cmdPort : Word

/-- The platform parameter `CSR_BASE`, open (R7, 20_memory.md R63); no rule of the spec uses it. DESIGN CHOICE log 13;
safe, nothing reads it. -/
opaque csrBase : Word

/-- Free value (70_reset_and_hazards.md R193): did the command that reset number `draw` cut short write its byte at
`address`? "Old or new, byte by byte without further constraint". DESIGN CHOICE of its form, log 10; safe. -/
opaque cutWritten : (draw address : Nat) → Bool

end Sys2Proof.Config
end

