-- ==== Sys2Proof/Syntax.lean ====
section
/-! DEFINITION. The commands of the block as syntax: one constructor per row of spec/opcode_table.json
(30_encoding.md R84, R85). Fields that must be 0 are not operands, so they are not arguments. -/

namespace Sys2Proof

/-- A command with its operands (30_encoding.md R85, column "fields used"). -/
inductive Instr where
  /-- `EXP16`: expand 16 ADCs from 3 words (40_expand.md R104). -/
  | exp16 (src dst : Word)
  /-- `EXP64`: expand the 64 ADCs of 12 words (40_expand.md R106). -/
  | exp64 (src dst : Word)
  /-- `EXP128`: expand the 128 ADCs of one frame (40_expand.md R108). -/
  | exp128 (src dst : Word)
  /-- `TR16X8`: transpose one group over 8 frames (41_transpose_kernels.md R122). -/
  | tr16x8 (grp : BitVec 8) (src dst : Word) (stride : Half)
  /-- `TR16X16`: transpose one group over 16 frames (41_transpose_kernels.md R123). -/
  | tr16x16 (grp : BitVec 8) (src dst : Word) (stride : Half)
  /-- `TR16X32`: transpose one group over 32 frames (41_transpose_kernels.md R124). -/
  | tr16x32 (grp : BitVec 8) (src dst : Word) (stride : Half)
  /-- `TRN.F`: transpose 128 channels by N frames, flat output (42_transpose_full.md R141). -/
  | trnF (n : Half) (src dst : Word) (stride : Half)
  /-- `TRN.P`: transpose 128 channels by N frames, row-pointer output (42_transpose_full.md R143). -/
  | trnP (n : Half) (src dst : Word) (offset : Half)
deriving DecidableEq, Repr

/-- The eight defined values of `OP` by name (30_encoding.md R85). -/
inductive Opcode where
  | exp16 | exp64 | exp128 | tr16x8 | tr16x16 | tr16x32 | trnF | trnP
deriving DecidableEq, Repr

/-- The names of the operands a command may take (30_encoding.md R84, R89). -/
inductive OperandName where
  | grp | n | src | dst | stride | offset
deriving DecidableEq, Repr

/-- One line of an assembly program after it is cut into words (30_encoding.md R89): a mnemonic and `name=value` pairs. -/
structure AsmLine where
  mnemonic : Opcode
  operands : List (OperandName × Nat)
deriving DecidableEq, Repr

end Sys2Proof
end

