-- ==== Sys2Proof/WellFormed.lean ====
section
/-! DEFINITION. Well-formed commands: those an encoding exists for (30_encoding.md R87). The widths of the operands are
in their types; the one further check is the range of `GRP`. -/

namespace Sys2Proof

/-- `GRP` is a channel group 0 to 7 (30_encoding.md R84, R87). -/
def groupInRange (grp : BitVec 8) : Bool := decide (grp.toNat < Config.ngroup)

/-- The command has an encoding: a kernel's `GRP` is at most 7 (30_encoding.md R87). -/
def Instr.wellFormed : Instr → Bool
  | .exp16 _ _ => true
  | .exp64 _ _ => true
  | .exp128 _ _ => true
  | .tr16x8 grp _ _ _ => groupInRange grp
  | .tr16x16 grp _ _ _ => groupInRange grp
  | .tr16x32 grp _ _ _ => groupInRange grp
  | .trnF _ _ _ _ => true
  | .trnP _ _ _ _ => true

end Sys2Proof
end

