-- ==== Sys2Proof/Decode.lean ====
section
/-! DEFINITION. The `DESC` format: fields, decoder, encoder, the opcode table's rows and the assembler
(30_encoding.md Part B and Part C, opcode_table.json). -/

namespace Sys2Proof

/-! ### Fields (30_encoding.md R84) -/

/-- `OP`, bits 7:0 of `D`. -/
def Desc.op (d : Command) : BitVec 8 := d.extractLsb' 0 8
/-- `GRP`, bits 15:8. -/
def Desc.grp (d : Command) : BitVec 8 := d.extractLsb' 8 8
/-- `RSV`, bits 31:16. -/
def Desc.rsv (d : Command) : BitVec 16 := d.extractLsb' 16 16
/-- `N`, bits 63:32. -/
def Desc.n (d : Command) : Half := d.extractLsb' 32 32
/-- `SRC`, bits 127:64. -/
def Desc.src (d : Command) : Word := d.extractLsb' 64 64
/-- `DST`, bits 191:128. -/
def Desc.dst (d : Command) : Word := d.extractLsb' 128 64
/-- `STRIDE`, bits 223:192. -/
def Desc.stride (d : Command) : Half := d.extractLsb' 192 32
/-- `OFFSET`, bits 255:224. -/
def Desc.offset (d : Command) : Half := d.extractLsb' 224 32

/-- The command whose four words in port order are `w0` to `w3`: `W0 + W1·2^64 + W2·2^128 + W3·2^192`
(30_encoding.md R83). -/
def Command.ofWords (w0 w1 w2 w3 : Word) : Command :=
  w0.setWidth 256 ||| (w1.setWidth 256 <<< 64) ||| (w2.setWidth 256 <<< 128) ||| (w3.setWidth 256 <<< 192)

/-- The four words of a command in port order (30_encoding.md R83). -/
def Command.words (d : Command) : List Word :=
  [d.extractLsb' 0 64, d.extractLsb' 64 64, d.extractLsb' 128 64, d.extractLsb' 192 64]

/-- The number whose little-endian bytes are `bs` (20_memory.md R41). -/
def littleEndian : List Byte → Nat
  | [] => 0
  | b :: bs => b.toNat + 256 * littleEndian bs

/-- The command that 32 bytes in port order stand for (30_encoding.md R83). -/
def Command.ofBytes (bs : List Byte) : Command := BitVec.ofNat 256 (littleEndian bs)

/-- The 32 bytes of a command in port order (30_encoding.md R83). -/
def Command.bytes (d : Command) : List Byte :=
  (List.range 32).map fun k => d.extractLsb' (8 * k) 8

/-! ### Decoder (30_encoding.md R85, R87, R88) -/

/-- Why a pattern is illegal (30_encoding.md R87). All of them complete with the one code `IllegalCommand`, so the
reason is not visible to the host (log 15). -/
inductive Illegal where
  /-- `OP` is none of the eight values. -/
  | reservedOpcode (op : BitVec 8)
  /-- `RSV` is not 0. -/
  | reservedField
  /-- A field that must be 0 for this opcode is not 0. -/
  | mustBeZero
  /-- A kernel's `GRP` is above 7. -/
  | groupRange
  /-- Not 32 bytes: no such command exists (R82). -/
  | wrongLength
deriving DecidableEq, Repr

/-- The value of `OP` for a mnemonic (30_encoding.md R85). -/
def Opcode.bits : Opcode → BitVec 8
  | .exp16 => 0x10#8
  | .exp64 => 0x11#8
  | .exp128 => 0x12#8
  | .tr16x8 => 0x20#8
  | .tr16x16 => 0x21#8
  | .tr16x32 => 0x22#8
  | .trnF => 0x30#8
  | .trnP => 0x31#8

/-- The mnemonic that a value of `OP` names, none where it is reserved (30_encoding.md R85). -/
def Opcode.ofBits? (b : BitVec 8) : Option Opcode :=
  if b = 0x10#8 then some .exp16
  else if b = 0x11#8 then some .exp64
  else if b = 0x12#8 then some .exp128
  else if b = 0x20#8 then some .tr16x8
  else if b = 0x21#8 then some .tr16x16
  else if b = 0x22#8 then some .tr16x32
  else if b = 0x30#8 then some .trnF
  else if b = 0x31#8 then some .trnP
  else none

/-- The must-be-zero fields of `EXP16`, `EXP64`, `EXP128` beside `RSV` are 0 (R85). -/
def Desc.expandZeros (d : Command) : Bool :=
  Desc.grp d == 0 && Desc.n d == 0 && Desc.stride d == 0 && Desc.offset d == 0

/-- The must-be-zero fields of the kernels beside `RSV` are 0 (R85). -/
def Desc.kernelZeros (d : Command) : Bool := Desc.n d == 0 && Desc.offset d == 0

/-- An expansion, if its must-be-zero fields are 0. -/
def decodeExpand (d : Command) (mk : Word → Word → Instr) : Except Illegal Instr :=
  if Desc.expandZeros d then .ok (mk (Desc.src d) (Desc.dst d)) else .error .mustBeZero

/-- A kernel, if its must-be-zero fields are 0 and its `GRP` is in range. -/
def decodeKernel (d : Command) (mk : BitVec 8 → Word → Word → Half → Instr) : Except Illegal Instr :=
  if Desc.kernelZeros d then
    if groupInRange (Desc.grp d) then .ok (mk (Desc.grp d) (Desc.src d) (Desc.dst d) (Desc.stride d))
    else .error .groupRange
  else .error .mustBeZero

/-- Decoding is total on all 256-bit patterns: an operation with its operands, or the reason the pattern is illegal
(30_encoding.md R87, R88). -/
def decode (d : Command) : Except Illegal Instr :=
  match Opcode.ofBits? (Desc.op d) with
  | none => .error (.reservedOpcode (Desc.op d))
  | some o =>
    if Desc.rsv d ≠ 0 then .error .reservedField
    else
      match o with
      | .exp16 => decodeExpand d .exp16
      | .exp64 => decodeExpand d .exp64
      | .exp128 => decodeExpand d .exp128
      | .tr16x8 => decodeKernel d .tr16x8
      | .tr16x16 => decodeKernel d .tr16x16
      | .tr16x32 => decodeKernel d .tr16x32
      | .trnF =>
        if Desc.grp d == 0 && Desc.offset d == 0 then
          .ok (.trnF (Desc.n d) (Desc.src d) (Desc.dst d) (Desc.stride d))
        else .error .mustBeZero
      | .trnP =>
        if Desc.grp d == 0 && Desc.stride d == 0 then
          .ok (.trnP (Desc.n d) (Desc.src d) (Desc.dst d) (Desc.offset d))
        else .error .mustBeZero

/-- The decoder on bytes in port order: exactly 32 of them are a command (30_encoding.md R82, R83). -/
def decodeBytes (bs : List Byte) : Except Illegal Instr :=
  if bs.length = 32 then decode (Command.ofBytes bs) else .error .wrongLength

/-- What the decoder reads from an instruction whose `nbits` bits are `w`, the bits above them 0, laid out as the
32 bytes the port receives. -/
def decodeTableWord (nbits w : Nat) : Option Instr :=
  match decodeBytes ((List.range 32).map fun k => BitVec.ofNat 8 ((w % 2 ^ nbits) >>> (8 * k))) with
  | .ok i => some i
  | .error _ => none

/-! ### Encoder -/

/-- The `DESC` word of eight field values (30_encoding.md R83, R84). -/
def Desc.pack (op grp : BitVec 8) (rsv : BitVec 16) (n : Half) (src dst : Word) (stride offset : Half) : Command :=
  Command.ofWords
    (op.setWidth 64 ||| (grp.setWidth 64 <<< 8) ||| (rsv.setWidth 64 <<< 16) ||| (n.setWidth 64 <<< 32))
    src dst
    (stride.setWidth 64 ||| (offset.setWidth 64 <<< 32))

/-- The opcode of a command (30_encoding.md R85). -/
def Instr.opcode : Instr → Opcode
  | .exp16 _ _ => .exp16
  | .exp64 _ _ => .exp64
  | .exp128 _ _ => .exp128
  | .tr16x8 _ _ _ _ => .tr16x8
  | .tr16x16 _ _ _ _ => .tr16x16
  | .tr16x32 _ _ _ _ => .tr16x32
  | .trnF _ _ _ _ => .trnF
  | .trnP _ _ _ _ => .trnP

/-- The 256 bits of a command, its unused fields 0 (30_encoding.md R84, R85). -/
def encode (i : Instr) : Command :=
  match i with
  | .exp16 src dst => Desc.pack i.opcode.bits 0 0 0 src dst 0 0
  | .exp64 src dst => Desc.pack i.opcode.bits 0 0 0 src dst 0 0
  | .exp128 src dst => Desc.pack i.opcode.bits 0 0 0 src dst 0 0
  | .tr16x8 grp src dst stride => Desc.pack i.opcode.bits grp 0 0 src dst stride 0
  | .tr16x16 grp src dst stride => Desc.pack i.opcode.bits grp 0 0 src dst stride 0
  | .tr16x32 grp src dst stride => Desc.pack i.opcode.bits grp 0 0 src dst stride 0
  | .trnF n src dst stride => Desc.pack i.opcode.bits 0 0 n src dst stride 0
  | .trnP n src dst offset => Desc.pack i.opcode.bits 0 0 n src dst 0 offset

/-- The four words of an encoded command, in port order (30_encoding.md R83). -/
def encodeWords (i : Instr) : List Word := Command.words (encode i)

/-! ### The opcode table (opcode_table.json, 30_encoding.md R88) -/

/-- A row of the table: a command matches when `(D and mask) = pattern`. -/
structure OpcodeRow where
  opcode : Opcode
  mask : Command
  pattern : Command
deriving DecidableEq, Repr

/-- The row's words are `D`'s (30_encoding.md R88). -/
def OpcodeRow.matches (r : OpcodeRow) (d : Command) : Bool := d &&& r.mask == r.pattern

/-- The eight rows of opcode_table.json, their numbers as printed there. -/
def opcodeTable : List OpcodeRow := [
  ⟨.exp16, 0xFFFFFFFFFFFFFFFF00000000000000000000000000000000FFFFFFFFFFFFFFFF#256, 0x10#256⟩,
  ⟨.exp64, 0xFFFFFFFFFFFFFFFF00000000000000000000000000000000FFFFFFFFFFFFFFFF#256, 0x11#256⟩,
  ⟨.exp128, 0xFFFFFFFFFFFFFFFF00000000000000000000000000000000FFFFFFFFFFFFFFFF#256, 0x12#256⟩,
  ⟨.tr16x8, 0xFFFFFFFF0000000000000000000000000000000000000000FFFFFFFFFFFFF8FF#256, 0x20#256⟩,
  ⟨.tr16x16, 0xFFFFFFFF0000000000000000000000000000000000000000FFFFFFFFFFFFF8FF#256, 0x21#256⟩,
  ⟨.tr16x32, 0xFFFFFFFF0000000000000000000000000000000000000000FFFFFFFFFFFFF8FF#256, 0x22#256⟩,
  ⟨.trnF, 0xFFFFFFFF000000000000000000000000000000000000000000000000FFFFFFFF#256, 0x30#256⟩,
  ⟨.trnP, 0x00000000FFFFFFFF0000000000000000000000000000000000000000FFFFFFFF#256, 0x31#256⟩]

/-! ### Assembler (30_encoding.md R89) -/

/-- The operands a mnemonic takes (30_encoding.md R85, R89). -/
def Opcode.operands : Opcode → List OperandName
  | .exp16 => [.src, .dst]
  | .exp64 => [.src, .dst]
  | .exp128 => [.src, .dst]
  | .tr16x8 => [.grp, .src, .dst, .stride]
  | .tr16x16 => [.grp, .src, .dst, .stride]
  | .tr16x32 => [.grp, .src, .dst, .stride]
  | .trnF => [.n, .src, .dst, .stride]
  | .trnP => [.n, .src, .dst, .offset]

/-- The width of the field an operand is written to (30_encoding.md R84). -/
def OperandName.width : OperandName → Nat
  | .grp => 8
  | .n => 32
  | .src => 64
  | .dst => 64
  | .stride => 32
  | .offset => 32

/-- Why a line is not assembled. Only the first is the spec's words (R89); the other two are log 16. -/
inductive AsmError where
  /-- The mnemonic does not take this operand (R89). -/
  | operandNotTaken
  /-- An operand is written twice (DESIGN CHOICE, log 16). -/
  | writtenTwice
  /-- The value does not fit its field (DESIGN CHOICE, log 16). -/
  | tooWide
deriving DecidableEq, Repr

/-- The value written for an operand; "an operand that is not written is 0" (R89). -/
def AsmLine.value (l : AsmLine) (o : OperandName) : Nat := ((l.operands.find? (·.1 == o)).map (·.2)).getD 0

/-- No operand is written twice. -/
def AsmLine.once (l : AsmLine) : Bool :=
  [OperandName.grp, .n, .src, .dst, .stride, .offset].all fun o => (l.operands.filter (·.1 == o)).length ≤ 1

/-- The command a line stands for (30_encoding.md R89). -/
def assemble (l : AsmLine) : Except AsmError Command :=
  if l.operands.all (fun p => l.mnemonic.operands.contains p.1) then
    if l.once then
      if l.operands.all (fun p => p.2 < 2 ^ p.1.width) then
        .ok (Desc.pack l.mnemonic.bits (BitVec.ofNat 8 (l.value .grp)) 0 (BitVec.ofNat 32 (l.value .n))
          (BitVec.ofNat 64 (l.value .src)) (BitVec.ofNat 64 (l.value .dst))
          (BitVec.ofNat 32 (l.value .stride)) (BitVec.ofNat 32 (l.value .offset)))
      else .error .tooWide
    else .error .writtenTwice
  else .error .operandNotTaken

end Sys2Proof
end

