-- ==== Sys2Proof/Machine/State.lean ====
section
/-! DEFINITION. The state of the machine, the ways a step can stop, and the state after reset
(10_state.md, 70_reset_and_hazards.md R190 to R194). -/

namespace Sys2Proof.Machine

/-- Memory `M` (10_state.md R27, 20_memory.md R40): (address, byte) pairs in one canonical form, `Memory.wf`. -/
abbrev Memory := List Host.Cell

/-- The addresses `[base, base + len)` (20_memory.md section 4). -/
structure Region where
  base : Nat
  len : Nat
deriving DecidableEq, Repr

/-- The two control registers (10_state.md R22, R23). -/
inductive ControlRegister where
  /-- Control register number 0, `CR.STATUS`. -/
  | status
  /-- Control register number 1, `CR.KSEL`. -/
  | ksel
deriving DecidableEq, Repr

/-- What the host may try while a command runs (70_reset_and_hazards.md R200, row "during a command"). -/
inductive HostAct where
  /-- Load a byte. -/
  | load (a : Word)
  /-- Store a byte. -/
  | store (a : Word) (v : Byte)
  /-- Free or re-use a buffer. -/
  | free (r : Region)
  /-- Submit another command. -/
  | submit (d : Command)
  /-- Read a control register. -/
  | readRegister (r : ControlRegister)
  /-- Write a control register: they are read-only, so this has no effect. -/
  | writeRegister (r : ControlRegister) (v : Word)
deriving DecidableEq, Repr

/-- One action of the host or the platform at the block's boundary (70_reset_and_hazards.md R200). -/
inductive HostEvent where
  /-- Submit a command and let it complete; `during` is what the host does meanwhile. -/
  | submit (d : Command) (during : List HostAct)
  /-- Submit a command that a platform reset cuts short (R193). -/
  | submitCut (d : Command) (during : List HostAct)
  /-- Load a byte outside a command. -/
  | load (a : Word)
  /-- Store a byte outside a command. -/
  | store (a : Word) (v : Byte)
  /-- Change which memory the host holds valid, for reading and for writing (20_memory.md R52). -/
  | hold (readable writable : List Region)
  /-- Read a control register outside a command. -/
  | readRegister (r : ControlRegister)
  /-- Write a control register: they are read-only, so this has no effect (R200). -/
  | writeRegister (r : ControlRegister) (v : Word)
  /-- The platform resets the block (R190). -/
  | reset
deriving DecidableEq, Repr

/-- What the host gets back (70_reset_and_hazards.md R200, last column). -/
inductive Reply where
  /-- The completion code of a command (60_exceptions.md R163). -/
  | completion (code : BitVec 8)
  /-- The value of `CR.STATUS`. -/
  | status (v : BitVec 8)
  /-- The value of `CR.KSEL`. -/
  | ksel (v : BitVec 1)
  /-- A byte the host loaded. -/
  | byte (v : Byte)
deriving DecidableEq, Repr

/-- Faults that stop the machine: there are none. A command that fails completes with a code and "a fault never halts
the engine" (60_exceptions.md R173), so the spec's faults are next states (log 22). -/
inductive Fault where
deriving DecidableEq, Repr

/-- Why a step has no meaning. -/
inductive Refusal where
  /-- Raised by `exec` alone, for a command without a meaning yet. Safe. -/
  | notModelled (mnemonic : String)
  /-- Raised by `commit`: an interval of `RD` or `WR`, or a row buffer of `TRN.P`, passes the top of the address space
  (20_memory.md R50, R52). Safe. -/
  | footprintWraps
  /-- Raised by `commit`: a byte of `RD` is not valid memory of the host (20_memory.md R52). Safe. -/
  | inputNotValid
  /-- Raised by `commit`: a byte of `WR`, or of a row buffer of `TRN.P`, is not valid memory of the host
  (20_memory.md R50, R52). Safe. -/
  | outputNotValid
  /-- Raised by `commit`: `WR` meets `RD` (20_memory.md R53). Safe. -/
  | outputAliasesInput
  /-- Raised by `commit`: two row intervals of `WR` meet (20_memory.md R53). Safe. -/
  | outputAliasesItself
  /-- Raised by `HostAct.refusal?`: the host wrote `RD`, or touched `WR`, or freed either, during a command
  (20_memory.md R56, 70_reset_and_hazards.md R200). Safe. -/
  | touchedDuringCommand
  /-- Raised by `HostAct.refusal?`: a command was submitted while one was running (70_reset_and_hazards.md R200). Safe. -/
  | submittedWhileRunning
  /-- Raised by `HostAct.refusal?`: a control register was read during a command; the spec gives that liberty outside a
  command only (70_reset_and_hazards.md R200, log 11). Safe. -/
  | registerReadDuringCommand
deriving DecidableEq, Repr

/-- The state: what the spec gives the machine, then the model's own fields (10_state.md R29: parameters of the step). -/
structure State where
  /-- `M` (10_state.md R27). -/
  mem : Memory
  /-- `CR.STATUS` (10_state.md R22). -/
  status : BitVec 8
  /-- `CR.KSEL` (10_state.md R23). -/
  ksel : BitVec 1
  /-- The model's own: the host's coming actions, first one first (10_state.md R21, log 1). -/
  inbox : List HostEvent
  /-- The model's own: what the host got back, newest first (60_exceptions.md R163, R173, log 12). -/
  replies : List Reply
  /-- The model's own: memory the host holds valid for reading (20_memory.md R52, log 4). -/
  readable : List Region
  /-- The model's own: memory the host holds valid for writing (20_memory.md R52, log 4). -/
  writable : List Region
  /-- The model's own: free choices taken so far (70_reset_and_hazards.md R193, log 10). -/
  draws : Nat
deriving DecidableEq, Repr

/-- The whole address space (20_memory.md R40). -/
def wholeSpace : Region := ⟨0, 2 ^ 64⟩

/-- The value of `CR.KSEL` after reset: `HAS_SIMD256` (10_state.md R24). -/
def kselAtReset : BitVec 1 := BitVec.ofBool Config.hasSimd256

/-- The state after reset (10_state.md R31, 70_reset_and_hazards.md R192). `mem`, `inbox`, `replies`, `readable`,
`writable` and `draws` are DESIGN CHOICES (log 1, 3, 4, 10, 12; unsafe): reset does not touch memory, and the other
five are the model's own. -/
def State.reset : State where
  mem := []
  status := 0
  ksel := kselAtReset
  inbox := []
  replies := []
  readable := [wholeSpace]
  writable := [wholeSpace]
  draws := 0

end Sys2Proof.Machine
end

