-- ==== Sys2Proof/Machine/Flags.lean ====
section
/-! DEFINITION. The block has no condition codes or flags (10_state.md R26). What takes their place is the completion
code in `CR.STATUS` (60_exceptions.md R160) and the order in which a command's checks decide it (R164). -/

namespace Sys2Proof.Machine

/-- The completion codes by name (60_exceptions.md R160). -/
inductive Code where
  | ok | unsupportedTickCount | illegalCommand | alignmentFault | operandFault
deriving DecidableEq, Repr

/-- The number of a completion code (60_exceptions.md R160). -/
def Code.bits : Code → BitVec 8
  | .ok => 0
  | .unsupportedTickCount => 1
  | .illegalCommand => 2
  | .alignmentFault => 3
  | .operandFault => 4

/-- A check of a command: does it fail, and with which code? -/
structure Check where
  fails : Bool
  code : Code
deriving DecidableEq, Repr

/-- "The first check that fails decides the code" (60_exceptions.md R164). -/
def firstFault : List Check → Option Code
  | [] => none
  | c :: cs => if c.fails then some c.code else firstFault cs

/-- `IllegalCommand` when `GRP` is above 7 (60_exceptions.md R166); `exec` makes the check too (log 17). -/
def groupCheck (grp : BitVec 8) : Check := ⟨!groupInRange grp, .illegalCommand⟩

/-- `UnsupportedTickCount` when `N mod 8 ≠ 0` (60_exceptions.md R167). -/
def tickCheck (n : Half) : Check := ⟨n.toNat % Config.tickQuantum != 0, .unsupportedTickCount⟩

/-- `OperandFault` when `STRIDE` is smaller than the samples of a row (60_exceptions.md R168). -/
def strideCheck (stride : Half) (samples : Nat) : Check := ⟨decide (stride.toNat < samples), .operandFault⟩

/-- `AlignmentFault` when an address is not a multiple of `k` (60_exceptions.md R169). -/
def alignCheck (a : Word) (k : Nat) : Check := ⟨a.toNat % k != 0, .alignmentFault⟩

end Sys2Proof.Machine
end

