-- ==== Sys2Proof/Machine/Ops.lean ====
section
/-! DEFINITION. The named operations over memory, regions and the control registers, completion of a command, and the
fault: the spec's exception (20_memory.md, 60_exceptions.md R163 to R173). -/

namespace Sys2Proof.Machine

/-! ### Memory (00_scope.md R13, 20_memory.md R40, R41) -/

/-- What an address reads as when nothing is listed there: 0 (DESIGN CHOICE, log 3; unsafe). -/
def Memory.unlisted : Byte := 0

/-- The canonical form: addresses strictly rising, no entry equal to what an unlisted address reads as. -/
abbrev Memory.wf (m : Memory) : Prop :=
  m.Pairwise (fun p q => p.1 < q.1) ∧ ∀ c ∈ m, c.2 ≠ Memory.unlisted

/-- Every listed address is an address of the space (20_memory.md R40). -/
abbrev Memory.inSpace (m : Memory) : Prop := ∀ c ∈ m, c.1 < 2 ^ 64

/-- One byte. -/
def Memory.readByte : Memory → Nat → Byte
  | [], _ => Memory.unlisted
  | (k, v) :: m, a => if a < k then Memory.unlisted else if a = k then v else Memory.readByte m a

/-- Store one byte, keeping the canonical form. -/
def Memory.writeByte : Memory → Nat → Byte → Memory
  | [], a, v => if v = Memory.unlisted then [] else [(a, v)]
  | (k, w) :: m, a, v =>
    if k < a then (k, w) :: Memory.writeByte m a v
    else if k = a then (if v = Memory.unlisted then m else (a, v) :: m)
    else if v = Memory.unlisted then (k, w) :: m else (a, v) :: (k, w) :: m

/-- `MemRead(a, n)`: the value held little-endian in `n` bytes from `a` (00_scope.md R13). -/
def Memory.memRead (m : Memory) (a : Nat) : Nat → Nat
  | 0 => 0
  | n + 1 => (m.readByte a).toNat + 256 * Memory.memRead m (a + 1) n

/-- `MemWrite(a, n, v)`: the low `8·n` bits of `v` little-endian into `n` bytes from `a` (00_scope.md R13). -/
def Memory.memWrite (m : Memory) (a : Nat) : Nat → Nat → Memory
  | 0, _ => m
  | n + 1, v => Memory.memWrite (m.writeByte a (BitVec.ofNat 8 v)) (a + 1) n (v / 256)

/-- A 64-bit word: every read of the engine (20_memory.md R45). -/
def Memory.readWord (m : Memory) (a : Nat) : Word := BitVec.ofNat 64 (m.memRead a 8)

/-- A 16-bit sample, as the host sees it (20_memory.md R41). -/
def Memory.readSample (m : Memory) (a : Nat) : Sample := BitVec.ofNat 16 (m.memRead a 2)

/-- A 16-bit sample: every write of the engine (20_memory.md R46). -/
def Memory.writeSample (m : Memory) (a : Nat) (v : Sample) : Memory := m.memWrite a 2 v.toNat

/-- The samples of a command, each at its address, one after another; their order is not observable
(20_memory.md R59). -/
def Memory.writeSamples (m : Memory) (outs : List (Nat × Sample)) : Memory :=
  outs.foldl (fun m e => m.writeSample e.1 e.2) m

/-- `n` consecutive words from `a` (00_scope.md R15). -/
def Memory.readWords (m : Memory) (a n : Nat) : List Word := (List.range n).map fun j => m.readWord (a + 8 * j)

/-- Memory whose byte at each address is `new`'s where `pick` holds and `old`'s elsewhere
(70_reset_and_hazards.md R193). -/
def Memory.blend (pick : Nat → Bool) (old new : Memory) : Memory :=
  ((old ++ new).map (·.1)).foldl
    (fun m a => m.writeByte a (if pick a then Memory.readByte new a else Memory.readByte old a)) old

/-! ### Regions (20_memory.md section 4) -/

/-- The address lies in the region. -/
def Region.has (r : Region) (a : Nat) : Bool := decide (r.base ≤ a) && decide (a < r.base + r.len)

/-- The region does not pass the top of the address space (20_memory.md R52); an empty one cannot (log 6). -/
def Region.fits (r : Region) : Bool := r.len == 0 || decide (r.base + r.len ≤ Config.addrSpace)

/-- No address lies in both regions. -/
def Region.disjoint (r q : Region) : Bool :=
  r.len == 0 || q.len == 0 || decide (r.base + r.len ≤ q.base) || decide (q.base + q.len ≤ r.base)

/-- What is left of `r` without `o`: the part below `o` and the part above it. -/
def Region.minus (r o : Region) : List Region :=
  let top := max r.base (o.base + o.len)
  [⟨r.base, min (r.base + r.len) o.base - r.base⟩, ⟨top, r.base + r.len - top⟩].filter (·.len != 0)

/-- What is left of a set of regions without `o`. -/
def Region.subtract (rs : List Region) (o : Region) : List Region := rs.flatMap (·.minus o)

/-- Every address of `r` lies in a region of `own`. -/
def Region.coveredBy (own : List Region) (r : Region) : Bool :=
  (own.foldl Region.subtract [r]).all (·.len == 0)

/-- No address lies in two regions of the list. -/
def Region.pairwiseDisjoint : List Region → Bool
  | [] => true
  | r :: rs => rs.all (r.disjoint ·) && Region.pairwiseDisjoint rs

/-- Which duty towards a command with read footprint `rd` and write footprint `wr` the host breaks, if any
(20_memory.md R52, R53; the order of the names is log 18). -/
def footprintRefusal (s : State) (rd wr : List Region) : Option Refusal :=
  if !(rd ++ wr).all Region.fits then some .footprintWraps
  else if !rd.all (Region.coveredBy s.readable) then some .inputNotValid
  else if !wr.all (Region.coveredBy s.writable) then some .outputNotValid
  else if !rd.all (fun r => wr.all (r.disjoint ·)) then some .outputAliasesInput
  else if !Region.pairwiseDisjoint wr then some .outputAliasesItself
  else none

/-- Which duty towards buffers that must be valid for writing beside `WR(cmd)` the host breaks, if any
(20_memory.md R50, 70_reset_and_hazards.md R200). -/
def buffersRefusal (s : State) (buffers : List Region) : Option Refusal :=
  if !buffers.all Region.fits then some .footprintWraps
  else if !buffers.all (Region.coveredBy s.writable) then some .outputNotValid
  else none

/-! ### Completion and faults (60_exceptions.md) -/

/-- `complete(code)`: `CR.STATUS <- code`, and the code is returned to the host (60_exceptions.md R163). -/
def complete (c : Code) (s : State) : State :=
  { s with status := c.bits, replies := .completion c.bits :: s.replies }

/-- `raise <Exception>`: the exception of this block is to complete with the fault's code and no memory written
(00_scope.md R14, 60_exceptions.md R165, R172). Nothing is saved, so there is no return from it (R173). -/
def raise (c : Code) (s : State) : State := complete c s

/-- The reset of the block: its two registers, nothing else (70_reset_and_hazards.md R191). The host's coming actions and
what it holds valid are the host's, so they stay (log 21). -/
def resetBlock (s : State) : State := { s with status := 0, ksel := kselAtReset }

/-- The reply to a read of a control register (70_reset_and_hazards.md R200). -/
def registerReply (s : State) : ControlRegister → Reply
  | .status => .status s.status
  | .ksel => .ksel s.ksel

end Sys2Proof.Machine
end

