-- ==== Sys2Proof/Machine/Unpack.lean ====
section
/-! DEFINITION. The packed data formats and what the block reads from them: `adc_at`, `unpack16`, `unpack64`,
`unpack128`, `sample`, and the law's `pack` (00_scope.md R15, R16; 30_encoding.md R70 to R79; 40_expand.md). -/

namespace Sys2Proof.Machine

/-- The words laid end to end, word 0 least significant (00_scope.md R15, the number `B`). -/
def streamNat : List Word → Nat
  | [] => 0
  | w :: ws => w.toNat + 2 ^ 64 * streamNat ws

/-- `adc_at(W, k)`: stream bits `12·k+11 : 12·k` (00_scope.md R15, 30_encoding.md R70). -/
def adcAt (ws : List Word) (k : Nat) : Adc := BitVec.ofNat 12 (streamNat ws >>> (12 * k))

/-- The low 12 bits of a word. -/
def low12 (w : Word) : Adc := w.setWidth 12

/-- `zext_16`: the upper four bits of an output sample are 0 (30_encoding.md R79). -/
def zext16 (a : Adc) : Sample := a.setWidth 16

/-- `unpack16(w0, w1, w2)`: the 16 lanes of three words, the last index range corrected
(40_expand.md R103, 90_conflicts.md C1). -/
def unpack16 (w0 w1 w2 : Word) : List Adc :=
  (List.range 5).map (fun i => low12 ((w0 >>> (12 * i)) &&& 0xFFF#64)) ++
  [low12 (((w1 &&& 0xFF#64) <<< 4) ||| (w0 >>> 60))] ++
  (List.range 4).map (fun i => low12 ((w1 >>> (12 * i + 8)) &&& 0xFFF#64)) ++
  [low12 (((w2 &&& 0xF#64) <<< 8) ||| ((w1 >>> 56) &&& 0xFF#64))] ++
  (List.range 5).map (fun i => low12 ((w2 >>> (12 * i + 4)) &&& 0xFFF#64))

/-- `unpack64(W)`: four consecutive applications to 12 words (40_expand.md R105). -/
def unpack64 (ws : List Word) : List Adc :=
  (List.range 4).flatMap fun j => unpack16 (ws.getD (3 * j) 0) (ws.getD (3 * j + 1) 0) (ws.getD (3 * j + 2) 0)

/-- `unpack128(F)`: the two links of the frame at `f`, words 4 to 15 and 18 to 29 (40_expand.md R107). -/
def unpack128 (m : Memory) (f : Nat) : List Adc :=
  unpack64 (m.readWords (f + 8 * Config.adcWordA) Config.linkAdcWords) ++
  unpack64 (m.readWords (f + 8 * Config.adcWordB) Config.linkAdcWords)

/-- `sample(F, c)`: channel `c` of the frame at `f` (00_scope.md R16, 30_encoding.md R77). -/
def sampleAt (m : Memory) (f c : Nat) : Adc :=
  let link := c / Config.chPerLink
  let first := 4 + 14 * link
  adcAt (m.readWords (f + 8 * first) Config.linkAdcWords) (c % Config.chPerLink)

/-- `T(c, t)`: the transposed value of channel `c` at time `t` (42_transpose_full.md R146). -/
def transposed (m : Memory) (src c t : Nat) : Sample := zext16 (sampleAt m (src + Config.frameBytes * t) c)

/-- `gw(g)`: the first frame word of group `g` (30_encoding.md R77). -/
def groupWord (g : Nat) : Nat := 4 + 3 * g + 2 * (g / 4)

/-- The number whose 12-bit groups are the values, value 0 least significant (40_expand.md R109). -/
def packNat : List Adc → Nat
  | [] => 0
  | x :: xs => x.toNat + 2 ^ 12 * packNat xs

/-- `pack(a)`: the words that hold the values densely packed (40_expand.md R109). Not an operation of the block; the
law of R109 and the recovery law of 42_transpose_full.md R151 are stated with it. -/
def pack (xs : List Adc) : List Word :=
  (List.range (xs.length * 12 / 64)).map fun j => BitVec.ofNat 64 (packNat xs >>> (64 * j))

/-- Samples written one after another from `dst`: value `i` at `dst + 2·i` (40_expand.md R104, R106, R108). -/
def rowOuts (dst : Nat) (xs : List Adc) : List (Nat × Sample) :=
  (List.range xs.length).map fun i => (dst + 2 * i, zext16 (xs.getD i 0))

end Sys2Proof.Machine
end

