-- ==== Sys2Proof/Machine/Operands.lean ====
section
/-! DEFINITION. Operand assembly, the footprints of the commands, and the one shape in which a command runs. Operands are unsigned, `N` counts frames of 240
bytes, `STRIDE` and `OFFSET` count samples of 2 bytes, addresses are exact (30_encoding.md R86, 20_memory.md R47 to R51). -/

namespace Sys2Proof.Machine

/-- `P[c]` for `c = 0..127`: the row pointers of the table at `table` (30_encoding.md R81). -/
def rowPointers (m : Memory) (table : Nat) : List Word := m.readWords table Config.nchan

/-- Address of element `(row, t)` of a flat buffer: `dst + 2·(row·stride + t)` (30_encoding.md R80). -/
def flatAddr (dst stride row t : Nat) : Nat := dst + 2 * (row * stride + t)

/-- Address of channel `c` at time `t` through the row pointers: `P[c] + 2·(offset + t)` (30_encoding.md R81). -/
def rowAddr (ps : List Word) (offset c t : Nat) : Nat := (ps.getD c 0).toNat + 2 * (offset + t)

/-- `frames` whole frames from `src` (20_memory.md R48 to R50). -/
def frameRegion (src : Word) (frames : Nat) : Region := ⟨src.toNat, Config.frameBytes * frames⟩

/-- The pointer table of `TRN.P` (20_memory.md R50). -/
def tableRegion (dst : Word) : Region := ⟨dst.toNat, Config.ptrBytes * Config.nchan⟩

/-- The first `n` samples of each of `rows` rows of a flat buffer (20_memory.md R48, R49). -/
def flatRows (rows : Nat) (dst : Word) (stride : Half) (n : Nat) : List Region :=
  (List.range rows).map fun i => ⟨flatAddr dst.toNat stride.toNat i 0, 2 * n⟩

/-- `n` samples from sample `offset` of each row of `TRN.P` (20_memory.md R50). -/
def pointerRows (ps : List Word) (offset : Half) (n : Nat) : List Region :=
  (List.range Config.nchan).map fun c => ⟨rowAddr ps offset.toNat c 0, 2 * n⟩

/-- `RD(cmd)` (20_memory.md R47 to R51). -/
def readFootprint : Instr → List Region
  | .exp16 src _ => [⟨src.toNat, 24⟩]
  | .exp64 src _ => [⟨src.toNat, 96⟩]
  | .exp128 src _ => [frameRegion src 1]
  | .tr16x8 _ src _ _ => [frameRegion src 8]
  | .tr16x16 _ src _ _ => [frameRegion src 16]
  | .tr16x32 _ src _ _ => [frameRegion src 32]
  | .trnF n src _ _ => [frameRegion src n.toNat]
  | .trnP n src dst _ => [frameRegion src n.toNat, tableRegion dst]

/-- `WR(cmd)`; for `TRN.P` it depends on the pointer table in `m` (20_memory.md R47 to R51). -/
def writeFootprint (m : Memory) : Instr → List Region
  | .exp16 _ dst => [⟨dst.toNat, 32⟩]
  | .exp64 _ dst => [⟨dst.toNat, 128⟩]
  | .exp128 _ dst => [⟨dst.toNat, 256⟩]
  | .tr16x8 _ _ dst stride => flatRows Config.groupCh dst stride 8
  | .tr16x16 _ _ dst stride => flatRows Config.groupCh dst stride 16
  | .tr16x32 _ _ dst stride => flatRows Config.groupCh dst stride 32
  | .trnF n _ dst stride => flatRows Config.nchan dst stride n.toNat
  | .trnP n _ dst offset => pointerRows (rowPointers m dst.toNat) offset n.toNat

/-- The row buffers of `TRN.P`: each row pointer must be valid for `offset + n` writes, the samples before `offset`
among them (20_memory.md R50, 90_conflicts.md C8). -/
def rowBuffers (ps : List Word) (offset : Half) (n : Nat) : List Region :=
  (List.range Config.nchan).map fun c => ⟨(ps.getD c 0).toNat, 2 * (offset.toNat + n)⟩

/-- The buffers the host must hold valid for writing beside `WR(cmd)` (20_memory.md R50, 70_reset_and_hazards.md R200);
for the other commands `WR(cmd)` is all it owes (log 7). -/
def writeBuffers (m : Memory) : Instr → List Region
  | .exp16 _ _ => []
  | .exp64 _ _ => []
  | .exp128 _ _ => []
  | .tr16x8 _ _ _ _ => []
  | .tr16x16 _ _ _ _ => []
  | .tr16x32 _ _ _ _ => []
  | .trnF _ _ _ _ => []
  | .trnP n _ dst offset => rowBuffers (rowPointers m dst.toNat) offset n.toNat

/-! ### Running a command (20_memory.md R52, R53, R57; 60_exceptions.md R164, R165, R170) -/

/-- Which duty towards the command the host breaks, if any. -/
def dutyRefusal (s : State) (i : Instr) : Option Refusal :=
  (footprintRefusal s (readFootprint i) (writeFootprint s.mem i)).or (buffersRefusal s (writeBuffers s.mem i))

/-- Make the writes of a command that passed its checks and complete it with `OK`; refuse it where the host broke a
duty (20_memory.md R52, R53, R57, 60_exceptions.md R170). -/
def commit (s : State) (i : Instr) (outs : List (Nat × Sample)) : Host.Outcome State Fault Refusal :=
  match dutyRefusal s i with
  | some r => .refused r
  | none => .next (complete .ok { s with mem := s.mem.writeSamples outs })

/-- A command whose checks use its fields only: the first that fails decides its code and nothing is written;
if none fails its writes are made (60_exceptions.md R164, R165). The checks come before the host's duties (log 5). -/
def runCommand (s : State) (checks : List Check) (i : Instr) (outs : List (Nat × Sample)) :
    Host.Outcome State Fault Refusal :=
  match firstFault checks with
  | some c => .next (raise c s)
  | none => commit s i outs

end Sys2Proof.Machine
end

