-- ==== Sys2Proof/Machine/Expand.lean ====
section
/-! DEFINITION. The expansion commands `EXP16`, `EXP64`, `EXP128` (40_expand.md). -/

namespace Sys2Proof.Machine

/-- The checks of the family on its fields, in order (40_expand.md R101); the must-be-zero fields are the decoder's. -/
def expandChecks (src dst : Word) : List Check := [alignCheck src 8, alignCheck dst 2]

/-- The samples of `EXP16` (40_expand.md R104). -/
def exp16Outs (m : Memory) (src dst : Nat) : List (Nat × Sample) :=
  rowOuts dst (unpack16 (m.readWord src) (m.readWord (src + 8)) (m.readWord (src + 16)))

/-- The samples of `EXP64` (40_expand.md R106). -/
def exp64Outs (m : Memory) (src dst : Nat) : List (Nat × Sample) :=
  rowOuts dst (unpack64 (m.readWords src Config.linkAdcWords))

/-- The samples of `EXP128` (40_expand.md R108). -/
def exp128Outs (m : Memory) (src dst : Nat) : List (Nat × Sample) := rowOuts dst (unpack128 m src)

/-- `EXP16` (40_expand.md R104). -/
def execExp16 (src dst : Word) (s : State) : Host.Outcome State Fault Refusal :=
  runCommand s (expandChecks src dst) (.exp16 src dst) (exp16Outs s.mem src.toNat dst.toNat)

/-- `EXP64` (40_expand.md R106). -/
def execExp64 (src dst : Word) (s : State) : Host.Outcome State Fault Refusal :=
  runCommand s (expandChecks src dst) (.exp64 src dst) (exp64Outs s.mem src.toNat dst.toNat)

/-- `EXP128` (40_expand.md R108). -/
def execExp128 (src dst : Word) (s : State) : Host.Outcome State Fault Refusal :=
  runCommand s (expandChecks src dst) (.exp128 src dst) (exp128Outs s.mem src.toNat dst.toNat)

end Sys2Proof.Machine
end

