-- ==== Sys2Proof/Machine/Kernels.lean ====
section
/-! DEFINITION. The transpose kernels `TR16X8`, `TR16X16`, `TR16X32` (41_transpose_kernels.md). -/

namespace Sys2Proof.Machine

/-- The 16 lanes of group `g` of the frame at `f` (41_transpose_kernels.md R121). -/
def groupLanes (m : Memory) (f g : Nat) : List Adc :=
  unpack16 (m.readWord (f + 8 * groupWord g)) (m.readWord (f + 8 * groupWord g + 8))
    (m.readWord (f + 8 * groupWord g + 16))

/-- The samples `kernel(n, g, S, D, st)` writes: row `i` column `t` at `D + 2·(i·st + t)` (41_transpose_kernels.md R121). -/
def kernelOuts (m : Memory) (n g src dst stride : Nat) : List (Nat × Sample) :=
  (List.range n).flatMap fun t =>
    let lanes := groupLanes m (src + Config.frameBytes * t) g
    (List.range Config.groupCh).map fun i => (flatAddr dst stride i t, zext16 (lanes.getD i 0))

/-- The memory after `kernel(n, g, S, D, st)` (41_transpose_kernels.md R121). -/
def kernel (n g src dst stride : Nat) (m : Memory) : Memory := m.writeSamples (kernelOuts m n g src dst stride)

/-- The checks of the family, in order (41_transpose_kernels.md R125); the must-be-zero fields are the decoder's. -/
def kernelChecks (n : Nat) (grp : BitVec 8) (src dst : Word) (stride : Half) : List Check :=
  [groupCheck grp, strideCheck stride n, alignCheck src 8, alignCheck dst 2]

/-- `TR16X8` (41_transpose_kernels.md R122). -/
def execTr16x8 (grp : BitVec 8) (src dst : Word) (stride : Half) (s : State) : Host.Outcome State Fault Refusal :=
  runCommand s (kernelChecks 8 grp src dst stride) (.tr16x8 grp src dst stride)
    (kernelOuts s.mem 8 grp.toNat src.toNat dst.toNat stride.toNat)

/-- `TR16X16` (41_transpose_kernels.md R123). -/
def execTr16x16 (grp : BitVec 8) (src dst : Word) (stride : Half) (s : State) : Host.Outcome State Fault Refusal :=
  runCommand s (kernelChecks 16 grp src dst stride) (.tr16x16 grp src dst stride)
    (kernelOuts s.mem 16 grp.toNat src.toNat dst.toNat stride.toNat)

/-- `TR16X32` (41_transpose_kernels.md R124). -/
def execTr16x32 (grp : BitVec 8) (src dst : Word) (stride : Half) (s : State) : Host.Outcome State Fault Refusal :=
  runCommand s (kernelChecks 32 grp src dst stride) (.tr16x32 grp src dst stride)
    (kernelOuts s.mem 32 grp.toNat src.toNat dst.toNat stride.toNat)

end Sys2Proof.Machine
end

