-- ==== Sys2Proof/Machine/Transpose.lean ====
section
/-! DEFINITION. The full transposes `TRN.F` and `TRN.P`, and the source's stride loop (42_transpose_full.md). -/

namespace Sys2Proof.Machine

/-- The `128·n` samples of a full transpose, the one of channel `c` at time `t` at `addr c t`: `T(c, t)`, which for the
frame of time `t` is value `c` of `unpack128` (42_transpose_full.md R146, 40_expand.md R107). The frames are taken one
after another; the order is not observable (20_memory.md R59, log 25). -/
def transposeOuts (m : Memory) (n src : Nat) (addr : Nat → Nat → Nat) : List (Nat × Sample) :=
  (List.range n).flatMap fun t =>
    let channels := unpack128 m (src + Config.frameBytes * t)
    (List.range Config.nchan).map fun c => (addr c t, zext16 (channels.getD c 0))

/-- The samples of `TRN.F` (42_transpose_full.md R141). -/
def trnFOuts (m : Memory) (n src dst stride : Nat) : List (Nat × Sample) :=
  transposeOuts m n src (flatAddr dst stride)

/-- The samples of `TRN.P` (42_transpose_full.md R143). -/
def trnPOuts (m : Memory) (n src dst offset : Nat) : List (Nat × Sample) :=
  transposeOuts m n src (rowAddr (rowPointers m dst) offset)

/-- The checks of `TRN.F`, in order (42_transpose_full.md R142); the must-be-zero fields are the decoder's. -/
def trnFChecks (n : Half) (src dst : Word) (stride : Half) : List Check :=
  [tickCheck n, strideCheck stride n.toNat, alignCheck src 8, alignCheck dst 2]

/-- The checks (2) and (3) of `TRN.P`, which use its fields only (42_transpose_full.md R144). -/
def trnPChecks (n : Half) (src dst : Word) : List Check := [tickCheck n, alignCheck src 8, alignCheck dst 8]

/-- Check (4) of `TRN.P`: every row pointer is a multiple of 2 (42_transpose_full.md R144, 60_exceptions.md R169). -/
def pointerChecks (ps : List Word) : List Check := ps.map (alignCheck · 2)

/-- `TRN.F` (42_transpose_full.md R141). -/
def execTrnF (n : Half) (src dst : Word) (stride : Half) (s : State) : Host.Outcome State Fault Refusal :=
  runCommand s (trnFChecks n src dst stride) (.trnF n src dst stride)
    (trnFOuts s.mem n.toNat src.toNat dst.toNat stride.toNat)

/-- `TRN.P` (42_transpose_full.md R143, R144): the checks on fields, then the table, which must be valid to be read
(log 20), then the row pointers, then the writes. -/
def execTrnP (n : Half) (src dst : Word) (offset : Half) (s : State) : Host.Outcome State Fault Refusal :=
  match firstFault (trnPChecks n src dst) with
  | some c => .next (raise c s)
  | none =>
    match footprintRefusal s [tableRegion dst] [] with
    | some r => .refused r
    | none =>
      runCommand s (pointerChecks (rowPointers s.mem dst.toNat)) (.trnP n src dst offset)
        (trnPOuts s.mem n.toNat src.toNat dst.toNat offset.toNat)

/-- The strides of the source's loop, (start, length) each: 32 while at least 32 frames remain, then 8 while at least 8
remain (42_transpose_full.md R145, 90_conflicts.md C2). `fuel` bounds the loop; the number of frames is enough. -/
def strides : (fuel t0 rem : Nat) → List (Nat × Nat)
  | 0, _, _ => []
  | fuel + 1, t0, rem =>
    if 32 ≤ rem then (t0, 32) :: strides fuel (t0 + 32) (rem - 32)
    else if 8 ≤ rem then (t0, 8) :: strides fuel (t0 + 8) (rem - 8)
    else []

/-- One stride of the loop: the kernel of each of the eight groups (42_transpose_full.md R145). -/
def strideStep (src dst stride : Nat) (m : Memory) (st : Nat × Nat) : Memory :=
  (List.range Config.ngroup).foldl
    (fun m g => kernel st.2 g (src + Config.frameBytes * st.1) (dst + 2 * (16 * g * stride + st.1)) stride m) m

/-- The memory after the source's stride loop of kernels (42_transpose_full.md R145); no meaning calls it. -/
def strideLoop (n src dst stride : Nat) (m : Memory) : Memory :=
  (strides n 0 n).foldl (strideStep src dst stride) m

end Sys2Proof.Machine
end

