-- ==== Sys2Proof/Machine/Dispatch.lean ====
section
/-! DEFINITION. One arm per command, each a direct call of its meaning. -/

namespace Sys2Proof.Machine

def exec (i : Instr) (s : State) : Host.Outcome State Fault Refusal :=
  match i with
  | .exp16 src dst => Sys2Proof.Machine.execExp16 src dst s
  | .exp64 src dst => Sys2Proof.Machine.execExp64 src dst s
  | .exp128 src dst => Sys2Proof.Machine.execExp128 src dst s
  | .tr16x8 grp src dst stride => Sys2Proof.Machine.execTr16x8 grp src dst stride s
  | .tr16x16 grp src dst stride => Sys2Proof.Machine.execTr16x16 grp src dst stride s
  | .tr16x32 grp src dst stride => Sys2Proof.Machine.execTr16x32 grp src dst stride s
  | .trnF n src dst stride => Sys2Proof.Machine.execTrnF n src dst stride s
  | .trnP n src dst offset => Sys2Proof.Machine.execTrnP n src dst offset s

end Sys2Proof.Machine
end

