-- ==== Sys2Proof/Machine/HostSide.lean ====
section
/-! DEFINITION. What the host and the platform do at the block's boundary, and how a submitted command runs
(20_memory.md R52 to R58, 70_reset_and_hazards.md R190 to R200). -/

namespace Sys2Proof.Machine

/-- The 256 bits run: an illegal pattern completes with `IllegalCommand` (30_encoding.md R87, 60_exceptions.md R166). -/
def runBits (d : Command) (s : State) : Host.Outcome State Fault Refusal :=
  match decode d with
  | .ok i => exec i s
  | .error _ => .next (raise .illegalCommand s)

/-- `RD` of the submitted bits; an illegal command reads nothing. -/
def bitsRead (d : Command) : List Region :=
  match decode d with
  | .ok i => readFootprint i
  | .error _ => []

/-- `WR` of the submitted bits; an illegal command writes nothing. -/
def bitsWritten (m : Memory) (d : Command) : List Region :=
  match decode d with
  | .ok i => writeFootprint m i
  | .error _ => []

/-- What the host may not do while a command with footprints `rd` and `wr` runs: write `rd`, touch `wr`, free either
(20_memory.md R56, R64), submit (70_reset_and_hazards.md R200), or read a register (log 11). A write to a register has no effect (decision D4). -/
def HostAct.refusal? (rd wr : List Region) : HostAct → Option Refusal
  | .load a => if wr.any (·.has a.toNat) then some .touchedDuringCommand else none
  | .store a _ => if (rd ++ wr).any (·.has a.toNat) then some .touchedDuringCommand else none
  | .free r => if (rd ++ wr).all (r.disjoint ·) then none else some .touchedDuringCommand
  | .submit _ => some .submittedWhileRunning
  | .readRegister _ => some .registerReadDuringCommand
  | .writeRegister _ _ => none

/-- The first thing the host may not do. -/
def actsRefusal (rd wr : List Region) : List HostAct → Option Refusal
  | [] => none
  | a :: as =>
    match a.refusal? rd wr with
    | some r => some r
    | none => actsRefusal rd wr as

/-- The effect of what the host does. -/
def HostAct.apply (s : State) : HostAct → State
  | .load a => { s with replies := .byte (s.mem.readByte a.toNat) :: s.replies }
  | .store a v => { s with mem := s.mem.writeByte a.toNat v }
  | .free r => { s with readable := Region.subtract s.readable r, writable := Region.subtract s.writable r }
  | .submit _ => s
  | .readRegister _ => s
  | .writeRegister _ _ => s

/-- Run a command while the host does `during`. What it may do touches neither footprint, so it is taken before the
command, which is one step (20_memory.md R56). -/
def besideCommand (d : Command) (during : List HostAct) (s : State) (run : State → Host.Outcome State Fault Refusal) :
    Host.Outcome State Fault Refusal :=
  match actsRefusal (bitsRead d) (bitsWritten s.mem d) during with
  | some r => .refused r
  | none => run (during.foldl HostAct.apply s)

/-- A command submitted and run to completion. -/
def submit (d : Command) (during : List HostAct) (s : State) : Host.Outcome State Fault Refusal :=
  besideCommand d during s (runBits d)

/-- The state after a reset that abandons a command: no code is returned, each byte the command would have changed is
old or new, the block is reset. `before` and `after` are the states without the command and with it
(70_reset_and_hazards.md R193). -/
def cutShort (before after : State) : State :=
  { resetBlock before with
    mem := Memory.blend (Config.cutWritten before.draws) before.mem after.mem
    draws := before.draws + 1 }

/-- Run a command's bits and cut it short by a reset (70_reset_and_hazards.md R193). -/
def runCut (d : Command) (s : State) : Host.Outcome State Fault Refusal :=
  match runBits d s with
  | .next s' => .next (cutShort s s')
  | .fault r => .fault r
  | .refused r => .refused r

/-- One action of the host or the platform. Outside a command the host reads and writes all memory (log 19). -/
def runEvent (e : HostEvent) (s : State) : Host.Outcome State Fault Refusal :=
  match e with
  | .submit d during => submit d during s
  | .submitCut d during => besideCommand d during s (runCut d)
  | .load a => .next (HostAct.apply s (.load a))
  | .store a v => .next (HostAct.apply s (.store a v))
  | .hold readable writable => .next { s with readable := readable, writable := writable }
  | .readRegister r => .next { s with replies := registerReply s r :: s.replies }
  | .writeRegister _ _ => .next s
  | .reset => .next (resetBlock s)

/-- Hand the engine the host's next action; with none the block stays idle (log 2). -/
def runNext (s : State) : Host.Outcome State Fault Refusal :=
  match s.inbox with
  | [] => .next s
  | e :: rest => runEvent e { s with inbox := rest }

/-- The command whose `nbits` bits are `w`, the bits above them 0. -/
def tableCommand (nbits w : Nat) : Command := BitVec.ofNat 256 (w % 2 ^ nbits)

end Sys2Proof.Machine
end

