-- ==== Sys2Proof/Machine/Step.lean ====
section
/-! DEFINITION. One step of the machine: the host's next action, a command to completion among them
(10_state.md R21, R28; 60_exceptions.md R163). -/

namespace Sys2Proof.Machine

/-- One step. -/
def step (s : State) : Host.Outcome State Fault Refusal := runNext s

/-- The state whose very next step runs the command given: the host submits it first (log 1). -/
def State.withFetchWord (s : State) (nbits w : Nat) : State :=
  { s with inbox := .submit (tableCommand nbits w) [] :: s.inbox }

end Sys2Proof.Machine
end

