-- ==== Sys2Proof/Safety.lean ====
section
/-! DEFINITION. What the claims are stated in: the host's duties towards a command, the invariant of the machine, and a
run that is given a meaning throughout (20_memory.md R52, R53; 60_exceptions.md R160, R170). -/

namespace Sys2Proof.Machine

/-- The address lies in one of the regions. -/
def InRegions (rs : List Region) (a : Nat) : Prop := ∃ r ∈ rs, r.base ≤ a ∧ a < r.base + r.len

/-- The host meets its duties towards a command with footprints `rd` and `wr` (20_memory.md R52, R53): no interval
passes the top of the address space, every byte is its valid memory, the output meets neither the input nor itself. -/
structure Duties (s : State) (rd wr : List Region) : Prop where
  fits : ∀ r ∈ rd ++ wr, r.len ≠ 0 → r.base + r.len ≤ 2 ^ 64
  inputValid : ∀ a, InRegions rd a → InRegions s.readable a
  outputValid : ∀ a, InRegions wr a → InRegions s.writable a
  inputApart : ∀ a, InRegions rd a → ¬ InRegions wr a
  rowsApart : wr.Pairwise fun r q => ∀ a, InRegions [r] a → ¬ InRegions [q] a

/-- The host holds the buffers valid for writing, and none passes the top of the address space (20_memory.md R50, R52). -/
structure Held (s : State) (buffers : List Region) : Prop where
  fits : ∀ r ∈ buffers, r.len ≠ 0 → r.base + r.len ≤ 2 ^ 64
  valid : ∀ a, InRegions buffers a → InRegions s.writable a

/-- The duties towards a command in a state: those towards its footprints, and for `TRN.P` every row valid for
`OFFSET + N` writes (20_memory.md R50, 70_reset_and_hazards.md R200). -/
structure DutiesTo (i : Instr) (s : State) : Prop extends Duties s (readFootprint i) (writeFootprint s.mem i) where
  buffers : Held s (writeBuffers s.mem i)

/-- From `s` to `t` a command completed with the code: `CR.STATUS` holds it, it was returned to the host, and nothing
but memory is changed beside (60_exceptions.md R163, R165). -/
structure Completed (c : Code) (s t : State) : Prop where
  status : t.status = c.bits
  replies : t.replies = .completion c.bits :: s.replies
  ksel : t.ksel = s.ksel
  inbox : t.inbox = s.inbox
  readable : t.readable = s.readable
  writable : t.writable = s.writable
  draws : t.draws = s.draws

/-- The 256 bits, submitted in `s`, complete with the fault's code and write nothing (60_exceptions.md R165). -/
def FaultsWith (d : Command) (s : State) (c : Code) : Prop :=
  ∃ t, submit d [] s = .next t ∧ Completed c s t ∧ t.mem = s.mem

/-- The 256 bits, submitted in `s`, raise no fault: where they complete, it is with `OK`. -/
def RaisesNone (d : Command) (s : State) : Prop := ∀ t, submit d [] s = .next t → t.status = Code.ok.bits

/-- The invariant of the machine: memory in canonical form and inside the address space (20_memory.md R40),
`CR.STATUS` one of the five codes (10_state.md R22), `CR.KSEL` as reset set it (10_state.md R23, R24). -/
structure State.Inv (s : State) : Prop where
  memory : s.mem.wf
  space : s.mem.inSpace
  status : s.status.toNat ≤ 4
  ksel : s.ksel = kselAtReset

/-- `k` steps from `s` are all given a meaning: none is refused (60_exceptions.md R170). -/
def Safe (k : Nat) (s : State) : Prop := ∃ t, Host.Core.run Sys2Proof.core k s = .next t

end Sys2Proof.Machine
end

