-- ==== Sys2Proof/Certificates/Slice0/Obligations.lean ====
section
/-! DEFINITION. The statements about the block, each of a rule of spec/. A statement about memory has the premise
`s.mem.wf`, the canonical form of memory: an invariant of the model (`EveryStepKeepsTheInvariant`). -/

open Sys2Proof Sys2Proof.Machine

/-! ### Encoding (30_encoding.md Part B, Part C) -/

/-- The words of 95_test_vectors.md section 2.6, legal and illegal, decode as printed there. -/
def Obligations.SpecWordsDecodeAsPrinted : Prop :=
  decode (Command.ofWords 0x10 0x1000 0x7000 0) = .ok (.exp16 0x1000 0x7000) ∧
  decode (Command.ofWords 0x11 0x100 0x400 0) = .ok (.exp64 0x100 0x400) ∧
  decode (Command.ofWords 0x12 0x2000 0x2400 0) = .ok (.exp128 0x2000 0x2400) ∧
  decode (Command.ofWords 0x520 0x10000 0x30000 0xC) = .ok (.tr16x8 5 0x10000 0x30000 12) ∧
  decode (Command.ofWords 0x21 0x10000 0x30000 0x10) = .ok (.tr16x16 0 0x10000 0x30000 16) ∧
  decode (Command.ofWords 0x722 0x10000 0x30000 0x20) = .ok (.tr16x32 7 0x10000 0x30000 32) ∧
  decode (Command.ofWords 0x2800000030 0x10000 0x20000 0x30) = .ok (.trnF 40 0x10000 0x20000 48) ∧
  decode (Command.ofWords 0x1800000031 0x10000 0x3000 0x500000000) = .ok (.trnP 24 0x10000 0x3000 5) ∧
  decode 0 = .error (.reservedOpcode 0) ∧
  decode (Command.ofWords 0x10010 0x1000 0x7000 0) = .error .reservedField ∧
  decode (Command.ofWords 0x820 0x10000 0x30000 8) = .error .groupRange ∧
  decode (Command.ofWords 0x800000031 0x10000 0x3000 1) = .error .mustBeZero

/-- R84: where each field of `DESC` lies in the four words, and the number they make (R83). -/
def Obligations.FieldsLieWhereDescPutsThem : Prop :=
  ∀ w0 w1 w2 w3 : Word,
    Desc.op (Command.ofWords w0 w1 w2 w3) = w0.extractLsb' 0 8 ∧
    Desc.grp (Command.ofWords w0 w1 w2 w3) = w0.extractLsb' 8 8 ∧
    Desc.rsv (Command.ofWords w0 w1 w2 w3) = w0.extractLsb' 16 16 ∧
    Desc.n (Command.ofWords w0 w1 w2 w3) = w0.extractLsb' 32 32 ∧
    Desc.src (Command.ofWords w0 w1 w2 w3) = w1 ∧
    Desc.dst (Command.ofWords w0 w1 w2 w3) = w2 ∧
    Desc.stride (Command.ofWords w0 w1 w2 w3) = w3.extractLsb' 0 32 ∧
    Desc.offset (Command.ofWords w0 w1 w2 w3) = w3.extractLsb' 32 32 ∧
    (Command.ofWords w0 w1 w2 w3).toNat =
      w0.toNat + w1.toNat * 2 ^ 64 + w2.toNat * 2 ^ 128 + w3.toNat * 2 ^ 192

/-- R83, R85: decoding the encoding of a well-formed command gives it back, whatever its operands. -/
def Obligations.DecodeOfEncodeIsTheCommand : Prop :=
  ∀ i : Instr, i.wellFormed = true → decode (encode i) = .ok i

/-- R87, last sentence: each legal pattern is the encoding of one well-formed command, its unused fields 0. -/
def Obligations.EncodeOfDecodeIsThePattern : Prop :=
  ∀ (d : Command) (i : Instr), decode d = .ok i → i.wellFormed = true ∧ encode i = d

/-- The conditions of R87 on the fields of a command. -/
def IllegalByR87 (d : Command) : Prop :=
  Desc.op d ∉ [0x10#8, 0x11#8, 0x12#8, 0x20#8, 0x21#8, 0x22#8, 0x30#8, 0x31#8] ∨
  Desc.rsv d ≠ 0 ∨
  (Desc.op d ∈ [0x10#8, 0x11#8, 0x12#8] ∧
    (Desc.grp d ≠ 0 ∨ Desc.n d ≠ 0 ∨ Desc.stride d ≠ 0 ∨ Desc.offset d ≠ 0)) ∨
  (Desc.op d ∈ [0x20#8, 0x21#8, 0x22#8] ∧
    (Desc.n d ≠ 0 ∨ Desc.offset d ≠ 0 ∨ 7 < (Desc.grp d).toNat)) ∨
  (Desc.op d = 0x30#8 ∧ (Desc.grp d ≠ 0 ∨ Desc.offset d ≠ 0)) ∨
  (Desc.op d = 0x31#8 ∧ (Desc.grp d ≠ 0 ∨ Desc.stride d ≠ 0))

/-- R87: a command is illegal, and completes with `IllegalCommand` writing no memory, exactly under the rule's
conditions; every other pattern is one of the eight operations. -/
def Obligations.IllegalPatternsCompleteWithIllegalCommand : Prop :=
  ∀ (d : Command) (s : State),
    (IllegalByR87 d → FaultsWith d s .illegalCommand) ∧ (¬ IllegalByR87 d → ∃ i, decode d = .ok i)

/-- R88: a command decodes to the operation of the one row of the opcode table it matches, and is illegal when none
matches. -/
def Obligations.DecodeAgreesWithTheOpcodeTable : Prop :=
  ∀ d : Command,
    (∀ i, decode d = .ok i → ∀ r ∈ opcodeTable, (r.matches d = true ↔ r.opcode = i.opcode)) ∧
    (∀ why, decode d = .error why → ∀ r ∈ opcodeTable, r.matches d = false)

/-- R89: what the assembler emits is the operation of its mnemonic, or a kernel whose written group is out of range. -/
def Obligations.AssembledLinesDecodeToTheirMnemonic : Prop :=
  ∀ (l : AsmLine) (d : Command), assemble l = .ok d →
    (∃ i, decode d = .ok i ∧ i.opcode = l.mnemonic) ∨
    (l.mnemonic ∈ [Opcode.tr16x8, .tr16x16, .tr16x32] ∧ 7 < l.value .grp ∧ decode d = .error .groupRange)

/-! ### Data formats (30_encoding.md Part A, 20_memory.md, 40_expand.md) -/

/-- R41: byte order. A word's bits `8k+7 : 8k` are the byte at `a + k`, and a sample's likewise. -/
def Obligations.AccessesAreLittleEndian : Prop :=
  ∀ (m : Memory) (a : Nat),
    (∀ k < 8, (m.readWord a).extractLsb' (8 * k) 8 = m.readByte (a + k)) ∧
    (∀ k < 2, (m.readSample a).extractLsb' (8 * k) 8 = m.readByte (a + k))

/-- R42: ADC `k` of a link starts at bit `12·k mod 8` of byte `(12·k) div 8` of the link's 96 ADC bytes. -/
def Obligations.AdcStartsAtItsBitOfItsByte : Prop :=
  ∀ (m : Memory) (a k : Nat), k < 64 →
    (adcAt (m.readWords a 12) k).toNat = (m.memRead (a + 12 * k / 8) 2 >>> (12 * k % 8)) % 2 ^ 12

/-- R71: the 16 lanes of three words as the table gives them, and the pattern repeats every three words. -/
def Obligations.LanesLieAsTheTableGives : Prop :=
  (∀ w0 w1 w2 : Word, unpack16 w0 w1 w2 =
    [w0.extractLsb' 0 12, w0.extractLsb' 12 12, w0.extractLsb' 24 12, w0.extractLsb' 36 12, w0.extractLsb' 48 12,
     w1.extractLsb' 0 8 ++ w0.extractLsb' 60 4,
     w1.extractLsb' 8 12, w1.extractLsb' 20 12, w1.extractLsb' 32 12, w1.extractLsb' 44 12,
     w2.extractLsb' 0 4 ++ w1.extractLsb' 56 8,
     w2.extractLsb' 4 12, w2.extractLsb' 16 12, w2.extractLsb' 28 12, w2.extractLsb' 40 12, w2.extractLsb' 52 12]) ∧
  (∀ (w0 w1 w2 : Word) (ws : List Word) (k : Nat), adcAt (w0 :: w1 :: w2 :: ws) (16 + k) = adcAt ws k)

/-- R103, last sentence: each lane is the 12-bit group of the stream at its index. -/
def Obligations.UnpackOfThreeWordsIsTheStream : Prop :=
  ∀ w0 w1 w2 : Word, unpack16 w0 w1 w2 = (List.range 16).map (adcAt [w0, w1, w2])

/-- R105: `unpack64` by four applications, equivalently by the stream. -/
def Obligations.UnpackOfALinkIsTheStream : Prop :=
  ∀ ws : List Word, ws.length = 12 →
    unpack64 ws = (List.range 64).map (adcAt ws) ∧
    ∀ j < 4, ∀ i < 16, (unpack64 ws).getD (16 * j + i) 0 =
      (unpack16 (ws.getD (3 * j) 0) (ws.getD (3 * j + 1) 0) (ws.getD (3 * j + 2) 0)).getD i 0

/-- R107: `unpack128` returns `sample(F, c)` for each channel: link A's words 4 to 15, then link B's 18 to 29. -/
def Obligations.UnpackOfAFrameIsItsSamples : Prop :=
  ∀ (m : Memory) (f : Nat),
    unpack128 m f = (List.range 128).map (sampleAt m f) ∧
    (unpack128 m f).take 64 = unpack64 ((List.range 12).map fun j => m.readWord (f + 8 * (4 + j))) ∧
    (unpack128 m f).drop 64 = unpack64 ((List.range 12).map fun j => m.readWord (f + 8 * (18 + j)))

/-- R77: channel `c` is ADC `c mod 64` of link `c div 64`; group `g`'s three words start at frame word `gw(g)`; channel
`c` is lane `c mod 16` of group `c div 16`. -/
def Obligations.ChannelsLieWhereTheFramePutsThem : Prop :=
  (List.range 8).map groupWord = [4, 7, 10, 13, 18, 21, 24, 27] ∧
  (∀ g < 8, groupWord g = 4 + 3 * g + 2 * (g / 4)) ∧
  ∀ (m : Memory) (f c : Nat), c < 128 →
    sampleAt m f c =
      adcAt ((List.range 12).map fun j => m.readWord (f + 8 * ((if c / 64 = 0 then 4 else 18) + j))) (c % 64) ∧
    sampleAt m f c = (unpack16 (m.readWord (f + 8 * groupWord (c / 16))) (m.readWord (f + 8 * (groupWord (c / 16) + 1)))
      (m.readWord (f + 8 * (groupWord (c / 16) + 2)))).getD (c % 16) 0

/-- R109: expansion undoes packing, for 16 values, for 64, for the two links of a frame, and for any multiple of 16. -/
def Obligations.ExpansionUndoesPacking : Prop :=
  (∀ xs : List Adc, xs.length % 16 = 0 → streamNat (pack xs) = packNat xs) ∧
  (∀ xs : List Adc, xs.length % 16 = 0 → ∀ k < xs.length, adcAt (pack xs) k = xs.getD k 0) ∧
  (∀ xs : List Adc, xs.length = 16 →
    unpack16 ((pack xs).getD 0 0) ((pack xs).getD 1 0) ((pack xs).getD 2 0) = xs) ∧
  (∀ xs : List Adc, xs.length = 64 → unpack64 (pack xs) = xs) ∧
  (∀ (m : Memory) (f : Nat) (xs : List Adc), xs.length = 128 →
    m.readWords (f + 32) 12 = pack (xs.take 64) → m.readWords (f + 144) 12 = pack (xs.drop 64) →
    unpack128 m f = xs)

/-- The converse of R109 (95_test_vectors.md section 3.1): packing undoes expansion, so no bit of a link is lost. -/
def Obligations.PackingUndoesExpansion : Prop :=
  ∀ ws : List Word, ws.length = 12 → pack (unpack64 ws) = ws

/-! ### What each command does -/

/-- R104: `EXP16` on aligned operands, the host's duties met. -/
def Obligations.Exp16WritesTheSixteenLanes : Prop :=
  ∀ (src dst : Word) (s : State), s.mem.wf → src.toNat % 8 = 0 → dst.toNat % 2 = 0 →
    Duties s [⟨src.toNat, 24⟩] [⟨dst.toNat, 32⟩] →
    ∃ t, exec (.exp16 src dst) s = .next t ∧ Completed .ok s t ∧
      (∀ i < 16, t.mem.readSample (dst.toNat + 2 * i) =
        (adcAt [s.mem.readWord src.toNat, s.mem.readWord (src.toNat + 8), s.mem.readWord (src.toNat + 16)] i).setWidth 16) ∧
      (∀ a, a < dst.toNat ∨ dst.toNat + 32 ≤ a → t.mem.readByte a = s.mem.readByte a)

/-- R106: `EXP64` on aligned operands, the host's duties met. -/
def Obligations.Exp64WritesTheLinkInOrder : Prop :=
  ∀ (src dst : Word) (s : State), s.mem.wf → src.toNat % 8 = 0 → dst.toNat % 2 = 0 →
    Duties s [⟨src.toNat, 96⟩] [⟨dst.toNat, 128⟩] →
    ∃ t, exec (.exp64 src dst) s = .next t ∧ Completed .ok s t ∧
      (∀ k < 64, t.mem.readSample (dst.toNat + 2 * k) =
        (adcAt ((List.range 12).map fun j => s.mem.readWord (src.toNat + 8 * j)) k).setWidth 16) ∧
      (∀ a, a < dst.toNat ∨ dst.toNat + 128 ≤ a → t.mem.readByte a = s.mem.readByte a)

/-- R108: `EXP128` on aligned operands, the host's duties met. -/
def Obligations.Exp128WritesTheFrameInChannelOrder : Prop :=
  ∀ (src dst : Word) (s : State), s.mem.wf → src.toNat % 8 = 0 → dst.toNat % 2 = 0 →
    Duties s [⟨src.toNat, 240⟩] [⟨dst.toNat, 256⟩] →
    ∃ t, exec (.exp128 src dst) s = .next t ∧ Completed .ok s t ∧
      (∀ c < 128, t.mem.readSample (dst.toNat + 2 * c) = (sampleAt s.mem src.toNat c).setWidth 16) ∧
      (∀ a, a < dst.toNat ∨ dst.toNat + 256 ≤ a → t.mem.readByte a = s.mem.readByte a)

/-- R121 for one kernel of `n` frames: row `i` column `t` holds channel `16·GRP + i` of frame `t`. -/
def KernelTransposesItsGroup (n : Nat) (kernel : BitVec 8 → Word → Word → Half → Instr) : Prop :=
  ∀ (grp : BitVec 8) (src dst : Word) (stride : Half) (s : State), s.mem.wf → grp.toNat ≤ 7 → n ≤ stride.toNat →
    src.toNat % 8 = 0 → dst.toNat % 2 = 0 →
    Duties s [⟨src.toNat, 240 * n⟩]
      ((List.range 16).map fun i => ⟨dst.toNat + 2 * (i * stride.toNat), 2 * n⟩) →
    ∃ u, exec (kernel grp src dst stride) s = .next u ∧ Completed .ok s u ∧
      (∀ i < 16, ∀ t < n, u.mem.readSample (dst.toNat + 2 * (i * stride.toNat + t)) =
        (sampleAt s.mem (src.toNat + 240 * t) (16 * grp.toNat + i)).setWidth 16) ∧
      (∀ a, (∀ i < 16, a < dst.toNat + 2 * (i * stride.toNat) ∨ dst.toNat + 2 * (i * stride.toNat) + 2 * n ≤ a) →
        u.mem.readByte a = s.mem.readByte a)

/-- R122, R123, R124: the three kernels. -/
def Obligations.KernelsTransposeTheirGroup : Prop :=
  KernelTransposesItsGroup 8 .tr16x8 ∧ KernelTransposesItsGroup 16 .tr16x16 ∧ KernelTransposesItsGroup 32 .tr16x32

/-- R141: `TRN.F` with a legal count, stride and alignment, the host's duties met. -/
def Obligations.TrnFWritesEveryChannelRow : Prop :=
  ∀ (n : Half) (src dst : Word) (stride : Half) (s : State), s.mem.wf → n.toNat % 8 = 0 → n.toNat ≤ stride.toNat →
    src.toNat % 8 = 0 → dst.toNat % 2 = 0 →
    Duties s [⟨src.toNat, 240 * n.toNat⟩]
      ((List.range 128).map fun c => ⟨dst.toNat + 2 * (c * stride.toNat), 2 * n.toNat⟩) →
    ∃ u, exec (.trnF n src dst stride) s = .next u ∧ Completed .ok s u ∧
      (∀ c < 128, ∀ t < n.toNat, u.mem.readSample (dst.toNat + 2 * (c * stride.toNat + t)) =
        (sampleAt s.mem (src.toNat + 240 * t) c).setWidth 16) ∧
      (∀ a, (∀ c < 128, a < dst.toNat + 2 * (c * stride.toNat) ∨
          dst.toNat + 2 * (c * stride.toNat) + 2 * n.toNat ≤ a) → u.mem.readByte a = s.mem.readByte a)

/-- R143: `TRN.P` with a legal count, alignment and row pointers, the host's duties met: those towards the footprints,
and each row valid for `OFFSET + N` writes (R50). -/
def Obligations.TrnPWritesEveryChannelRow : Prop :=
  ∀ (n : Half) (src dst : Word) (offset : Half) (s : State), s.mem.wf → n.toNat % 8 = 0 →
    src.toNat % 8 = 0 → dst.toNat % 8 = 0 →
    (∀ c < 128, (s.mem.readWord (dst.toNat + 8 * c)).toNat % 2 = 0) →
    Duties s [⟨src.toNat, 240 * n.toNat⟩, ⟨dst.toNat, 1024⟩]
      ((List.range 128).map fun c =>
        ⟨(s.mem.readWord (dst.toNat + 8 * c)).toNat + 2 * offset.toNat, 2 * n.toNat⟩) →
    Held s ((List.range 128).map fun c =>
        ⟨(s.mem.readWord (dst.toNat + 8 * c)).toNat, 2 * (offset.toNat + n.toNat)⟩) →
    ∃ u, exec (.trnP n src dst offset) s = .next u ∧ Completed .ok s u ∧
      (∀ c < 128, ∀ t < n.toNat,
        u.mem.readSample ((s.mem.readWord (dst.toNat + 8 * c)).toNat + 2 * (offset.toNat + t)) =
          (sampleAt s.mem (src.toNat + 240 * t) c).setWidth 16) ∧
      (∀ a, (∀ c < 128, a < (s.mem.readWord (dst.toNat + 8 * c)).toNat + 2 * offset.toNat ∨
          (s.mem.readWord (dst.toNat + 8 * c)).toNat + 2 * offset.toNat + 2 * n.toNat ≤ a) →
        u.mem.readByte a = s.mem.readByte a)

/-! ### Checks and completion codes (60_exceptions.md) -/

/-- R101: the checks of the expansions, in order. Here and in the next four statements the codes are given whatever duty
the host broke: the model's choice, log 5. -/
def Obligations.ExpandChecksInOrder : Prop :=
  ∀ (d : Command) (s : State), Desc.op d ∈ [0x10#8, 0x11#8, 0x12#8] →
    (Desc.grp d ≠ 0 ∨ Desc.rsv d ≠ 0 ∨ Desc.n d ≠ 0 ∨ Desc.stride d ≠ 0 ∨ Desc.offset d ≠ 0 →
      FaultsWith d s .illegalCommand) ∧
    (Desc.grp d = 0 → Desc.rsv d = 0 → Desc.n d = 0 → Desc.stride d = 0 → Desc.offset d = 0 →
      ((Desc.src d).toNat % 8 ≠ 0 ∨ (Desc.dst d).toNat % 2 ≠ 0 → FaultsWith d s .alignmentFault) ∧
      ((Desc.src d).toNat % 8 = 0 → (Desc.dst d).toNat % 2 = 0 → RaisesNone d s))

/-- R125: the checks of the kernels, in order (before the host's duties: log 5). -/
def Obligations.KernelChecksInOrder : Prop :=
  ∀ (d : Command) (s : State) (n : Nat), (Desc.op d, n) ∈ [(0x20#8, 8), (0x21#8, 16), (0x22#8, 32)] →
    (Desc.rsv d ≠ 0 ∨ Desc.n d ≠ 0 ∨ Desc.offset d ≠ 0 ∨ 7 < (Desc.grp d).toNat → FaultsWith d s .illegalCommand) ∧
    (Desc.rsv d = 0 → Desc.n d = 0 → Desc.offset d = 0 → (Desc.grp d).toNat ≤ 7 →
      ((Desc.stride d).toNat < n → FaultsWith d s .operandFault) ∧
      (n ≤ (Desc.stride d).toNat → (Desc.src d).toNat % 8 ≠ 0 ∨ (Desc.dst d).toNat % 2 ≠ 0 →
        FaultsWith d s .alignmentFault) ∧
      (n ≤ (Desc.stride d).toNat → (Desc.src d).toNat % 8 = 0 → (Desc.dst d).toNat % 2 = 0 → RaisesNone d s))

/-- R142: the checks of `TRN.F`, in order (before the host's duties: log 5). -/
def Obligations.TrnFChecksInOrder : Prop :=
  ∀ (d : Command) (s : State), Desc.op d = 0x30#8 →
    (Desc.grp d ≠ 0 ∨ Desc.rsv d ≠ 0 ∨ Desc.offset d ≠ 0 → FaultsWith d s .illegalCommand) ∧
    (Desc.grp d = 0 → Desc.rsv d = 0 → Desc.offset d = 0 →
      ((Desc.n d).toNat % 8 ≠ 0 → FaultsWith d s .unsupportedTickCount) ∧
      ((Desc.n d).toNat % 8 = 0 → (Desc.stride d).toNat < (Desc.n d).toNat → FaultsWith d s .operandFault) ∧
      ((Desc.n d).toNat % 8 = 0 → (Desc.n d).toNat ≤ (Desc.stride d).toNat →
        (Desc.src d).toNat % 8 ≠ 0 ∨ (Desc.dst d).toNat % 2 ≠ 0 → FaultsWith d s .alignmentFault) ∧
      ((Desc.n d).toNat % 8 = 0 → (Desc.n d).toNat ≤ (Desc.stride d).toNat →
        (Desc.src d).toNat % 8 = 0 → (Desc.dst d).toNat % 2 = 0 → RaisesNone d s))

/-- R144: the checks of `TRN.P`, in order (before the host's other duties: log 5). The table must be the host's valid
memory to be read (R52, log 20). -/
def Obligations.TrnPChecksInOrder : Prop :=
  ∀ (d : Command) (s : State), Desc.op d = 0x31#8 →
    (Desc.grp d ≠ 0 ∨ Desc.rsv d ≠ 0 ∨ Desc.stride d ≠ 0 → FaultsWith d s .illegalCommand) ∧
    (Desc.grp d = 0 → Desc.rsv d = 0 → Desc.stride d = 0 →
      ((Desc.n d).toNat % 8 ≠ 0 → FaultsWith d s .unsupportedTickCount) ∧
      ((Desc.n d).toNat % 8 = 0 → (Desc.src d).toNat % 8 ≠ 0 ∨ (Desc.dst d).toNat % 8 ≠ 0 →
        FaultsWith d s .alignmentFault) ∧
      ((Desc.n d).toNat % 8 = 0 → (Desc.src d).toNat % 8 = 0 → (Desc.dst d).toNat % 8 = 0 →
        Duties s [⟨(Desc.dst d).toNat, 1024⟩] [] →
        (∃ c < 128, (s.mem.readWord ((Desc.dst d).toNat + 8 * c)).toNat % 2 ≠ 0) → FaultsWith d s .alignmentFault) ∧
      ((Desc.n d).toNat % 8 = 0 → (Desc.src d).toNat % 8 = 0 → (Desc.dst d).toNat % 8 = 0 →
        (∀ c < 128, (s.mem.readWord ((Desc.dst d).toNat + 8 * c)).toNat % 2 = 0) → RaisesNone d s))

/-- R167: `UnsupportedTickCount` is raised by `TRN.F` and `TRN.P` when `N mod 8 ≠ 0`, by nothing else, and records
nothing but the code (before the host's duties: log 5). -/
def Obligations.UnsupportedTickCountExactlyOffQuantum : Prop :=
  (∀ (n : Half) (src dst : Word) (x : Half) (s : State), n.toNat % 8 ≠ 0 →
    ∀ i ∈ [Instr.trnF n src dst x, Instr.trnP n src dst x],
      ∃ t, exec i s = .next t ∧ Completed .unsupportedTickCount s t ∧ t.mem = s.mem) ∧
  (∀ (i : Instr) (s t : State), exec i s = .next t → t.status = 1 →
    ∃ (n : Half) (src dst : Word) (x : Half),
      n.toNat % 8 ≠ 0 ∧ (i = .trnF n src dst x ∨ i = .trnP n src dst x))

/-- R149: `N = 0` completes with `OK`, reads no frame and writes nothing; the other checks are still made. Its rows are
then owed valid for `OFFSET` writes (R50, log 7); empty intervals ask nothing (log 6), and a code is given whatever other
duty is broken (log 5). -/
def Obligations.ZeroFramesCompleteAndWriteNothing : Prop :=
  ∀ (src dst : Word) (x : Half) (s : State),
    (src.toNat % 8 = 0 → dst.toNat % 2 = 0 →
      ∃ t, exec (.trnF 0 src dst x) s = .next t ∧ Completed .ok s t ∧ t.mem = s.mem) ∧
    (src.toNat % 8 ≠ 0 ∨ dst.toNat % 2 ≠ 0 →
      ∃ t, exec (.trnF 0 src dst x) s = .next t ∧ Completed .alignmentFault s t ∧ t.mem = s.mem) ∧
    (src.toNat % 8 = 0 → dst.toNat % 8 = 0 → Duties s [⟨dst.toNat, 1024⟩] [] →
      (∀ c < 128, (s.mem.readWord (dst.toNat + 8 * c)).toNat % 2 = 0) →
      Held s ((List.range 128).map fun c => ⟨(s.mem.readWord (dst.toNat + 8 * c)).toNat, 2 * x.toNat⟩) →
      ∃ t, exec (.trnP 0 src dst x) s = .next t ∧ Completed .ok s t ∧ t.mem = s.mem) ∧
    (src.toNat % 8 = 0 → dst.toNat % 8 = 0 → Duties s [⟨dst.toNat, 1024⟩] [] →
      (∃ c < 128, (s.mem.readWord (dst.toNat + 8 * c)).toNat % 2 ≠ 0) →
      ∃ t, exec (.trnP 0 src dst x) s = .next t ∧ Completed .alignmentFault s t ∧ t.mem = s.mem) ∧
    (src.toNat % 8 ≠ 0 ∨ dst.toNat % 8 ≠ 0 →
      ∃ t, exec (.trnP 0 src dst x) s = .next t ∧ Completed .alignmentFault s t ∧ t.mem = s.mem)

/-- The codes a command may end with (the table of R162). -/
def codesOf : Instr → List Code
  | .exp16 _ _ => [.ok, .illegalCommand, .alignmentFault]
  | .exp64 _ _ => [.ok, .illegalCommand, .alignmentFault]
  | .exp128 _ _ => [.ok, .illegalCommand, .alignmentFault]
  | .tr16x8 _ _ _ _ => [.ok, .illegalCommand, .alignmentFault, .operandFault]
  | .tr16x16 _ _ _ _ => [.ok, .illegalCommand, .alignmentFault, .operandFault]
  | .tr16x32 _ _ _ _ => [.ok, .illegalCommand, .alignmentFault, .operandFault]
  | .trnF _ _ _ _ => [.ok, .unsupportedTickCount, .illegalCommand, .alignmentFault, .operandFault]
  | .trnP _ _ _ _ => [.ok, .unsupportedTickCount, .illegalCommand, .alignmentFault]

/-- R162, its "no" entries, and R163: a command ends with one of its codes, which `CR.STATUS` then holds and the host
gets, and changes nothing else beside memory. -/
def Obligations.CommandsEndOnlyWithTheirCodes : Prop :=
  ∀ (i : Instr) (s t : State), exec i s = .next t → ∃ c ∈ codesOf i, Completed c s t

/-- R170: every command completes `OK` with the host's duties met, or completes with a fault code and no byte written,
or is refused because the host broke a duty: one towards `RD` and `WR` (R52, R53) or, for `TRN.P`, a row not valid for
`OFFSET + N` writes (R50, R200). The model's choices in it: log 5, 6, 7, 20. -/
def Obligations.ThreeOutcomesOfACommand : Prop :=
  ∀ (i : Instr) (s : State),
    (DutiesTo i s ∧ ∃ t, exec i s = .next t ∧ t.status = 0) ∨
    (∃ t, exec i s = .next t ∧ t.status ∈ [1#8, 2#8, 3#8, 4#8] ∧ t.mem = s.mem) ∨
    (¬ DutiesTo i s ∧ ∃ r, exec i s = .refused r)

/-! ### Frames (20_memory.md R46, R55; 60_exceptions.md R165) -/

/-- R55: a command changes no byte of memory outside `WR(cmd)`. In particular `TRN.F` leaves the padding samples of
every row, `TRN.P` the samples before `OFFSET` of every row (where no other row's interval meets them), and a command
that completes with a code other than `OK` changes no byte at all. -/
def Obligations.CommandsChangeNoByteOutsideTheirFootprint : Prop :=
  ∀ (i : Instr) (s t : State), s.mem.wf → exec i s = .next t →
    (∀ a, ¬ InRegions (writeFootprint s.mem i) a → t.mem.readByte a = s.mem.readByte a) ∧
    (t.status ≠ 0 → t.mem = s.mem) ∧
    (∀ n src dst stride, i = .trnF n src dst stride → ∀ c < 128, ∀ k, n.toNat ≤ k → k < stride.toNat →
      t.mem.readSample (dst.toNat + 2 * (c * stride.toNat + k)) =
        s.mem.readSample (dst.toNat + 2 * (c * stride.toNat + k))) ∧
    (∀ n src dst offset, i = .trnP n src dst offset → ∀ c < 128, ∀ k < offset.toNat,
      (∀ c' < 128, c' ≠ c →
        (s.mem.readWord (dst.toNat + 8 * c)).toNat + 2 * k + 2 ≤
          (s.mem.readWord (dst.toNat + 8 * c')).toNat + 2 * offset.toNat ∨
        (s.mem.readWord (dst.toNat + 8 * c')).toNat + 2 * offset.toNat + 2 * n.toNat ≤
          (s.mem.readWord (dst.toNat + 8 * c)).toNat + 2 * k) →
      t.mem.readSample ((s.mem.readWord (dst.toNat + 8 * c)).toNat + 2 * k) =
        s.mem.readSample ((s.mem.readWord (dst.toNat + 8 * c)).toNat + 2 * k))

/-- R54: the engine never writes its input. -/
def Obligations.InputIsNeverWritten : Prop :=
  ∀ (i : Instr) (s t : State), s.mem.wf → exec i s = .next t →
    ∀ a, InRegions (readFootprint i) a → t.mem.readByte a = s.mem.readByte a

/-- R79: every sample a command writes is in the range 0 to 0x0FFF. -/
def Obligations.WrittenSamplesHaveTopBitsClear : Prop :=
  ∀ (i : Instr) (s t : State), s.mem.wf → exec i s = .next t → t.status = 0 →
    ∀ r ∈ writeFootprint s.mem i, ∀ k, 2 * k < r.len →
      (t.mem.readSample (r.base + 2 * k)).extractLsb' 12 4 = 0

/-- The frames a command reads: their address and number. -/
def framesOf : Instr → Nat × Nat
  | .exp16 src _ => (src.toNat, 0)
  | .exp64 src _ => (src.toNat, 0)
  | .exp128 src _ => (src.toNat, 1)
  | .tr16x8 _ src _ _ => (src.toNat, 8)
  | .tr16x16 _ src _ _ => (src.toNat, 16)
  | .tr16x32 _ src _ _ => (src.toNat, 32)
  | .trnF n src _ _ => (src.toNat, n.toNat)
  | .trnP n src _ _ => (src.toNat, n.toNat)

/-- The address lies in word 0 to 3, 16 or 17 of one of the frames, and not in the pointer table of a `TRN.P`. -/
def HeaderByte (i : Instr) (a : Nat) : Prop :=
  (∃ t < (framesOf i).2, ((framesOf i).1 + 240 * t ≤ a ∧ a < (framesOf i).1 + 240 * t + 32) ∨
    ((framesOf i).1 + 240 * t + 128 ≤ a ∧ a < (framesOf i).1 + 240 * t + 144)) ∧
  ∀ n src dst offset, i = .trnP n src dst offset → a < dst.toNat ∨ dst.toNat + 1024 ≤ a

/-- R76: frame words 0 to 3, 16 and 17 have no effect on any result or completion code. In a memory that differs in
those words alone the command completes with the same code, and with `OK` it writes the same bytes. -/
def Obligations.FrameHeaderWordsHaveNoEffect : Prop :=
  ∀ (i : Instr) (s t : State) (m : Memory), s.mem.wf → m.wf →
    (∀ a, m.readByte a ≠ s.mem.readByte a → HeaderByte i a) → exec i s = .next t →
    ∃ t', exec i { s with mem := m } = .next t' ∧ t'.status = t.status ∧ t'.replies = t.replies ∧
      (t.status = 0 → ∀ a, InRegions (writeFootprint s.mem i) a → t'.mem.readByte a = t.mem.readByte a)

/-! ### One command as others (40_expand.md, 41_transpose_kernels.md, 42_transpose_full.md) -/

/-- R106: `EXP64` leaves the memory that four `EXP16` leave. -/
def Obligations.Exp64EqualsFourExp16 : Prop :=
  ∀ (src dst : Word) (s t : State), s.mem.wf → exec (.exp64 src dst) s = .next t → t.status = 0 →
    ∃ t0 t1 t2 t3, exec (.exp16 src dst) s = .next t0 ∧ exec (.exp16 (src + 24) (dst + 32)) t0 = .next t1 ∧
      exec (.exp16 (src + 48) (dst + 64)) t1 = .next t2 ∧ exec (.exp16 (src + 72) (dst + 96)) t2 = .next t3 ∧
      t3.status = 0 ∧ t3.mem = t.mem

/-- R108: `EXP128` leaves the memory that the `EXP64` of link A and the `EXP64` of link B leave. -/
def Obligations.Exp128EqualsTwoExp64 : Prop :=
  ∀ (src dst : Word) (s t : State), s.mem.wf → exec (.exp128 src dst) s = .next t → t.status = 0 →
    ∃ t0 t1, exec (.exp64 (src + 32) dst) s = .next t0 ∧ exec (.exp64 (src + 144) (dst + 128)) t0 = .next t1 ∧
      t1.status = 0 ∧ t1.mem = t.mem

/-- R126: a kernel leaves the memory that two kernels of half the frames leave, the second on the later frames and
columns. -/
def Obligations.KernelsSplitInTime : Prop :=
  ∀ (grp : BitVec 8) (src dst : Word) (stride : Half) (s t : State), s.mem.wf →
    (exec (.tr16x16 grp src dst stride) s = .next t → t.status = 0 →
      ∃ t0 t1, exec (.tr16x8 grp src dst stride) s = .next t0 ∧
        exec (.tr16x8 grp (src + 240 * 8) (dst + 2 * 8) stride) t0 = .next t1 ∧ t1.status = 0 ∧ t1.mem = t.mem) ∧
    (exec (.tr16x32 grp src dst stride) s = .next t → t.status = 0 →
      ∃ t0 t1, exec (.tr16x16 grp src dst stride) s = .next t0 ∧
        exec (.tr16x16 grp (src + 240 * 16) (dst + 2 * 16) stride) t0 = .next t1 ∧ t1.status = 0 ∧ t1.mem = t.mem)

/-- R127 for one kernel of `n` frames: column `t` of its output is the expansion of the group's three words of frame `t`. -/
def ColumnsAreExpansions (n : Nat) (kernel : BitVec 8 → Word → Word → Half → Instr) : Prop :=
  ∀ (grp : BitVec 8) (src dst : Word) (stride : Half) (s u : State), s.mem.wf →
    exec (kernel grp src dst stride) s = .next u → u.status = 0 →
    ∀ i < 16, ∀ t < n, u.mem.readSample (dst.toNat + 2 * (i * stride.toNat + t)) =
      ((unpack16 (s.mem.readWord (src.toNat + 240 * t + 8 * groupWord grp.toNat))
        (s.mem.readWord (src.toNat + 240 * t + 8 * groupWord grp.toNat + 8))
        (s.mem.readWord (src.toNat + 240 * t + 8 * groupWord grp.toNat + 16))).getD i 0).setWidth 16

/-- R127: a kernel is as many expansions as it has frames, their results stored transposed. -/
def Obligations.KernelColumnsAreExpansions : Prop :=
  ColumnsAreExpansions 8 .tr16x8 ∧ ColumnsAreExpansions 16 .tr16x16 ∧ ColumnsAreExpansions 32 .tr16x32

/-- R145: `TRN.F` leaves the memory that the source's stride loop of kernels leaves; the loop makes `N div 32` strides
of 32 and `(N mod 32) div 8` of 8, which cover all of `N`. -/
def Obligations.TrnFEqualsItsStrideLoop : Prop :=
  ∀ (n : Half) (src dst : Word) (stride : Half) (s t : State), s.mem.wf →
    exec (.trnF n src dst stride) s = .next t → t.status = 0 →
    t.mem = strideLoop n.toNat src.toNat dst.toNat stride.toNat s.mem ∧
    strides n.toNat 0 n.toNat =
      (List.range (n.toNat / 32)).map (fun k => (32 * k, 32)) ++
      (List.range (n.toNat % 32 / 8)).map (fun k => (32 * (n.toNat / 32) + 8 * k, 8))

/-- R147, first law: `TRN.F` leaves the memory that two of them leave, the second on the later frames and columns. -/
def Obligations.TrnFSplitsInTime : Prop :=
  ∀ (n n1 n2 : Half) (src dst : Word) (stride : Half) (s t : State), s.mem.wf →
    n.toNat = n1.toNat + n2.toNat → n1.toNat % 8 = 0 → n2.toNat % 8 = 0 →
    exec (.trnF n src dst stride) s = .next t → t.status = 0 →
    ∃ t0 t1, exec (.trnF n1 src dst stride) s = .next t0 ∧
      exec (.trnF n2 (src + BitVec.ofNat 64 (240 * n1.toNat)) (dst + BitVec.ofNat 64 (2 * n1.toNat)) stride) t0 =
        .next t1 ∧ t1.status = 0 ∧ t1.mem = t.mem

/-- R147, second law: a second `TRN.P` with `OFFSET` raised by the first one's `N` appends. -/
def Obligations.TrnPAppends : Prop :=
  ∀ (n n1 n2 : Half) (src dst : Word) (offset : Half) (s t : State), s.mem.wf →
    n.toNat = n1.toNat + n2.toNat → n1.toNat % 8 = 0 → n2.toNat % 8 = 0 → offset.toNat + n1.toNat < 2 ^ 32 →
    exec (.trnP n src dst offset) s = .next t → t.status = 0 →
    ∃ t0 t1, exec (.trnP n1 src dst offset) s = .next t0 ∧
      exec (.trnP n2 (src + BitVec.ofNat 64 (240 * n1.toNat)) dst (offset + n1)) t0 = .next t1 ∧
      t1.status = 0 ∧ t1.mem = t.mem

/-- R148: with evenly spaced row pointers and `OFFSET = 0`, `TRN.P` writes what `TRN.F` writes. -/
def Obligations.TrnPOnEvenRowsEqualsTrnF : Prop :=
  ∀ (n : Half) (src dst base : Word) (stride : Half) (s t u : State), s.mem.wf →
    (∀ c < 128, (s.mem.readWord (dst.toNat + 8 * c)).toNat = base.toNat + 2 * c * stride.toNat) →
    exec (.trnF n src base stride) s = .next t → t.status = 0 →
    exec (.trnP n src dst 0) s = .next u → u.status = 0 → u.mem = t.mem

/-- R151: from the 128 rows of a transpose every packed ADC word of every frame is recovered. -/
def Obligations.TransposeLosesNoAdcWord : Prop :=
  ∀ (n : Half) (src dst : Word) (stride : Half) (s u : State), s.mem.wf →
    exec (.trnF n src dst stride) s = .next u → u.status = 0 → ∀ t < n.toNat, ∀ link < 2,
      pack ((List.range 64).map fun k =>
        (u.mem.readSample (dst.toNat + 2 * ((64 * link + k) * stride.toNat + t))).setWidth 12) =
      (List.range 12).map fun j => s.mem.readWord (src.toNat + 240 * t + 8 * (4 + 14 * link + j))

/-! ### Whole-machine rules -/

/-- R25: no result and no code depends on `CR.KSEL`. -/
def Obligations.NoResultDependsOnKsel : Prop :=
  ∀ (d : Command) (during : List HostAct) (s : State) (k : BitVec 1),
    (∀ t, submit d during s = .next t → submit d during { s with ksel := k } = .next { t with ksel := k }) ∧
    (∀ r, submit d during s = .refused r → submit d during { s with ksel := k } = .refused r)

/-- R61: a command is a function of its fields and of `RD(cmd)`. On any memory that agrees with the first on `RD(cmd)` it
returns the same code and writes the same bytes again; so does repeating it at once, which leaves memory as it was. -/
def Obligations.CommandsAreIdempotent : Prop :=
  ∀ (i : Instr) (s t : State), s.mem.wf → exec i s = .next t →
    (∀ m : Memory, m.wf → (∀ a, InRegions (readFootprint i) a → m.readByte a = s.mem.readByte a) →
      ∃ u, exec i { s with mem := m } = .next u ∧ u.status = t.status ∧
        (t.status = 0 → ∀ a, InRegions (writeFootprint s.mem i) a → u.mem.readByte a = t.mem.readByte a) ∧
        (∀ a, t.status ≠ 0 ∨ ¬ InRegions (writeFootprint s.mem i) a → u.mem.readByte a = m.readByte a)) ∧
    ∃ u, exec i t = .next u ∧ u.status = t.status ∧ u.mem = t.mem

/-- R173: a fault does not stick. After it any command does what it would have done before it. -/
def Obligations.FaultsDoNotStick : Prop :=
  ∀ (i j : Instr) (s t u : State), exec i s = .next t → t.status ≠ 0 → exec j s = .next u →
    ∃ v, exec j t = .next v ∧ v.status = u.status ∧ v.mem = u.mem

/-- R58, R21: a program of two commands is run one after the other, the second on the state the first left. -/
def Obligations.CommandsRunInTheOrderSubmitted : Prop :=
  ∀ (d e : Command) (i j : Instr) (s t u : State), s.inbox = [.submit d [], .submit e []] →
    decode d = .ok i → decode e = .ok j →
    exec i { s with inbox := [.submit e []] } = .next t → exec j { t with inbox := [] } = .next u →
    Host.Core.run Sys2Proof.core 2 s = .next u

/-- A step runs the command submitted (R21, R163), an illegal pattern completes with code 2, and `withFetchWord` submits
a command. -/
def Obligations.StepRunsTheSubmittedCommand : Prop :=
  (∀ (s : State) (d : Command) (i : Instr) (rest : List HostEvent), s.inbox = .submit d [] :: rest →
    decode d = .ok i → step s = exec i { s with inbox := rest }) ∧
  (∀ (s : State) (d : Command) (why : Illegal) (rest : List HostEvent), s.inbox = .submit d [] :: rest →
    decode d = .error why → step s = .next (complete .illegalCommand { s with inbox := rest })) ∧
  (∀ (s : State) (w : Nat) (i : Instr), w < 2 ^ 256 → decodeTableWord 256 w = some i →
    step (s.withFetchWord 256 w) = exec i s)

/-- With no host action to come the block stays as it is (the model's choice, log 2). -/
def Obligations.IdleBlockStaysAsItIs : Prop := ∀ s : State, s.inbox = [] → step s = .next s

/-- R22: `CR.STATUS` is written by the completion of a command, whose code is returned to the host, or by a reset, and
by nothing else; it holds one of the five codes. -/
def Obligations.StatusChangesOnlyByCompletionOrReset : Prop :=
  ∀ s t : State, step s = .next t →
    (t.status = s.status ∧ ∀ d during rest, s.inbox ≠ .submit d during :: rest) ∨
    (t.status = 0 ∧ ∃ e rest, s.inbox = e :: rest ∧ (e = .reset ∨ ∃ d during, e = .submitCut d during)) ∨
    (t.status.toNat ≤ 4 ∧ t.replies.head? = some (.completion t.status) ∧
      ∃ d during rest, s.inbox = .submit d during :: rest)

/-- R23, R24: `CR.KSEL` is written by a reset, with `HAS_SIMD256`, and by nothing else. -/
def Obligations.KselChangesOnlyByReset : Prop :=
  ∀ s t : State, step s = .next t →
    t.ksel = s.ksel ∨
    (t.ksel = BitVec.ofBool Config.hasSimd256 ∧
      ∃ e rest, s.inbox = e :: rest ∧ (e = .reset ∨ ∃ d during, e = .submitCut d during))

/-- R200: the host reads a register's value, and a write to either register has no effect, outside a command and during
one. -/
def Obligations.RegistersReadAndIgnoreWrites : Prop :=
  ∀ (s : State) (rest : List HostEvent),
    (s.inbox = .readRegister .status :: rest →
      step s = .next { s with inbox := rest, replies := .status s.status :: s.replies }) ∧
    (s.inbox = .readRegister .ksel :: rest →
      step s = .next { s with inbox := rest, replies := .ksel s.ksel :: s.replies }) ∧
    (∀ r v, s.inbox = .writeRegister r v :: rest → step s = .next { s with inbox := rest }) ∧
    (∀ d r v during, submit d (.writeRegister r v :: during) s = submit d during s)

/-- R191: a reset sets the two registers and touches nothing else. -/
def Obligations.ResetSetsTheTwoRegistersOnly : Prop :=
  ∀ (s : State) (rest : List HostEvent), s.inbox = .reset :: rest →
    step s = .next { s with inbox := rest, status := 0, ksel := BitVec.ofBool Config.hasSimd256 }

/-- R31, R192: the state after reset (its other fields are the model's choices, log 1, 3, 4, 10, 12). -/
def Obligations.ResetStateIsAsTheSpecSays : Prop :=
  State.reset.status = 0 ∧ State.reset.ksel = BitVec.ofBool Config.hasSimd256 ∧ State.reset.inbox = [] ∧
  State.reset.Inv

/-- R193: a reset abandons the running command, legal or not, whatever the host does meanwhile (`s'` is the state its
acts leave, taken before the command, log 11). No code is returned, each byte of `WR(cmd)` is old or as the command would
have written it, every other byte is unchanged, and the block is reset. That what is the host's stays is the model's
choice (log 21). -/
def Obligations.ResetDuringACommandLeavesOldOrNew : Prop :=
  ∀ (d : Command) (during : List HostAct) (s s' u : State) (rest : List HostEvent), s.mem.wf →
    s.inbox = .submitCut d during :: rest → s' = during.foldl HostAct.apply { s with inbox := rest } →
    submit d during { s with inbox := rest } = .next u →
    ∃ t, step s = .next t ∧ t.status = 0 ∧ t.ksel = BitVec.ofBool Config.hasSimd256 ∧ t.replies = s'.replies ∧
      t.inbox = rest ∧ t.readable = s'.readable ∧ t.writable = s'.writable ∧
      (∀ a, t.mem.readByte a = s'.mem.readByte a ∨ t.mem.readByte a = u.mem.readByte a) ∧
      (∀ a, ¬ InRegions (bitsWritten s.mem d) a → t.mem.readByte a = s'.mem.readByte a)

/-- The host act breaks R56 towards a command with footprints `rd` and `wr`: it writes `rd`, or reads or writes `wr`,
or frees part of either. -/
def BreaksR56 (rd wr : List Region) (act : HostAct) : Prop :=
  (∃ a v, act = .store a v ∧ (InRegions rd a.toNat ∨ InRegions wr a.toNat)) ∨
  (∃ a, act = .load a ∧ InRegions wr a.toNat) ∨
  (∃ r a, act = .free r ∧ InRegions [r] a ∧ (InRegions rd a ∨ InRegions wr a))

/-- R56: a run in which the host touches a command's footprint while it runs is refused, whatever else it does. -/
def Obligations.TouchingTheFootprintIsRefused : Prop :=
  ∀ (d : Command) (i : Instr) (during : List HostAct) (act : HostAct) (s : State) (rest : List HostEvent),
    decode d = .ok i → act ∈ during → BreaksR56 (readFootprint i) (writeFootprint s.mem i) act →
    (s.inbox = .submit d during :: rest ∨ s.inbox = .submitCut d during :: rest) → ∃ r, step s = .refused r

/-- R200, R64: while a command runs the host may store outside both footprints, and read outside `WR`; the command is
not disturbed. A store then leaves what it leaves after the command. -/
def Obligations.StoresOutsideTheFootprintsCommute : Prop :=
  ∀ (d : Command) (i : Instr) (s t : State) (a : Word) (v : Byte), s.mem.wf → decode d = .ok i →
    ¬ InRegions (readFootprint i) a.toNat → ¬ InRegions (writeFootprint s.mem i) a.toNat →
    submit d [] s = .next t →
    submit d [.store a v] s = .next { t with mem := t.mem.writeByte a.toNat v }

/-- The invariant of the machine (R22, R24, R40) holds after every step from every state that has it. -/
def Obligations.EveryStepKeepsTheInvariant : Prop := ∀ s t : State, s.Inv → step s = .next t → t.Inv

/-- R50, R200: a `TRN.P` that passes its checks is refused when the host does not hold every byte of a row from its
pointer on, the samples before `OFFSET` among them, valid for writing. That this holds for `N = 0` too, where R149 gives `OK`, is the
model's choice (log 7). -/
def Obligations.TrnPWithARowNotHeldIsRefused : Prop :=
  ∀ (n : Half) (src dst : Word) (offset : Half) (s : State), n.toNat % 8 = 0 → src.toNat % 8 = 0 → dst.toNat % 8 = 0 →
    (∀ c < 128, (s.mem.readWord (dst.toNat + 8 * c)).toNat % 2 = 0) →
    (∃ c < 128, ∃ a, (s.mem.readWord (dst.toNat + 8 * c)).toNat ≤ a ∧
      a < (s.mem.readWord (dst.toNat + 8 * c)).toNat + 2 * (offset.toNat + n.toNat) ∧ ¬ InRegions s.writable a) →
    ∃ r, exec (.trnP n src dst offset) s = .refused r
end

