-- ==== Sys2Proof/Laws/State.lean ====
section
/-! SUPPORT. One lemma per field per named update of the state: no later proof unfolds a record update. -/

namespace Sys2Proof.Machine

section Complete
variable (c : Code) (s : State)
@[simp] theorem complete_mem : (complete c s).mem = s.mem := rfl
@[simp] theorem complete_status : (complete c s).status = c.bits := rfl
@[simp] theorem complete_ksel : (complete c s).ksel = s.ksel := rfl
@[simp] theorem complete_inbox : (complete c s).inbox = s.inbox := rfl
@[simp] theorem complete_replies : (complete c s).replies = .completion c.bits :: s.replies := rfl
@[simp] theorem complete_readable : (complete c s).readable = s.readable := rfl
@[simp] theorem complete_writable : (complete c s).writable = s.writable := rfl
@[simp] theorem complete_draws : (complete c s).draws = s.draws := rfl
@[simp] theorem raise_mem : (raise c s).mem = s.mem := rfl
@[simp] theorem raise_status : (raise c s).status = c.bits := rfl
@[simp] theorem raise_ksel : (raise c s).ksel = s.ksel := rfl
@[simp] theorem raise_inbox : (raise c s).inbox = s.inbox := rfl
@[simp] theorem raise_replies : (raise c s).replies = .completion c.bits :: s.replies := rfl
@[simp] theorem raise_readable : (raise c s).readable = s.readable := rfl
@[simp] theorem raise_writable : (raise c s).writable = s.writable := rfl
@[simp] theorem raise_draws : (raise c s).draws = s.draws := rfl
end Complete

section Reset
variable (s t : State)
@[simp] theorem resetBlock_mem : (resetBlock s).mem = s.mem := rfl
@[simp] theorem resetBlock_status : (resetBlock s).status = 0 := rfl
@[simp] theorem resetBlock_ksel : (resetBlock s).ksel = kselAtReset := rfl
@[simp] theorem resetBlock_inbox : (resetBlock s).inbox = s.inbox := rfl
@[simp] theorem resetBlock_replies : (resetBlock s).replies = s.replies := rfl
@[simp] theorem resetBlock_readable : (resetBlock s).readable = s.readable := rfl
@[simp] theorem resetBlock_writable : (resetBlock s).writable = s.writable := rfl
@[simp] theorem resetBlock_draws : (resetBlock s).draws = s.draws := rfl
@[simp] theorem cutShort_mem :
    (cutShort s t).mem = Memory.blend (Config.cutWritten s.draws) s.mem t.mem := rfl
@[simp] theorem cutShort_status : (cutShort s t).status = 0 := rfl
@[simp] theorem cutShort_ksel : (cutShort s t).ksel = kselAtReset := rfl
@[simp] theorem cutShort_inbox : (cutShort s t).inbox = s.inbox := rfl
@[simp] theorem cutShort_replies : (cutShort s t).replies = s.replies := rfl
@[simp] theorem cutShort_readable : (cutShort s t).readable = s.readable := rfl
@[simp] theorem cutShort_writable : (cutShort s t).writable = s.writable := rfl
@[simp] theorem cutShort_draws : (cutShort s t).draws = s.draws + 1 := rfl
end Reset

section Fetch
variable (s : State) (nbits w : Nat)
@[simp] theorem withFetchWord_mem : (s.withFetchWord nbits w).mem = s.mem := rfl
@[simp] theorem withFetchWord_status : (s.withFetchWord nbits w).status = s.status := rfl
@[simp] theorem withFetchWord_ksel : (s.withFetchWord nbits w).ksel = s.ksel := rfl
@[simp] theorem withFetchWord_inbox :
    (s.withFetchWord nbits w).inbox = .submit (tableCommand nbits w) [] :: s.inbox := rfl
@[simp] theorem withFetchWord_replies : (s.withFetchWord nbits w).replies = s.replies := rfl
@[simp] theorem withFetchWord_readable : (s.withFetchWord nbits w).readable = s.readable := rfl
@[simp] theorem withFetchWord_writable : (s.withFetchWord nbits w).writable = s.writable := rfl
@[simp] theorem withFetchWord_draws : (s.withFetchWord nbits w).draws = s.draws := rfl
end Fetch

/-- Every completion code is one of 0 to 4 (60_exceptions.md R160). -/
theorem code_bits_le_four (c : Code) : c.bits.toNat ≤ 4 := by cases c <;> decide

end Sys2Proof.Machine
end

