-- ==== Sys2Proof/Laws/Memory.lean ====
section
/-! SUPPORT. Memory: a read after a write, the canonical form, equality by reads, little-endian accesses, and what a
command's list of samples leaves in memory. -/

namespace Sys2Proof.Machine.Memory

/-- Every listed address is above `b`. -/
abbrev Above (b : Nat) (m : Memory) : Prop := ∀ c ∈ m, b < c.1

theorem wf_nil : Memory.wf [] := by simp [Memory.wf]

theorem wf_cons {k : Nat} {v : Byte} {m : Memory} :
    Memory.wf ((k, v) :: m) ↔ Above k m ∧ v ≠ unlisted ∧ m.wf := by
  simp only [Memory.wf, List.pairwise_cons, List.mem_cons, forall_eq_or_imp, Above]
  tauto

theorem mem_writeByte {m : Memory} {a : Nat} {v : Byte} {c : Host.Cell} (h : c ∈ writeByte m a v) :
    c ∈ m ∨ c = (a, v) := by
  induction m with
  | nil => simp only [writeByte] at h; split at h <;> simp_all
  | cons p m ih =>
    obtain ⟨k, w⟩ := p
    simp only [writeByte] at h
    split at h
    · rcases List.mem_cons.1 h with rfl | h
      · simp
      · rcases ih h with h | h <;> simp [h]
    · split at h <;> split at h <;> simp_all <;> tauto

theorem wf_writeByte {m : Memory} (h : m.wf) (a : Nat) (v : Byte) : (writeByte m a v).wf := by
  induction m with
  | nil => simp only [writeByte]; split <;> simp_all [Memory.wf]
  | cons p m ih =>
    obtain ⟨k, w⟩ := p
    obtain ⟨ha, hw, hm⟩ := wf_cons.1 h
    simp only [writeByte]
    split
    · refine wf_cons.2 ⟨fun c hc => ?_, hw, ih hm⟩
      rcases mem_writeByte hc with hc | rfl
      · exact ha c hc
      · assumption
    · split
      · subst_vars
        split
        · exact hm
        · exact wf_cons.2 ⟨ha, by assumption, hm⟩
      · split
        · exact h
        · refine wf_cons.2 ⟨fun c hc => ?_, by assumption, h⟩
          rcases List.mem_cons.1 hc with rfl | hc
          · simp; omega
          · have := ha c hc; omega

theorem inSpace_writeByte {m : Memory} (h : m.inSpace) {a : Nat} (ha : a < 2 ^ 64) (v : Byte) :
    (writeByte m a v).inSpace := fun c hc => by
  rcases mem_writeByte hc with hc | rfl
  · exact h c hc
  · exact ha

theorem readByte_above {m : Memory} {b : Nat} (h : Above b m) {a : Nat} (ha : a ≤ b) :
    readByte m a = unlisted := by
  cases m with
  | nil => rfl
  | cons p m =>
    have := h p (by simp)
    simp only [readByte]
    rw [if_pos (by omega)]

/-- A read after a write: the byte written at its address, every other byte as before. -/
theorem readByte_writeByte {m : Memory} (h : m.wf) (a : Nat) (v : Byte) (b : Nat) :
    readByte (writeByte m a v) b = if b = a then v else readByte m b := by
  induction m with
  | nil => simp only [writeByte]; split <;> simp only [readByte] <;> grind
  | cons p m ih =>
    obtain ⟨k, w⟩ := p
    obtain ⟨ha, hw, hm⟩ := wf_cons.1 h
    have hr : ∀ x ≤ k, readByte m x = unlisted := fun x hx => readByte_above ha hx
    simp only [writeByte]
    split
    · simp only [readByte, ih hm]; grind
    · split
      · split <;> simp only [readByte] <;> grind
      · split <;> simp only [readByte] <;> grind

@[simp] theorem readByte_writeByte_same {m : Memory} (h : m.wf) (a : Nat) (v : Byte) :
    readByte (writeByte m a v) a = v := by simp [readByte_writeByte h]

theorem readByte_writeByte_ne {m : Memory} (h : m.wf) {a b : Nat} (v : Byte) (hb : b ≠ a) :
    readByte (writeByte m a v) b = readByte m b := by simp [readByte_writeByte h, hb]

/-- Two memories in canonical form that read the same everywhere are equal. -/
theorem ext {m m' : Memory} (h : m.wf) (h' : m'.wf) (he : ∀ a, readByte m a = readByte m' a) : m = m' := by
  induction m generalizing m' with
  | nil =>
    cases m' with
    | nil => rfl
    | cons p m' =>
      obtain ⟨k, w⟩ := p
      have := he k
      simp [readByte] at this
      exact absurd this.symm (wf_cons.1 h').2.1
  | cons p m ih =>
    obtain ⟨k, w⟩ := p
    obtain ⟨ha, hw, hm⟩ := wf_cons.1 h
    cases m' with
    | nil =>
      have := he k
      simp [readByte] at this
      exact absurd this hw
    | cons p' m' =>
      obtain ⟨k', w'⟩ := p'
      obtain ⟨ha', hw', hm'⟩ := wf_cons.1 h'
      have e1 := he k
      have e2 := he k'
      simp only [readByte] at e1 e2
      have hk : k = k' := by grind
      subst hk
      have hww : w = w' := by simpa using e1
      subst hww
      congr 1
      refine ih hm hm' fun a => ?_
      rcases Nat.lt_or_ge k a with hlt | hge
      · have := he a
        simpa only [readByte, if_neg (show ¬ a < k by omega), if_neg (show ¬ a = k by omega)] using this
      · rw [readByte_above ha hge, readByte_above ha' hge]

/-! ### Little-endian accesses -/

theorem memRead_congr {m m' : Memory} {a n : Nat}
    (h : ∀ b, a ≤ b → b < a + n → readByte m b = readByte m' b) : memRead m a n = memRead m' a n := by
  induction n generalizing a with
  | zero => rfl
  | succ n ih =>
    simp only [memRead]
    rw [h a (by omega) (by omega), ih fun b hb hb' => h b (by omega) (by omega)]

theorem readWord_congr {m m' : Memory} {a : Nat}
    (h : ∀ b, a ≤ b → b < a + 8 → readByte m b = readByte m' b) : readWord m a = readWord m' a := by
  rw [readWord, readWord, memRead_congr h]

theorem readSample_congr {m m' : Memory} {a : Nat}
    (h : ∀ b, a ≤ b → b < a + 2 → readByte m b = readByte m' b) : readSample m a = readSample m' a := by
  rw [readSample, readSample, memRead_congr h]

/-- The two bytes of a sample, low byte first (20_memory.md R41). -/
def sampleByte (v : Sample) (k : Nat) : Byte := BitVec.ofNat 8 (v.toNat / 256 ^ k)

theorem wf_writeSample {m : Memory} (h : m.wf) (a : Nat) (v : Sample) : (writeSample m a v).wf := by
  simp only [writeSample, memWrite]
  exact wf_writeByte (wf_writeByte h _ _) _ _

theorem inSpace_writeSample {m : Memory} (h : m.inSpace) {a : Nat} (ha : a + 2 ≤ 2 ^ 64) (v : Sample) :
    (writeSample m a v).inSpace := by
  simp only [writeSample, memWrite]
  exact inSpace_writeByte (inSpace_writeByte h (by omega) _) (by omega) _

/-- What storing a sample leaves at every address. -/
theorem readByte_writeSample {m : Memory} (h : m.wf) (a : Nat) (v : Sample) (b : Nat) :
    readByte (writeSample m a v) b =
      if b = a then sampleByte v 0 else if b = a + 1 then sampleByte v 1 else readByte m b := by
  simp only [writeSample, memWrite, sampleByte]
  rw [readByte_writeByte (wf_writeByte h _ _), readByte_writeByte h]
  grind

/-- A sample is its two bytes. -/
theorem readSample_of_bytes {m : Memory} {a : Nat} {v : Sample}
    (h0 : readByte m a = sampleByte v 0) (h1 : readByte m (a + 1) = sampleByte v 1) : readSample m a = v := by
  simp only [readSample, memRead, h0, h1, sampleByte]
  apply BitVec.eq_of_toNat_eq
  have := v.isLt
  simp
  omega

@[simp] theorem readSample_writeSample {m : Memory} (h : m.wf) (a : Nat) (v : Sample) :
    readSample (writeSample m a v) a = v := by
  apply readSample_of_bytes <;> simp [readByte_writeSample h]

/-! ### A command's samples -/

/-- No two different samples of the list share an address: each byte is written with one value (20_memory.md R46). -/
abbrev Compatible (l : List (Nat × Sample)) : Prop :=
  ∀ e ∈ l, ∀ e' ∈ l, e = e' ∨ e.1 + 2 ≤ e'.1 ∨ e'.1 + 2 ≤ e.1

theorem wf_writeSamples {m : Memory} (h : m.wf) (l : List (Nat × Sample)) : (writeSamples m l).wf := by
  induction l generalizing m with
  | nil => exact h
  | cons e l ih => exact ih (wf_writeSample h _ _)

theorem inSpace_writeSamples {m : Memory} (h : m.inSpace) {l : List (Nat × Sample)}
    (hl : ∀ e ∈ l, e.1 + 2 ≤ 2 ^ 64) : (writeSamples m l).inSpace := by
  induction l generalizing m with
  | nil => exact h
  | cons e l ih =>
    exact ih (inSpace_writeSample h (hl e (by simp)) _) fun e he => hl e (by simp [he])

/-- A byte outside every sample is as before. -/
theorem readByte_writeSamples_outside {m : Memory} (h : m.wf) {l : List (Nat × Sample)} {b : Nat}
    (hb : ∀ e ∈ l, b < e.1 ∨ e.1 + 2 ≤ b) : readByte (writeSamples m l) b = readByte m b := by
  induction l generalizing m with
  | nil => rfl
  | cons e l ih =>
    have he := hb e (by simp)
    show readByte (writeSamples (writeSample m e.1 e.2) l) b = _
    rw [ih (wf_writeSample h _ _) fun e he => hb e (by simp [he]), readByte_writeSample h,
      if_neg (by omega), if_neg (by omega)]

/-- A byte of a sample of the list. -/
theorem readByte_writeSamples_inside {m : Memory} (h : m.wf) {l : List (Nat × Sample)} (hl : Compatible l)
    {e : Nat × Sample} (he : e ∈ l) {k : Nat} (hk : k < 2) :
    readByte (writeSamples m l) (e.1 + k) = sampleByte e.2 k := by
  induction l generalizing m with
  | nil => simp at he
  | cons x l ih =>
    show readByte (writeSamples (writeSample m x.1 x.2) l) (e.1 + k) = _
    have hl' : Compatible l := fun y hy z hz => hl y (by simp [hy]) z (by simp [hz])
    by_cases hel : e ∈ l
    · exact ih (wf_writeSample h _ _) hl' hel
    · have hex : e = x := by simpa [hel] using he
      subst hex
      rw [readByte_writeSamples_outside (wf_writeSample h _ _), readByte_writeSample h]
      · have : k = 0 ∨ k = 1 := by omega
        rcases this with rfl | rfl <;> simp
      · intro y hy
        rcases hl y (by simp [hy]) e (by simp) with rfl | hd | hd
        · exact absurd hy hel
        · omega
        · omega

/-- A sample of the list is read back. -/
theorem readSample_writeSamples {m : Memory} (h : m.wf) {l : List (Nat × Sample)} (hl : Compatible l)
    {e : Nat × Sample} (he : e ∈ l) : readSample (writeSamples m l) e.1 = e.2 :=
  readSample_of_bytes (by simpa using readByte_writeSamples_inside h hl he (k := 0) (by omega))
    (readByte_writeSamples_inside h hl he (by omega))

/-- The memory depends on which samples are in the list, not on their order or number (20_memory.md R59). -/
theorem writeSamples_congr {m : Memory} (h : m.wf) {l l' : List (Nat × Sample)} (hl : Compatible l)
    (he : ∀ e, e ∈ l ↔ e ∈ l') : writeSamples m l = writeSamples m l' := by
  have hl' : Compatible l' := fun y hy z hz => hl y ((he y).2 hy) z ((he z).2 hz)
  refine ext (wf_writeSamples h _) (wf_writeSamples h _) fun a => ?_
  by_cases hin : ∃ e ∈ l, ∃ k < 2, a = e.1 + k
  · obtain ⟨e, hel, k, hk, rfl⟩ := hin
    rw [readByte_writeSamples_inside h hl hel hk, readByte_writeSamples_inside h hl' ((he e).1 hel) hk]
  · have hout : ∀ e ∈ l, a < e.1 ∨ e.1 + 2 ≤ a := fun e hel => by
      by_contra hc
      exact hin ⟨e, hel, a - e.1, by omega, by omega⟩
    rw [readByte_writeSamples_outside h hout,
      readByte_writeSamples_outside h fun e hel => hout e ((he e).2 hel)]

theorem writeSamples_append (m : Memory) (l l' : List (Nat × Sample)) :
    writeSamples m (l ++ l') = writeSamples (writeSamples m l) l' := List.foldl_append

/-! ### Blending two memories -/

theorem wf_blend_fold {pick : Nat → Bool} {old new m : Memory} (h : m.wf) (l : List Nat) :
    (l.foldl (fun m a => writeByte m a (if pick a then readByte new a else readByte old a)) m).wf := by
  induction l generalizing m with
  | nil => exact h
  | cons a l ih => exact ih (wf_writeByte h _ _)

theorem inSpace_blend_fold {pick : Nat → Bool} {old new m : Memory} (h : m.inSpace) {l : List Nat}
    (hl : ∀ a ∈ l, a < 2 ^ 64) :
    (l.foldl (fun m a => writeByte m a (if pick a then readByte new a else readByte old a)) m).inSpace := by
  induction l generalizing m with
  | nil => exact h
  | cons a l ih => exact ih (inSpace_writeByte h (hl a (by simp)) _) fun a ha => hl a (by simp [ha])

theorem readByte_blend_fold {pick : Nat → Bool} {old new m : Memory} (h : m.wf) (l : List Nat) (b : Nat) :
    readByte (l.foldl (fun m a => writeByte m a (if pick a then readByte new a else readByte old a)) m) b =
      if b ∈ l then (if pick b then readByte new b else readByte old b) else readByte m b := by
  induction l generalizing m with
  | nil => simp
  | cons a l ih =>
    simp only [List.foldl_cons]
    rw [ih (wf_writeByte h _ _), readByte_writeByte h]
    by_cases hb : b = a <;> by_cases hl : b ∈ l <;> simp [hb, hl]

theorem wf_blend {pick : Nat → Bool} {old : Memory} (h : old.wf) (new : Memory) : (blend pick old new).wf :=
  wf_blend_fold h _

theorem inSpace_blend {pick : Nat → Bool} {old new : Memory} (h : old.inSpace) (h' : new.inSpace) :
    (blend pick old new).inSpace := by
  refine inSpace_blend_fold h fun a ha => ?_
  simp only [List.map_append, List.mem_append, List.mem_map] at ha
  obtain ⟨c, hc, rfl⟩ | ⟨c, hc, rfl⟩ := ha
  · exact h c hc
  · exact h' c hc

theorem readByte_of_not_listed {m : Memory} {a : Nat} (h : a ∉ m.map (·.1)) : readByte m a = unlisted := by
  induction m with
  | nil => rfl
  | cons p m ih =>
    simp only [List.map_cons, List.mem_cons, not_or] at h
    simp only [readByte]
    rw [ih h.2, if_neg h.1]
    simp

/-- Each byte of a blend is the new one or the old one, as `pick` says (70_reset_and_hazards.md R193). -/
theorem readByte_blend {pick : Nat → Bool} {old : Memory} (h : old.wf) (new : Memory) (a : Nat) :
    readByte (blend pick old new) a = if pick a then readByte new a else readByte old a := by
  rw [blend, readByte_blend_fold h]
  split
  · rfl
  · rename_i hn
    simp only [List.map_append, List.mem_append, not_or] at hn
    rw [readByte_of_not_listed hn.1, readByte_of_not_listed hn.2]
    simp

end Sys2Proof.Machine.Memory
end

