-- ==== Sys2Proof/Laws/Regions.lean ====
section
/-! SUPPORT. Regions: what the checks of footprints say about addresses; the refusal of a command is exactly a breach of
the host's duties. -/

namespace Sys2Proof.Machine

theorem inRegions_cons {r : Region} {rs : List Region} {a : Nat} :
    InRegions (r :: rs) a ↔ InRegions [r] a ∨ InRegions rs a := by
  simp [InRegions]

theorem inRegions_singleton {r : Region} {a : Nat} :
    InRegions [r] a ↔ r.base ≤ a ∧ a < r.base + r.len := by simp [InRegions]

@[simp] theorem not_inRegions_nil {a : Nat} : ¬ InRegions [] a := by simp [InRegions]

theorem inRegions_append {rs qs : List Region} {a : Nat} :
    InRegions (rs ++ qs) a ↔ InRegions rs a ∨ InRegions qs a := by
  simp only [InRegions, List.mem_append]
  constructor
  · rintro ⟨r, h | h, ha⟩
    · exact .inl ⟨r, h, ha⟩
    · exact .inr ⟨r, h, ha⟩
  · rintro (⟨r, h, ha⟩ | ⟨r, h, ha⟩)
    · exact ⟨r, .inl h, ha⟩
    · exact ⟨r, .inr h, ha⟩

@[simp] theorem Region.has_iff {r : Region} {a : Nat} : r.has a = true ↔ r.base ≤ a ∧ a < r.base + r.len := by
  simp [Region.has]

@[simp] theorem Region.fits_iff {r : Region} : r.fits = true ↔ (r.len ≠ 0 → r.base + r.len ≤ 2 ^ 64) := by
  rw [Region.fits, Bool.or_eq_true, beq_iff_eq, decide_eq_true_eq, Config.addrSpace]
  omega

/-- Two regions are disjoint exactly when no address lies in both. -/
theorem Region.disjoint_iff {r q : Region} :
    r.disjoint q = true ↔ ∀ a, InRegions [r] a → ¬ InRegions [q] a := by
  simp only [Region.disjoint, inRegions_singleton, Bool.or_eq_true, decide_eq_true_eq, beq_iff_eq]
  constructor
  · rintro h a ha
    omega
  · intro h
    have := h (max r.base q.base)
    omega

/-- What is left of a region without another. -/
theorem Region.inRegions_minus {r o : Region} {a : Nat} :
    InRegions (r.minus o) a ↔ InRegions [r] a ∧ ¬ InRegions [o] a := by
  simp only [InRegions, Region.minus, List.mem_filter, List.mem_cons, List.not_mem_nil, or_false, bne_iff_ne]
  constructor
  · rintro ⟨x, ⟨rfl | rfl, hx⟩, ha⟩ <;> simp at * <;> omega
  · rintro ⟨⟨_, rfl, ha⟩, ho⟩
    simp at ho
    by_cases hb : a < o.base
    · exact ⟨_, ⟨.inl rfl, by simp; omega⟩, by simp; omega⟩
    · exact ⟨_, ⟨.inr rfl, by simp; omega⟩, by simp; omega⟩

theorem Region.inRegions_subtract {rs : List Region} {o : Region} {a : Nat} :
    InRegions (Region.subtract rs o) a ↔ InRegions rs a ∧ ¬ InRegions [o] a := by
  induction rs with
  | nil => simp [Region.subtract]
  | cons r rs ih =>
    rw [Region.subtract] at ih ⊢
    rw [List.flatMap_cons, inRegions_append, Region.inRegions_minus, inRegions_cons (rs := rs), ih]
    tauto

theorem Region.inRegions_foldl_subtract {own rs : List Region} {a : Nat} :
    InRegions (own.foldl Region.subtract rs) a ↔ InRegions rs a ∧ ¬ InRegions own a := by
  induction own generalizing rs with
  | nil => simp
  | cons o own ih =>
    rw [List.foldl_cons, ih, Region.inRegions_subtract, inRegions_cons (rs := own)]
    tauto

/-- The check of validity says that every address of the region lies in a region of `own`. -/
theorem Region.coveredBy_iff {own : List Region} {r : Region} :
    Region.coveredBy own r = true ↔ ∀ a, InRegions [r] a → InRegions own a := by
  have key : Region.coveredBy own r = true ↔ ∀ a, ¬ InRegions (own.foldl Region.subtract [r]) a := by
    simp only [Region.coveredBy, List.all_eq_true, beq_iff_eq, InRegions]
    constructor
    · rintro h a ⟨x, hx, ha⟩
      have := h x hx
      omega
    · intro h x hx
      by_contra hc
      exact h x.base ⟨x, hx, by omega⟩
  rw [key]
  simp only [Region.inRegions_foldl_subtract]
  exact forall_congr' fun a => by tauto

theorem inRegions_iff_exists {rs : List Region} {a : Nat} : InRegions rs a ↔ ∃ r ∈ rs, InRegions [r] a := by
  simp [InRegions]

theorem Region.all_coveredBy_iff {own rs : List Region} :
    rs.all (Region.coveredBy own) = true ↔ ∀ a, InRegions rs a → InRegions own a := by
  simp only [List.all_eq_true, Region.coveredBy_iff]
  constructor
  · intro h a ha
    obtain ⟨r, hr, har⟩ := inRegions_iff_exists.1 ha
    exact h r hr a har
  · exact fun h r hr a ha => h a (inRegions_iff_exists.2 ⟨r, hr, ha⟩)

theorem Region.all_disjoint_iff {rs qs : List Region} :
    rs.all (fun r => qs.all (r.disjoint ·)) = true ↔ ∀ a, InRegions rs a → ¬ InRegions qs a := by
  simp only [List.all_eq_true, Region.disjoint_iff]
  constructor
  · intro h a ha hq
    obtain ⟨r, hr, har⟩ := inRegions_iff_exists.1 ha
    obtain ⟨q, hq, haq⟩ := inRegions_iff_exists.1 hq
    exact h r hr q hq a har haq
  · exact fun h r hr q hq a har haq =>
      h a (inRegions_iff_exists.2 ⟨r, hr, har⟩) (inRegions_iff_exists.2 ⟨q, hq, haq⟩)

theorem Region.pairwiseDisjoint_iff {rs : List Region} :
    Region.pairwiseDisjoint rs = true ↔
      rs.Pairwise fun r q => ∀ a, InRegions [r] a → ¬ InRegions [q] a := by
  induction rs with
  | nil => simp [Region.pairwiseDisjoint]
  | cons r rs ih =>
    simp only [Region.pairwiseDisjoint, Bool.and_eq_true, ih, List.pairwise_cons, List.all_eq_true,
      Region.disjoint_iff]

/-- A command is not refused exactly when the host meets its duties (20_memory.md R52, R53). -/
theorem footprintRefusal_eq_none_iff {s : State} {rd wr : List Region} :
    footprintRefusal s rd wr = none ↔ Duties s rd wr := by
  have hfits : (rd ++ wr).all Region.fits = true ↔
      ∀ r ∈ rd ++ wr, r.len ≠ 0 → r.base + r.len ≤ 2 ^ 64 := by
    simp only [List.all_eq_true, Region.fits_iff]
  have : footprintRefusal s rd wr = none ↔
      ((rd ++ wr).all Region.fits = true ∧ rd.all (Region.coveredBy s.readable) = true ∧
        wr.all (Region.coveredBy s.writable) = true ∧ rd.all (fun r => wr.all (r.disjoint ·)) = true ∧
        Region.pairwiseDisjoint wr = true) := by
    unfold footprintRefusal
    generalize (rd ++ wr).all Region.fits = b₁, rd.all (Region.coveredBy s.readable) = b₂,
      wr.all (Region.coveredBy s.writable) = b₃, rd.all (fun r => wr.all (r.disjoint ·)) = b₄,
      Region.pairwiseDisjoint wr = b₅
    cases b₁ <;> cases b₂ <;> cases b₃ <;> cases b₄ <;> cases b₅ <;> simp
  rw [this, hfits, Region.all_coveredBy_iff, Region.all_coveredBy_iff, Region.all_disjoint_iff,
    Region.pairwiseDisjoint_iff]
  exact ⟨fun ⟨a, b, c, d, e⟩ => ⟨a, b, c, d, e⟩, fun ⟨a, b, c, d, e⟩ => ⟨a, b, c, d, e⟩⟩

/-- Buffers are not refused exactly when the host holds them (20_memory.md R50). -/
theorem buffersRefusal_eq_none_iff {s : State} {buffers : List Region} :
    buffersRefusal s buffers = none ↔ Held s buffers := by
  have hfits : buffers.all Region.fits = true ↔ ∀ r ∈ buffers, r.len ≠ 0 → r.base + r.len ≤ 2 ^ 64 := by
    simp only [List.all_eq_true, Region.fits_iff]
  have : buffersRefusal s buffers = none ↔
      (buffers.all Region.fits = true ∧ buffers.all (Region.coveredBy s.writable) = true) := by
    unfold buffersRefusal
    generalize buffers.all Region.fits = b₁, buffers.all (Region.coveredBy s.writable) = b₂
    cases b₁ <;> cases b₂ <;> simp
  rw [this, hfits, Region.all_coveredBy_iff]
  exact ⟨fun ⟨a, b⟩ => ⟨a, b⟩, fun ⟨a, b⟩ => ⟨a, b⟩⟩

/-- A command is refused for no duty exactly when the host meets all of them. -/
theorem dutyRefusal_eq_none_iff {s : State} {i : Instr} : dutyRefusal s i = none ↔ DutiesTo i s := by
  rw [dutyRefusal, Option.or_eq_none_iff, footprintRefusal_eq_none_iff, buffersRefusal_eq_none_iff]
  exact ⟨fun ⟨a, b⟩ => ⟨a, b⟩, fun ⟨a, b⟩ => ⟨a, b⟩⟩

/-- Commands other than `TRN.P` owe nothing beside their footprints. -/
theorem DutiesTo.of_footprints {i : Instr} {s : State} (hi : ∀ n src dst offset, i ≠ .trnP n src dst offset)
    (h : Duties s (readFootprint i) (writeFootprint s.mem i)) : DutiesTo i s := by
  refine ⟨h, ?_⟩
  cases i with
  | trnP n src dst offset => exact absurd rfl (hi n src dst offset)
  | _ => exact ⟨by simp [writeBuffers], by simp [writeBuffers]⟩

end Sys2Proof.Machine
end

