-- ==== Sys2Proof/Laws/Command.lean ====
section
/-! SUPPORT. What a command can do: the two shared operations `commit` and `runCommand`, the shape of every meaning, and
where every sample lies. -/

namespace Sys2Proof.Machine

/-- `commit` answers a next state exactly when the duties are met, and then it is this one. -/
theorem commit_eq_next_iff {s t : State} {i : Instr} {outs : List (Nat × Sample)} :
    commit s i outs = .next t ↔ DutiesTo i s ∧ t = complete .ok { s with mem := s.mem.writeSamples outs } := by
  rw [← dutyRefusal_eq_none_iff]
  unfold commit
  cases dutyRefusal s i <;> simp [eq_comm]

theorem commit_of_duties {s : State} {i : Instr} (outs : List (Nat × Sample)) (h : DutiesTo i s) :
    commit s i outs = .next (complete .ok { s with mem := s.mem.writeSamples outs }) :=
  commit_eq_next_iff.2 ⟨h, rfl⟩

/-- Fewer regions to read and none to write ask less of the host. -/
theorem Duties.of_read_subset {s : State} {rd rd' wr : List Region} (h : Duties s rd wr)
    (hr : ∀ r ∈ rd', r ∈ rd) : Duties s rd' [] where
  fits r hm := h.fits r (List.mem_append_left _ (hr r (by simpa using hm)))
  inputValid a := fun ⟨r, hm, ha⟩ => h.inputValid a ⟨r, hr r hm, ha⟩
  outputValid a ha := absurd ha not_inRegions_nil
  inputApart _ _ := not_inRegions_nil
  rowsApart := List.Pairwise.nil

theorem commit_ne_fault {s : State} {i : Instr} {outs : List (Nat × Sample)} {f : Fault} :
    commit s i outs ≠ .fault f := nomatch f

/-- Everything a command whose checks use its fields only can do: it fails its first failing check and writes nothing,
or passes all of them and commits. -/
theorem runCommand_cases {s t : State} {checks : List Check} {i : Instr} {outs : List (Nat × Sample)}
    (h : runCommand s checks i outs = .next t) :
    (∃ c, firstFault checks = some c ∧ t = raise c s) ∨
    (firstFault checks = none ∧ DutiesTo i s ∧ t = complete .ok { s with mem := s.mem.writeSamples outs }) := by
  unfold runCommand at h
  split at h
  · rename_i c hc
    exact .inl ⟨c, hc, by simpa [eq_comm] using h⟩
  · rename_i hc
    exact .inr ⟨hc, commit_eq_next_iff.1 h⟩

theorem runCommand_of_fault {s : State} {checks : List Check} {i : Instr} {outs : List (Nat × Sample)}
    {c : Code} (h : firstFault checks = some c) : runCommand s checks i outs = .next (raise c s) := by
  simp [runCommand, h]

theorem runCommand_of_duties {s : State} {checks : List Check} {i : Instr} {outs : List (Nat × Sample)}
    (h : firstFault checks = none) (hd : DutiesTo i s) :
    runCommand s checks i outs = .next (complete .ok { s with mem := s.mem.writeSamples outs }) := by
  simp [runCommand, h, commit_of_duties outs hd]

theorem firstFault_eq_none_iff {cs : List Check} : firstFault cs = none ↔ ∀ c ∈ cs, c.fails = false := by
  induction cs with
  | nil => simp [firstFault]
  | cons c cs ih =>
    simp only [firstFault, List.mem_cons, forall_eq_or_imp]
    cases hc : c.fails <;> simp [ih]

/-- The code a list of checks decides is the code of a check of the list. -/
theorem firstFault_mem {cs : List Check} {c : Code} (h : firstFault cs = some c) : ∃ k ∈ cs, k.code = c := by
  induction cs with
  | nil => simp [firstFault] at h
  | cons k cs ih =>
    simp only [firstFault] at h
    split at h
    · exact ⟨k, by simp, by simpa using h⟩
    · obtain ⟨k', hk, e⟩ := ih h
      exact ⟨k', by simp [hk], e⟩

/-! ### The checks -/

theorem groupInRange_iff {grp : BitVec 8} : groupInRange grp = true ↔ grp.toNat < 8 :=
  ⟨fun h => of_decide_eq_true h, fun h => decide_eq_true h⟩

@[simp] theorem groupCheck_fails {grp : BitVec 8} : (groupCheck grp).fails = true ↔ 8 ≤ grp.toNat := by
  rw [groupCheck, Bool.not_eq_true', Bool.eq_false_iff, ne_eq, groupInRange_iff]
  omega

@[simp] theorem groupCheck_passes {grp : BitVec 8} : (groupCheck grp).fails = false ↔ grp.toNat < 8 := by
  rw [Bool.eq_false_iff, ne_eq, groupCheck_fails]
  omega

@[simp] theorem tickCheck_fails {n : Half} : (tickCheck n).fails = true ↔ n.toNat % 8 ≠ 0 := by
  simp [tickCheck]

@[simp] theorem tickCheck_passes {n : Half} : (tickCheck n).fails = false ↔ n.toNat % 8 = 0 := by
  simp [tickCheck]

@[simp] theorem strideCheck_fails {stride : Half} {k : Nat} :
    (strideCheck stride k).fails = true ↔ stride.toNat < k := by simp [strideCheck]

@[simp] theorem strideCheck_passes {stride : Half} {k : Nat} :
    (strideCheck stride k).fails = false ↔ k ≤ stride.toNat := by simp [strideCheck]

@[simp] theorem alignCheck_fails {a : Word} {k : Nat} : (alignCheck a k).fails = true ↔ a.toNat % k ≠ 0 := by
  simp [alignCheck]

@[simp] theorem alignCheck_passes {a : Word} {k : Nat} : (alignCheck a k).fails = false ↔ a.toNat % k = 0 := by
  simp [alignCheck]

/-- The checks of the expansions all pass on aligned operands (40_expand.md R101). -/
theorem expandChecks_pass_iff {src dst : Word} :
    firstFault (expandChecks src dst) = none ↔ src.toNat % 8 = 0 ∧ dst.toNat % 2 = 0 := by
  simp [firstFault_eq_none_iff, expandChecks]

/-- The checks of a kernel all pass (41_transpose_kernels.md R125). -/
theorem kernelChecks_pass_iff {n : Nat} {grp : BitVec 8} {src dst : Word} {stride : Half} :
    firstFault (kernelChecks n grp src dst stride) = none ↔
      grp.toNat < 8 ∧ n ≤ stride.toNat ∧ src.toNat % 8 = 0 ∧ dst.toNat % 2 = 0 := by
  simp [firstFault_eq_none_iff, kernelChecks]

/-- The checks of `TRN.F` all pass (42_transpose_full.md R142). -/
theorem trnFChecks_pass_iff {n : Half} {src dst : Word} {stride : Half} :
    firstFault (trnFChecks n src dst stride) = none ↔
      n.toNat % 8 = 0 ∧ n.toNat ≤ stride.toNat ∧ src.toNat % 8 = 0 ∧ dst.toNat % 2 = 0 := by
  simp [firstFault_eq_none_iff, trnFChecks]

/-- The checks of `TRN.P` on its fields all pass (42_transpose_full.md R144). -/
theorem trnPChecks_pass_iff {n : Half} {src dst : Word} :
    firstFault (trnPChecks n src dst) = none ↔
      n.toNat % 8 = 0 ∧ src.toNat % 8 = 0 ∧ dst.toNat % 8 = 0 := by
  simp [firstFault_eq_none_iff, trnPChecks]

/-- The row pointers are all multiples of 2 (42_transpose_full.md R144). -/
theorem pointerChecks_pass_iff {m : Memory} {a : Nat} :
    firstFault (pointerChecks (rowPointers m a)) = none ↔
      ∀ c < 128, (m.readWord (a + 8 * c)).toNat % 2 = 0 := by
  simp [firstFault_eq_none_iff, pointerChecks, rowPointers, Memory.readWords]

/-- The only fault the row pointers raise is `AlignmentFault` (60_exceptions.md R169). -/
theorem pointerChecks_fault {ps : List Word} {c : Code} (h : firstFault (pointerChecks ps) = some c) :
    c = .alignmentFault := by
  obtain ⟨k, hk, rfl⟩ := firstFault_mem h
  obtain ⟨p, -, rfl⟩ := List.mem_map.1 hk
  rfl

/-! ### The shape of every meaning -/

/-- The checks of a command in order; those of `TRN.P` end with its row pointers (60_exceptions.md R164). -/
def checksOf (m : Memory) : Instr → List Check
  | .exp16 src dst => expandChecks src dst
  | .exp64 src dst => expandChecks src dst
  | .exp128 src dst => expandChecks src dst
  | .tr16x8 grp src dst stride => kernelChecks 8 grp src dst stride
  | .tr16x16 grp src dst stride => kernelChecks 16 grp src dst stride
  | .tr16x32 grp src dst stride => kernelChecks 32 grp src dst stride
  | .trnF n src dst stride => trnFChecks n src dst stride
  | .trnP n src dst _ => trnPChecks n src dst ++ pointerChecks (rowPointers m dst.toNat)

/-- The samples a command writes. -/
def outsOf (m : Memory) : Instr → List (Nat × Sample)
  | .exp16 src dst => exp16Outs m src.toNat dst.toNat
  | .exp64 src dst => exp64Outs m src.toNat dst.toNat
  | .exp128 src dst => exp128Outs m src.toNat dst.toNat
  | .tr16x8 grp src dst stride => kernelOuts m 8 grp.toNat src.toNat dst.toNat stride.toNat
  | .tr16x16 grp src dst stride => kernelOuts m 16 grp.toNat src.toNat dst.toNat stride.toNat
  | .tr16x32 grp src dst stride => kernelOuts m 32 grp.toNat src.toNat dst.toNat stride.toNat
  | .trnF n src dst stride => trnFOuts m n.toNat src.toNat dst.toNat stride.toNat
  | .trnP n src dst offset => trnPOuts m n.toNat src.toNat dst.toNat offset.toNat

theorem firstFault_append {cs ds : List Check} :
    firstFault (cs ++ ds) = (firstFault cs).or (firstFault ds) := by
  induction cs with
  | nil => simp [firstFault]
  | cons c cs ih => simp only [List.cons_append, firstFault, ih]; split <;> simp

/-- Everything a command can do when it answers a next state: it fails a check and writes nothing, or the host's duties
are met and its samples are written (60_exceptions.md R165, R170). -/
theorem exec_cases {i : Instr} {s t : State} (h : exec i s = .next t) :
    (∃ c, firstFault (checksOf s.mem i) = some c ∧ t = raise c s) ∨
    (firstFault (checksOf s.mem i) = none ∧ DutiesTo i s ∧
      t = complete .ok { s with mem := s.mem.writeSamples (outsOf s.mem i) }) := by
  cases i with
  | trnP n src dst offset =>
    simp only [exec, execTrnP, checksOf, firstFault_append] at h ⊢
    split at h
    · rename_i c hc
      exact .inl ⟨c, by simp [hc], by simpa [eq_comm] using h⟩
    · rename_i hc
      split at h
      · simp at h
      · rcases runCommand_cases h with ⟨c, hf, ht⟩ | ⟨hf, hd, ht⟩
        · exact .inl ⟨c, by simp [hc, hf], ht⟩
        · exact .inr ⟨by simp [hc, hf], hd, ht⟩
  | _ => exact runCommand_cases h

/-- A command whose checks all pass and towards which the host meets its duties completes with `OK`. -/
theorem exec_of_duties {i : Instr} {s : State} (hc : firstFault (checksOf s.mem i) = none) (hd : DutiesTo i s) :
    exec i s = .next (complete .ok { s with mem := s.mem.writeSamples (outsOf s.mem i) }) := by
  cases i with
  | trnP n src dst offset =>
    simp only [checksOf, firstFault_append, Option.or_eq_none_iff] at hc
    have ht : footprintRefusal s [tableRegion dst] [] = none :=
      footprintRefusal_eq_none_iff.2 (Duties.of_read_subset hd.toDuties fun r hr => by
        rw [List.mem_singleton] at hr
        rw [hr, readFootprint]
        simp)
    simp only [exec, execTrnP, hc.1, ht]
    exact runCommand_of_duties hc.2 hd
  | _ => exact runCommand_of_duties hc hd

/-- A command other than `TRN.P` that fails a check completes with that check's code. -/
theorem exec_of_fault {i : Instr} {s : State} {c : Code} (hi : ∀ n src dst offset, i ≠ .trnP n src dst offset)
    (hc : firstFault (checksOf s.mem i) = some c) : exec i s = .next (raise c s) := by
  cases i with
  | trnP n src dst offset => exact absurd rfl (hi n src dst offset)
  | _ => exact runCommand_of_fault hc

/-- `TRN.P` that fails a check on its fields completes with that check's code. -/
theorem exec_trnP_of_field_fault {n : Half} {src dst : Word} {offset : Half} {s : State} {c : Code}
    (hc : firstFault (trnPChecks n src dst) = some c) : exec (.trnP n src dst offset) s = .next (raise c s) := by
  simp [exec, execTrnP, hc]

/-- `TRN.P` whose table can be read and holds a pointer that is not a multiple of 2 completes with the fault's code. -/
theorem exec_trnP_of_pointer_fault {n : Half} {src dst : Word} {offset : Half} {s : State} {c : Code}
    (hf : firstFault (trnPChecks n src dst) = none) (ht : Duties s [tableRegion dst] [])
    (hc : firstFault (pointerChecks (rowPointers s.mem dst.toNat)) = some c) :
    exec (.trnP n src dst offset) s = .next (raise c s) := by
  simp only [exec, execTrnP, hf, footprintRefusal_eq_none_iff.2 ht]
  exact runCommand_of_fault hc

/-- A command that completed with `OK` passed its checks, its duties were met, and it made its writes. -/
theorem exec_ok {i : Instr} {s t : State} (h : exec i s = .next t) (h0 : t.status = 0) :
    firstFault (checksOf s.mem i) = none ∧ DutiesTo i s ∧
      t = complete .ok { s with mem := s.mem.writeSamples (outsOf s.mem i) } := by
  rcases exec_cases h with ⟨c, hc, rfl⟩ | h
  · exfalso
    obtain ⟨k, hk, rfl⟩ := firstFault_mem hc
    simp only [raise_status] at h0
    cases i <;> simp only [checksOf, expandChecks, kernelChecks, trnFChecks, trnPChecks, pointerChecks,
      List.mem_cons, List.mem_append, List.mem_map, List.not_mem_nil, or_false] at hk
    case trnP => obtain (rfl | rfl | rfl) | ⟨p, -, rfl⟩ := hk <;> simp [tickCheck, alignCheck, Code.bits] at h0
    all_goals
      rcases hk with rfl | rfl | rfl | rfl <;>
        simp [groupCheck, tickCheck, strideCheck, alignCheck, Code.bits] at h0
  · exact h

/-- The duties ask the same of two states in which the host holds the same memory. -/
theorem Duties.of_regions {s s' : State} {rd wr : List Region} (h : Duties s rd wr)
    (hr : s'.readable = s.readable) (hw : s'.writable = s.writable) : Duties s' rd wr where
  fits := h.fits
  inputValid := hr ▸ h.inputValid
  outputValid := hw ▸ h.outputValid
  inputApart := h.inputApart
  rowsApart := h.rowsApart

/-- So do those towards buffers. -/
theorem Held.of_writable {s s' : State} {buffers : List Region} (h : Held s buffers)
    (hw : s'.writable = s.writable) : Held s' buffers where
  fits := h.fits
  valid := hw ▸ h.valid

/-- A command never halts the machine: `Fault` is empty. -/
theorem exec_ne_fault {i : Instr} {s : State} {f : Fault} : exec i s ≠ .fault f := nomatch f

end Sys2Proof.Machine
end

