-- ==== Sys2Proof/Laws/Decode.lean ====
section
/-! SUPPORT. The `DESC` format: the fields of a packed command are the values packed, and a command is its fields packed
(30_encoding.md R84). -/

namespace Sys2Proof.Desc

section Fields
variable (op grp : BitVec 8) (rsv : BitVec 16) (n : Half) (src dst : Word) (stride offset : Half)

@[simp] theorem op_pack : Desc.op (pack op grp rsv n src dst stride offset) = op := by
  unfold Desc.op pack Command.ofWords
  ext i hi; simp (disch := omega); grind

@[simp] theorem grp_pack : Desc.grp (pack op grp rsv n src dst stride offset) = grp := by
  unfold Desc.grp pack Command.ofWords
  ext i hi; simp (disch := omega); grind

@[simp] theorem rsv_pack : Desc.rsv (pack op grp rsv n src dst stride offset) = rsv := by
  unfold Desc.rsv pack Command.ofWords
  ext i hi; simp (disch := omega); grind

@[simp] theorem n_pack : Desc.n (pack op grp rsv n src dst stride offset) = n := by
  unfold Desc.n pack Command.ofWords
  ext i hi; simp (disch := omega); grind

@[simp] theorem src_pack : Desc.src (pack op grp rsv n src dst stride offset) = src := by
  unfold Desc.src pack Command.ofWords
  ext i hi; simp (disch := omega); grind

@[simp] theorem dst_pack : Desc.dst (pack op grp rsv n src dst stride offset) = dst := by
  unfold Desc.dst pack Command.ofWords
  ext i hi; simp (disch := omega); grind

@[simp] theorem stride_pack : Desc.stride (pack op grp rsv n src dst stride offset) = stride := by
  unfold Desc.stride pack Command.ofWords
  ext i hi; simp (disch := omega); grind

@[simp] theorem offset_pack : Desc.offset (pack op grp rsv n src dst stride offset) = offset := by
  unfold Desc.offset pack Command.ofWords
  ext i hi; simp (disch := omega); grind

end Fields

/-- A command is its eight fields packed: no bit of the 256 is outside a field. -/
theorem pack_fields (d : Command) :
    pack (Desc.op d) (Desc.grp d) (Desc.rsv d) (Desc.n d) (Desc.src d) (Desc.dst d) (Desc.stride d) (Desc.offset d) =
      d := by
  unfold pack Command.ofWords Desc.op Desc.grp Desc.rsv Desc.n Desc.src Desc.dst Desc.stride Desc.offset
  ext i hi; simp; grind

end Sys2Proof.Desc

namespace Sys2Proof

@[simp] theorem Opcode.ofBits?_bits (o : Opcode) : Opcode.ofBits? o.bits = some o := by cases o <;> decide

/-- A value of `OP` that names an operation is that operation's number (30_encoding.md R85). -/
theorem Opcode.bits_of_ofBits? {b : BitVec 8} {o : Opcode} (h : Opcode.ofBits? b = some o) : b = o.bits := by
  unfold Opcode.ofBits? at h
  split at h
  · cases h; assumption
  · split at h
    · cases h; assumption
    · split at h
      · cases h; assumption
      · split at h
        · cases h; assumption
        · split at h
          · cases h; assumption
          · split at h
            · cases h; assumption
            · split at h
              · cases h; assumption
              · split at h
                · cases h; assumption
                · cases h

/-- `OP` names no operation exactly when it is none of the eight values (30_encoding.md R85). -/
theorem Opcode.ofBits?_eq_none_iff {b : BitVec 8} :
    Opcode.ofBits? b = none ↔ b ∉ [0x10#8, 0x11#8, 0x12#8, 0x20#8, 0x21#8, 0x22#8, 0x30#8, 0x31#8] := by
  unfold Opcode.ofBits?
  simp only [List.mem_cons, List.not_mem_nil, or_false, not_or]
  constructor
  · intro h
    refine ⟨?_, ?_, ?_, ?_, ?_, ?_, ?_, ?_⟩ <;> rintro rfl <;> exact absurd h (by decide)
  · rintro ⟨h0, h1, h2, h3, h4, h5, h6, h7⟩
    simp only [h0, h1, h2, h3, h4, h5, h6, h7, if_false]

end Sys2Proof
end

