-- ==== Sys2Proof/Laws/Grid.lean ====
section
/-! SUPPORT. Where the samples of a command lie: every command writes `gridLen` samples to each of `gridRows` rows, and
its write footprint is those rows (20_memory.md R47 to R50). From this: each byte is written with one value, nothing
outside the footprint changes, every sample is read back. -/

namespace Sys2Proof.Machine

/-- The number of rows a command writes. -/
def gridRows : Instr → Nat
  | .exp16 _ _ => 1
  | .exp64 _ _ => 1
  | .exp128 _ _ => 1
  | .tr16x8 _ _ _ _ => 16
  | .tr16x16 _ _ _ _ => 16
  | .tr16x32 _ _ _ _ => 16
  | .trnF _ _ _ _ => 128
  | .trnP _ _ _ _ => 128

/-- The number of samples of a row. -/
def gridLen : Instr → Nat
  | .exp16 _ _ => 16
  | .exp64 _ _ => 64
  | .exp128 _ _ => 128
  | .tr16x8 _ _ _ _ => 8
  | .tr16x16 _ _ _ _ => 16
  | .tr16x32 _ _ _ _ => 32
  | .trnF n _ _ _ => n.toNat
  | .trnP n _ _ _ => n.toNat

/-- The address of the first sample of a row. -/
def gridBase (m : Memory) : Instr → Nat → Nat
  | .exp16 _ dst, _ => dst.toNat
  | .exp64 _ dst, _ => dst.toNat
  | .exp128 _ dst, _ => dst.toNat
  | .tr16x8 _ _ dst stride, i => flatAddr dst.toNat stride.toNat i 0
  | .tr16x16 _ _ dst stride, i => flatAddr dst.toNat stride.toNat i 0
  | .tr16x32 _ _ dst stride, i => flatAddr dst.toNat stride.toNat i 0
  | .trnF _ _ dst stride, c => flatAddr dst.toNat stride.toNat c 0
  | .trnP _ _ dst offset, c => rowAddr (rowPointers m dst.toNat) offset.toNat c 0

/-- The sample of a row at an index. -/
def gridVal (m : Memory) : Instr → Nat → Nat → Sample
  | .exp16 src _, _, t =>
    zext16 ((unpack16 (m.readWord src.toNat) (m.readWord (src.toNat + 8)) (m.readWord (src.toNat + 16))).getD t 0)
  | .exp64 src _, _, t => zext16 ((unpack64 (m.readWords src.toNat 12)).getD t 0)
  | .exp128 src _, _, t => zext16 ((unpack128 m src.toNat).getD t 0)
  | .tr16x8 grp src _ _, i, t => zext16 ((groupLanes m (src.toNat + 240 * t) grp.toNat).getD i 0)
  | .tr16x16 grp src _ _, i, t => zext16 ((groupLanes m (src.toNat + 240 * t) grp.toNat).getD i 0)
  | .tr16x32 grp src _ _, i, t => zext16 ((groupLanes m (src.toNat + 240 * t) grp.toNat).getD i 0)
  | .trnF _ src _ _, c, t => zext16 ((unpack128 m (src.toNat + 240 * t)).getD c 0)
  | .trnP _ src _ _, c, t => zext16 ((unpack128 m (src.toNat + 240 * t)).getD c 0)

@[simp] theorem length_unpack16 (w0 w1 w2 : Word) : (unpack16 w0 w1 w2).length = 16 := by simp [unpack16]

@[simp] theorem length_unpack64 (ws : List Word) : (unpack64 ws).length = 64 := by simp [unpack64]

@[simp] theorem length_unpack128 (m : Memory) (f : Nat) : (unpack128 m f).length = 128 := by simp [unpack128]

theorem flatAddr_eq (dst stride i t : Nat) : flatAddr dst stride i t = flatAddr dst stride i 0 + 2 * t := by
  simp [flatAddr]; ring

theorem rowAddr_eq (ps : List Word) (offset c t : Nat) :
    rowAddr ps offset c t = rowAddr ps offset c 0 + 2 * t := by simp [rowAddr]; ring

theorem mem_rowOuts {dst : Nat} {xs : List Adc} {e : Nat × Sample} :
    e ∈ rowOuts dst xs ↔ ∃ t < xs.length, e = (dst + 2 * t, zext16 (xs.getD t 0)) := by
  simp [rowOuts, eq_comm]

theorem mem_kernelOuts {m : Memory} {n g src dst stride : Nat} {e : Nat × Sample} :
    e ∈ kernelOuts m n g src dst stride ↔
      ∃ i < 16, ∃ t < n, e = (flatAddr dst stride i t, zext16 ((groupLanes m (src + 240 * t) g).getD i 0)) := by
  simp only [kernelOuts, Config.frameBytes, Config.groupCh, List.mem_flatMap, List.mem_map, List.mem_range]
  constructor
  · rintro ⟨t, ht, i, hi, rfl⟩; exact ⟨i, hi, t, ht, rfl⟩
  · rintro ⟨i, hi, t, ht, rfl⟩; exact ⟨t, ht, i, hi, rfl⟩

theorem mem_transposeOuts {m : Memory} {n src : Nat} {addr : Nat → Nat → Nat} {e : Nat × Sample} :
    e ∈ transposeOuts m n src addr ↔
      ∃ c < 128, ∃ t < n, e = (addr c t, zext16 ((unpack128 m (src + 240 * t)).getD c 0)) := by
  simp only [transposeOuts, Config.frameBytes, Config.nchan, List.mem_flatMap, List.mem_map, List.mem_range]
  constructor
  · rintro ⟨t, ht, i, hi, rfl⟩; exact ⟨i, hi, t, ht, rfl⟩
  · rintro ⟨i, hi, t, ht, rfl⟩; exact ⟨t, ht, i, hi, rfl⟩

/-- The samples of a command are those of its grid. -/
theorem mem_outsOf {m : Memory} {i : Instr} {e : Nat × Sample} :
    e ∈ outsOf m i ↔
      ∃ c < gridRows i, ∃ t < gridLen i, e = (gridBase m i c + 2 * t, gridVal m i c t) := by
  cases i with
  | exp16 src dst =>
    rw [outsOf, exp16Outs, mem_rowOuts, length_unpack16]
    exact ⟨fun h => ⟨0, by simp [gridRows], h⟩, fun ⟨_, _, h⟩ => h⟩
  | exp64 src dst =>
    rw [outsOf, exp64Outs, mem_rowOuts, length_unpack64]
    exact ⟨fun h => ⟨0, by simp [gridRows], h⟩, fun ⟨_, _, h⟩ => h⟩
  | exp128 src dst =>
    rw [outsOf, exp128Outs, mem_rowOuts, length_unpack128]
    exact ⟨fun h => ⟨0, by simp [gridRows], h⟩, fun ⟨_, _, h⟩ => h⟩
  | tr16x8 grp src dst stride =>
    rw [outsOf, mem_kernelOuts]; simp only [gridBase, ← flatAddr_eq]; rfl
  | tr16x16 grp src dst stride =>
    rw [outsOf, mem_kernelOuts]; simp only [gridBase, ← flatAddr_eq]; rfl
  | tr16x32 grp src dst stride =>
    rw [outsOf, mem_kernelOuts]; simp only [gridBase, ← flatAddr_eq]; rfl
  | trnF n src dst stride =>
    rw [outsOf, trnFOuts, mem_transposeOuts]; simp only [gridBase, ← flatAddr_eq]; rfl
  | trnP n src dst offset =>
    rw [outsOf, trnPOuts, mem_transposeOuts]; simp only [gridBase, ← rowAddr_eq]; rfl

/-- The write footprint of a command is its rows (20_memory.md R47 to R50). -/
theorem writeFootprint_eq (m : Memory) (i : Instr) :
    writeFootprint m i = (List.range (gridRows i)).map fun c => ⟨gridBase m i c, 2 * gridLen i⟩ := by
  cases i <;> rfl

theorem inRegions_writeFootprint {m : Memory} {i : Instr} {a : Nat} :
    InRegions (writeFootprint m i) a ↔
      ∃ c < gridRows i, gridBase m i c ≤ a ∧ a < gridBase m i c + 2 * gridLen i := by
  simp [writeFootprint_eq, InRegions]

/-- Both bytes of every sample lie in the write footprint. -/
theorem outsOf_inside {m : Memory} {i : Instr} {e : Nat × Sample} (h : e ∈ outsOf m i) {k : Nat} (hk : k < 2) :
    InRegions (writeFootprint m i) (e.1 + k) := by
  obtain ⟨c, hc, t, ht, rfl⟩ := mem_outsOf.1 h
  exact inRegions_writeFootprint.2 ⟨c, hc, by simp; omega, by simp; omega⟩

/-- No sample passes the top of the address space. -/
theorem outsOf_fits {i : Instr} {s : State} (hd : DutiesTo i s) {e : Nat × Sample} (h : e ∈ outsOf s.mem i) :
    e.1 + 2 ≤ 2 ^ 64 := by
  obtain ⟨c, hc, t, ht, rfl⟩ := mem_outsOf.1 h
  have := hd.fits ⟨gridBase s.mem i c, 2 * gridLen i⟩
    (List.mem_append_right _ (by rw [writeFootprint_eq]; exact List.mem_map.2 ⟨c, by simpa using hc, rfl⟩))
    (by simp; omega)
  simp at this ⊢
  omega

/-- Two different rows of a command share no address. -/
theorem gridRows_apart {i : Instr} {s : State} (hd : DutiesTo i s) {c c' : Nat} (hc : c < gridRows i)
    (hc' : c' < gridRows i) (hne : c ≠ c') (hn : 0 < gridLen i) :
    gridBase s.mem i c + 2 * gridLen i ≤ gridBase s.mem i c' ∨
      gridBase s.mem i c' + 2 * gridLen i ≤ gridBase s.mem i c := by
  have hp := hd.rowsApart
  rw [writeFootprint_eq, List.pairwise_map] at hp
  have key : ∀ x y, x < y → y < gridRows i →
      gridBase s.mem i x + 2 * gridLen i ≤ gridBase s.mem i y ∨
        gridBase s.mem i y + 2 * gridLen i ≤ gridBase s.mem i x := fun x y hxy hy => by
    have h := (List.pairwise_iff_getElem.1 hp) x y (by simp; omega) (by simpa using hy) hxy
    simp only [List.getElem_range, inRegions_singleton] at h
    have := h (max (gridBase s.mem i x) (gridBase s.mem i y))
    omega
  rcases Nat.lt_or_gt_of_ne hne with hlt | hgt
  · exact key c c' hlt hc'
  · exact (key c' c hgt hc).symm

/-- Each byte of the write footprint is written with one value (20_memory.md R46). -/
theorem outsOf_compatible {i : Instr} {s : State} (hd : DutiesTo i s) : Memory.Compatible (outsOf s.mem i) := by
  intro e he e' he'
  obtain ⟨c, hc, t, ht, rfl⟩ := mem_outsOf.1 he
  obtain ⟨c', hc', t', ht', rfl⟩ := mem_outsOf.1 he'
  by_cases h : c = c'
  · subst h
    by_cases h : t = t'
    · subst h; exact .inl rfl
    · simp; omega
  · have := gridRows_apart hd hc hc' h (by omega)
    simp; omega

/-- A byte outside the write footprint is as before (20_memory.md R55). -/
theorem readByte_outsOf_outside {m : Memory} (h : m.wf) {i : Instr} {a : Nat}
    (ha : ¬ InRegions (writeFootprint m i) a) :
    Memory.readByte (m.writeSamples (outsOf m i)) a = m.readByte a := by
  refine Memory.readByte_writeSamples_outside h fun e he => ?_
  by_contra hc
  have := outsOf_inside he (k := a - e.1) (by omega)
  rw [show e.1 + (a - e.1) = a by omega] at this
  exact ha this

/-- Every sample of a command is read back. -/
theorem readSample_outsOf {i : Instr} {s : State} (h : s.mem.wf) (hd : DutiesTo i s) {c t : Nat}
    (hc : c < gridRows i) (ht : t < gridLen i) :
    Memory.readSample (s.mem.writeSamples (outsOf s.mem i)) (gridBase s.mem i c + 2 * t) = gridVal s.mem i c t :=
  Memory.readSample_writeSamples h (outsOf_compatible hd) (mem_outsOf.2 ⟨c, hc, t, ht, rfl⟩)

end Sys2Proof.Machine
end

