-- ==== Sys2Proof/Laws/Inputs.lean ====
section
/-! SUPPORT. What a command's result depends on: its fields and the bytes of `RD(cmd)`, of a frame only the 24 packed ADC
words (20_memory.md R45, R61; 30_encoding.md R76; 42_transpose_full.md R153). -/

namespace Sys2Proof.Machine

/-- Two memories agree on the packed ADC bytes of the frame at `f`: words 4 to 15 and 18 to 29 (30_encoding.md R73). -/
def AdcBytesAgree (m m' : Memory) (f : Nat) : Prop :=
  ∀ b, (f + 32 ≤ b ∧ b < f + 128) ∨ (f + 144 ≤ b ∧ b < f + 240) → m'.readByte b = m.readByte b

/-- Two memories agree on what a command's result depends on. -/
def InputsAgree (m m' : Memory) : Instr → Prop
  | .exp16 src _ => ∀ b, src.toNat ≤ b → b < src.toNat + 24 → m'.readByte b = m.readByte b
  | .exp64 src _ => ∀ b, src.toNat ≤ b → b < src.toNat + 96 → m'.readByte b = m.readByte b
  | .exp128 src _ => AdcBytesAgree m m' src.toNat
  | .tr16x8 _ src _ _ => ∀ t < 8, AdcBytesAgree m m' (src.toNat + 240 * t)
  | .tr16x16 _ src _ _ => ∀ t < 16, AdcBytesAgree m m' (src.toNat + 240 * t)
  | .tr16x32 _ src _ _ => ∀ t < 32, AdcBytesAgree m m' (src.toNat + 240 * t)
  | .trnF n src _ _ => ∀ t < n.toNat, AdcBytesAgree m m' (src.toNat + 240 * t)
  | .trnP n src dst _ => (∀ t < n.toNat, AdcBytesAgree m m' (src.toNat + 240 * t)) ∧
      ∀ b, dst.toNat ≤ b → b < dst.toNat + 1024 → m'.readByte b = m.readByte b

theorem Memory.readWords_congr {m m' : Memory} {a n : Nat}
    (h : ∀ b, a ≤ b → b < a + 8 * n → m'.readByte b = m.readByte b) : m'.readWords a n = m.readWords a n := by
  unfold Memory.readWords
  refine List.map_congr_left fun j hj => ?_
  rw [List.mem_range] at hj
  exact Memory.readWord_congr fun b hb hb' => h b (by omega) (by omega)

theorem unpack128_congr {m m' : Memory} {f : Nat} (h : AdcBytesAgree m m' f) : unpack128 m' f = unpack128 m f := by
  unfold unpack128
  rw [Memory.readWords_congr (m := m) (m' := m'), Memory.readWords_congr (m := m) (m' := m')]
  · intro b hb hb'
    simp at hb hb'
    exact h b (by omega)
  · intro b hb hb'
    simp at hb hb'
    exact h b (by omega)

/-- A group's three words lie among the frame's packed ADC words (30_encoding.md R77). -/
theorem groupWord_inside {g : Nat} (hg : g < 8) :
    (32 ≤ 8 * groupWord g ∧ 8 * groupWord g + 24 ≤ 128) ∨ (144 ≤ 8 * groupWord g ∧ 8 * groupWord g + 24 ≤ 240) := by
  unfold groupWord; interval_cases g <;> omega

theorem groupLanes_congr {m m' : Memory} {f g : Nat} (hg : g < 8) (h : AdcBytesAgree m m' f) :
    groupLanes m' f g = groupLanes m f g := by
  have hw := groupWord_inside hg
  unfold groupLanes
  rw [Memory.readWord_congr (m := m') (m' := m), Memory.readWord_congr (m := m') (m' := m),
    Memory.readWord_congr (m := m') (m' := m)] <;>
  · intro b hb hb'
    exact h b (by omega)

theorem kernelOuts_congr {m m' : Memory} {n g src dst stride : Nat} (hg : g < 8)
    (h : ∀ t < n, AdcBytesAgree m m' (src + 240 * t)) :
    kernelOuts m' n g src dst stride = kernelOuts m n g src dst stride := by
  unfold kernelOuts
  refine List.flatMap_congr fun t ht => ?_
  rw [List.mem_range] at ht
  simp only [Config.frameBytes]
  rw [groupLanes_congr hg (h t ht)]

theorem transposeOuts_congr {m m' : Memory} {n src : Nat} {addr : Nat → Nat → Nat}
    (h : ∀ t < n, AdcBytesAgree m m' (src + 240 * t)) :
    transposeOuts m' n src addr = transposeOuts m n src addr := by
  unfold transposeOuts
  refine List.flatMap_congr fun t ht => ?_
  rw [List.mem_range] at ht
  simp only [Config.frameBytes]
  rw [unpack128_congr (h t ht)]

theorem rowPointers_congr {m m' : Memory} {a : Nat} (h : ∀ b, a ≤ b → b < a + 1024 → m'.readByte b = m.readByte b) :
    rowPointers m' a = rowPointers m a :=
  Memory.readWords_congr fun b hb hb' => h b hb (by simpa using hb')

/-- The samples, the write footprint and the checks of a command depend on its inputs alone. -/
theorem outsOf_congr {m m' : Memory} {i : Instr} (hw : i.wellFormed = true) (h : InputsAgree m m' i) :
    outsOf m' i = outsOf m i := by
  cases i with
  | exp16 src dst =>
    simp only [outsOf, exp16Outs]
    rw [Memory.readWord_congr (m := m') (m' := m), Memory.readWord_congr (m := m') (m' := m),
      Memory.readWord_congr (m := m') (m' := m)] <;>
    · intro b hb hb'
      exact h b (by omega) (by omega)
  | exp64 src dst =>
    simp only [outsOf, exp64Outs]
    rw [Memory.readWords_congr (m := m) (m' := m')]
    exact fun b hb hb' => h b hb (by simpa using hb')
  | exp128 src dst => simp only [outsOf, exp128Outs, unpack128_congr h]
  | tr16x8 grp src dst stride => exact kernelOuts_congr (groupInRange_iff.1 hw) h
  | tr16x16 grp src dst stride => exact kernelOuts_congr (groupInRange_iff.1 hw) h
  | tr16x32 grp src dst stride => exact kernelOuts_congr (groupInRange_iff.1 hw) h
  | trnF n src dst stride => exact transposeOuts_congr h
  | trnP n src dst offset =>
    simp only [outsOf, trnPOuts, rowPointers_congr h.2]
    exact transposeOuts_congr h.1

theorem writeFootprint_congr {m m' : Memory} {i : Instr} (h : InputsAgree m m' i) :
    writeFootprint m' i = writeFootprint m i := by
  cases i with
  | trnP n src dst offset => simp only [writeFootprint, rowPointers_congr h.2]
  | _ => rfl

theorem writeBuffers_congr {m m' : Memory} {i : Instr} (h : InputsAgree m m' i) :
    writeBuffers m' i = writeBuffers m i := by
  cases i with
  | trnP n src dst offset => simp only [writeBuffers, rowPointers_congr h.2]
  | _ => rfl

/-- The duties towards a command depend on its inputs and on what the host holds alone. -/
theorem DutiesTo.transfer {i : Instr} {s s' : State} (hd : DutiesTo i s) (hr : s'.readable = s.readable)
    (hw : s'.writable = s.writable) (ha : InputsAgree s.mem s'.mem i) : DutiesTo i s' := by
  have hf := hd.toDuties.of_regions hr hw
  have hb := hd.buffers.of_writable hw
  rw [← writeFootprint_congr ha] at hf
  rw [← writeBuffers_congr ha] at hb
  exact ⟨hf, hb⟩

theorem checksOf_congr {m m' : Memory} {i : Instr} (h : InputsAgree m m' i) : checksOf m' i = checksOf m i := by
  cases i with
  | trnP n src dst offset => simp only [checksOf, rowPointers_congr h.2]
  | _ => rfl

theorem AdcBytesAgree.of_frame {m m' : Memory} {f : Nat} (h : ∀ b, f ≤ b → b < f + 240 → m'.readByte b = m.readByte b) :
    AdcBytesAgree m m' f := fun b hb => h b (by omega) (by omega)

/-- Memories that agree on `RD(cmd)` agree on the inputs of the command (20_memory.md R45). -/
theorem InputsAgree.of_readFootprint {m m' : Memory} {i : Instr}
    (h : ∀ b, InRegions (readFootprint i) b → m'.readByte b = m.readByte b) : InputsAgree m m' i := by
  cases i with
  | exp16 src dst => exact fun b hb hb' => h b (inRegions_singleton.2 ⟨hb, hb'⟩)
  | exp64 src dst => exact fun b hb hb' => h b (inRegions_singleton.2 ⟨hb, hb'⟩)
  | exp128 src dst => exact .of_frame fun b hb hb' => h b (inRegions_singleton.2 ⟨hb, by simpa [frameRegion] using hb'⟩)
  | tr16x8 grp src dst stride =>
    exact fun t ht => .of_frame fun b hb hb' => h b (inRegions_singleton.2 (by simp [frameRegion]; omega))
  | tr16x16 grp src dst stride =>
    exact fun t ht => .of_frame fun b hb hb' => h b (inRegions_singleton.2 (by simp [frameRegion]; omega))
  | tr16x32 grp src dst stride =>
    exact fun t ht => .of_frame fun b hb hb' => h b (inRegions_singleton.2 (by simp [frameRegion]; omega))
  | trnF n src dst stride =>
    exact fun t ht => .of_frame fun b hb hb' => h b (inRegions_singleton.2 (by simp [frameRegion]; omega))
  | trnP n src dst offset =>
    refine ⟨fun t ht => .of_frame fun b hb hb' => h b ?_, fun b hb hb' => h b ?_⟩
    · exact inRegions_cons.2 (.inl (inRegions_singleton.2 (by simp [frameRegion]; omega)))
    · exact inRegions_cons.2 (.inr (inRegions_singleton.2 (by simp [tableRegion]; omega)))

/-- A command whose checks pass is well formed: a kernel's group is in range (60_exceptions.md R166). -/
theorem wellFormed_of_checks {m : Memory} {i : Instr} (h : firstFault (checksOf m i) = none) :
    i.wellFormed = true := by
  have hg : ∀ {n grp src dst stride}, firstFault (kernelChecks n grp src dst stride) = none →
      groupInRange grp = true := fun h => by
    simpa [groupCheck] using firstFault_eq_none_iff.1 h (groupCheck _) (by simp [kernelChecks])
  cases i with
  | tr16x8 grp src dst stride => exact hg h
  | tr16x16 grp src dst stride => exact hg h
  | tr16x32 grp src dst stride => exact hg h
  | _ => rfl

/-- The next command finds the inputs of this one unchanged: no byte of `RD(cmd)` is written (20_memory.md R54). -/
theorem inputsAgree_after {i : Instr} {s : State} (h : s.mem.wf) (hd : DutiesTo i s) :
    InputsAgree s.mem (s.mem.writeSamples (outsOf s.mem i)) i :=
  .of_readFootprint fun b hb => readByte_outsOf_outside h (hd.inputApart b hb)

/-- After its writes a command has written the same bytes whatever memory they were made on, and left the other bytes of
that memory alone. -/
theorem readByte_outsOf_on {i : Instr} {s : State} (hm : s.mem.wf) {m : Memory} (hmw : m.wf) (hd : DutiesTo i s)
    (a : Nat) :
    (InRegions (writeFootprint s.mem i) a →
      Memory.readByte (m.writeSamples (outsOf s.mem i)) a =
        Memory.readByte (s.mem.writeSamples (outsOf s.mem i)) a) ∧
    (¬ InRegions (writeFootprint s.mem i) a →
      Memory.readByte (m.writeSamples (outsOf s.mem i)) a = m.readByte a) := by
  constructor
  · intro hin
    obtain ⟨c, hc, h1, h2⟩ := inRegions_writeFootprint.1 hin
    set b := a - gridBase s.mem i c with hb
    have hel : (gridBase s.mem i c + 2 * (b / 2), gridVal s.mem i c (b / 2)) ∈ outsOf s.mem i :=
      mem_outsOf.2 ⟨c, hc, b / 2, by omega, rfl⟩
    have h := Memory.readByte_writeSamples_inside hmw (outsOf_compatible hd) hel (k := b % 2) (by omega)
    have h' := Memory.readByte_writeSamples_inside hm (outsOf_compatible hd) hel (k := b % 2) (by omega)
    rw [show a = gridBase s.mem i c + 2 * (b / 2) + b % 2 by omega, h, h']
  · intro hn
    refine Memory.readByte_writeSamples_outside hmw fun e hel => ?_
    by_contra hc
    have := outsOf_inside hel (k := a - e.1) (by omega)
    exact hn (by rwa [show e.1 + (a - e.1) = a by omega] at this)

/-- A command that answers a next state answers one as well from a state that agrees with the first on its inputs and on
what the host holds, with the same code and the same samples (20_memory.md R61). -/
theorem exec_transfer {i : Instr} {s t s' : State} (h : exec i s = .next t) (hr : s'.readable = s.readable)
    (hw : s'.writable = s.writable) (ha : InputsAgree s.mem s'.mem i) :
    (∃ c, c ≠ Code.ok ∧ t = raise c s ∧ exec i s' = .next (raise c s')) ∨
    (DutiesTo i s ∧ t = complete .ok { s with mem := s.mem.writeSamples (outsOf s.mem i) } ∧
      exec i s' = .next (complete .ok { s' with mem := s'.mem.writeSamples (outsOf s.mem i) })) := by
  rcases exec_cases h with ⟨c, hc, rfl⟩ | ⟨hc, hd, rfl⟩
  · refine .inl ⟨c, ?_, rfl, ?_⟩
    · rintro rfl
      rw [(exec_ok h rfl).1] at hc
      cases hc
    by_cases hi : ∀ n src dst offset, i ≠ .trnP n src dst offset
    · exact exec_of_fault hi (by rw [checksOf_congr ha]; exact hc)
    · push Not at hi
      obtain ⟨n, src, dst, offset, rfl⟩ := hi
      simp only [checksOf, firstFault_append] at hc
      cases hf : firstFault (trnPChecks n src dst) with
      | some c' =>
        rw [hf, Option.some_or, Option.some.injEq] at hc
        exact exec_trnP_of_field_fault (hc ▸ hf)
      | none =>
        rw [hf, Option.none_or] at hc
        simp only [exec, execTrnP, hf] at h
        split at h
        · cases h
        · rename_i ht
          exact exec_trnP_of_pointer_fault hf ((footprintRefusal_eq_none_iff.1 ht).of_regions hr hw)
            (by rw [rowPointers_congr ha.2]; exact hc)
  · refine .inr ⟨hd, rfl, ?_⟩
    rw [exec_of_duties (by rw [checksOf_congr ha]; exact hc) (hd.transfer hr hw ha),
      outsOf_congr (wellFormed_of_checks hc) ha]

end Sys2Proof.Machine
end

