-- ==== Sys2Proof/Laws/PerInstr.lean ====
section
/-! SUPPORT. For every command: its encoding carries its opcode, `RSV` 0, and 0 in every field that must be 0
(30_encoding.md R85, R87). -/

namespace Sys2Proof.Laws.EncodedFields

/-- The encoding of the command has its opcode, `RSV = 0`, and 0 in each field its opcode does not take. -/
def Statement (i : Instr) : Prop :=
  Desc.op (encode i) = i.opcode.bits ∧ Desc.rsv (encode i) = 0 ∧
  (OperandName.grp ∉ i.opcode.operands → Desc.grp (encode i) = 0) ∧
  (OperandName.n ∉ i.opcode.operands → Desc.n (encode i) = 0) ∧
  (OperandName.stride ∉ i.opcode.operands → Desc.stride (encode i) = 0) ∧
  (OperandName.offset ∉ i.opcode.operands → Desc.offset (encode i) = 0)

theorem exp16 (src dst : Word) : Statement (.exp16 src dst) := by simp [Statement, encode]
theorem exp64 (src dst : Word) : Statement (.exp64 src dst) := by simp [Statement, encode]
theorem exp128 (src dst : Word) : Statement (.exp128 src dst) := by simp [Statement, encode]
theorem tr16x8 (grp : BitVec 8) (src dst : Word) (stride : Half) : Statement (.tr16x8 grp src dst stride) := by
  simp [Statement, encode, Instr.opcode, Opcode.operands]
theorem tr16x16 (grp : BitVec 8) (src dst : Word) (stride : Half) : Statement (.tr16x16 grp src dst stride) := by
  simp [Statement, encode, Instr.opcode, Opcode.operands]
theorem tr16x32 (grp : BitVec 8) (src dst : Word) (stride : Half) : Statement (.tr16x32 grp src dst stride) := by
  simp [Statement, encode, Instr.opcode, Opcode.operands]
theorem trnF (n : Half) (src dst : Word) (stride : Half) : Statement (.trnF n src dst stride) := by
  simp [Statement, encode, Instr.opcode, Opcode.operands]
theorem trnP (n : Half) (src dst : Word) (offset : Half) : Statement (.trnP n src dst offset) := by
  simp [Statement, encode, Instr.opcode, Opcode.operands]

end Sys2Proof.Laws.EncodedFields
end

