-- ==== Sys2Proof/Laws/Step.lean ====
section
/-! SUPPORT. What a step can do: one lemma per shared operation of the host's side, and the inversion of a step. -/

namespace Sys2Proof.Machine

@[simp] theorem actsRefusal_nil (rd wr : List Region) : actsRefusal rd wr [] = none := rfl

/-- A command the host lets run alone is its bits run. -/
@[simp] theorem submit_nil (d : Command) (s : State) : submit d [] s = runBits d s := rfl

theorem runBits_of_decode {d : Command} {i : Instr} (h : decode d = .ok i) (s : State) : runBits d s = exec i s := by
  simp [runBits, h]

theorem runBits_of_illegal {d : Command} {why : Illegal} (h : decode d = .error why) (s : State) :
    runBits d s = .next (raise .illegalCommand s) := by simp [runBits, h]

/-- Everything the submitted bits can do when they answer a next state. -/
theorem runBits_cases {d : Command} {s t : State} (h : runBits d s = .next t) :
    (∃ c, c ≠ Code.ok ∧ t = raise c s) ∨
    (∃ i, decode d = .ok i ∧ firstFault (checksOf s.mem i) = none ∧ DutiesTo i s ∧
      t = complete .ok { s with mem := s.mem.writeSamples (outsOf s.mem i) }) := by
  cases hd : decode d with
  | error why =>
    rw [runBits_of_illegal hd] at h
    exact .inl ⟨.illegalCommand, by decide, by simpa [eq_comm] using h⟩
  | ok i =>
    rw [runBits_of_decode hd] at h
    rcases exec_cases h with ⟨c, hc, rfl⟩ | ⟨hc, hdt, rfl⟩
    · refine .inl ⟨c, ?_, rfl⟩
      obtain ⟨k, hk, rfl⟩ := firstFault_mem hc
      cases i <;> simp only [checksOf, expandChecks, kernelChecks, trnFChecks, trnPChecks, pointerChecks,
        List.mem_cons, List.mem_append, List.mem_map, List.not_mem_nil, or_false] at hk
      case trnP => obtain (rfl | rfl | rfl) | ⟨p, -, rfl⟩ := hk <;> simp [tickCheck, alignCheck]
      all_goals
        rcases hk with rfl | rfl | rfl | rfl <;> simp [groupCheck, tickCheck, strideCheck, alignCheck]
    · exact .inr ⟨i, rfl, hc, hdt, rfl⟩

/-- What the host does beside a command changes memory, what it holds valid, and the replies, no register. -/
theorem apply_status (s : State) (a : HostAct) : (HostAct.apply s a).status = s.status := by cases a <;> rfl
theorem apply_ksel (s : State) (a : HostAct) : (HostAct.apply s a).ksel = s.ksel := by cases a <;> rfl
theorem apply_inbox (s : State) (a : HostAct) : (HostAct.apply s a).inbox = s.inbox := by cases a <;> rfl
theorem apply_draws (s : State) (a : HostAct) : (HostAct.apply s a).draws = s.draws := by cases a <;> rfl

theorem apply_wf {s : State} (h : s.mem.wf) (a : HostAct) : (HostAct.apply s a).mem.wf := by
  cases a with
  | store a v => exact Memory.wf_writeByte h _ _
  | _ => exact h

theorem apply_inSpace {s : State} (h : s.mem.inSpace) (a : HostAct) : (HostAct.apply s a).mem.inSpace := by
  cases a with
  | store a v => exact Memory.inSpace_writeByte h a.isLt _
  | _ => exact h

/-- A property that every act keeps holds after all of them. -/
theorem foldl_apply_induction {P : State → Prop} (hP : ∀ s a, P s → P (HostAct.apply s a)) {s : State} (h : P s)
    (acts : List HostAct) : P (acts.foldl HostAct.apply s) := by
  induction acts generalizing s with
  | nil => exact h
  | cons a acts ih => exact ih (hP s a h)

/-- A command beside which the host acts is refused for an act, or runs on the state the acts leave. -/
theorem besideCommand_cases {d : Command} {during : List HostAct} {s : State}
    {run : State → Host.Outcome State Fault Refusal} {o : Host.Outcome State Fault Refusal}
    (h : besideCommand d during s run = o) :
    (∃ r, actsRefusal (bitsRead d) (bitsWritten s.mem d) during = some r ∧ o = .refused r) ∨
    (actsRefusal (bitsRead d) (bitsWritten s.mem d) during = none ∧ o = run (during.foldl HostAct.apply s)) := by
  unfold besideCommand at h
  split at h
  · exact .inl ⟨_, by assumption, h.symm⟩
  · exact .inr ⟨by assumption, h.symm⟩

/-- A reset that cuts a command short answers what the command's own run and the reset leave. -/
theorem runCut_cases {d : Command} {s t : State} (h : runCut d s = .next t) :
    ∃ u, runBits d s = .next u ∧ t = cutShort s u := by
  unfold runCut at h
  split at h
  · exact ⟨_, by assumption, by simpa [eq_comm] using h⟩
  · simp at h
  · simp at h

/-- A step with no host action to come. -/
theorem step_of_empty {s : State} (h : s.inbox = []) : step s = .next s := by simp [step, runNext, h]

/-- A step takes the host's first action. -/
theorem step_of_cons {s : State} {e : HostEvent} {rest : List HostEvent} (h : s.inbox = e :: rest) :
    step s = runEvent e { s with inbox := rest } := by simp [step, runNext, h]

/-- Everything a step can do. -/
theorem step_cases {s t : State} (h : step s = .next t) :
    (s.inbox = [] ∧ t = s) ∨
    ∃ e rest, s.inbox = e :: rest ∧ runEvent e { s with inbox := rest } = .next t := by
  cases hi : s.inbox with
  | nil => exact .inl ⟨rfl, by rw [step_of_empty hi] at h; simpa [eq_comm] using h⟩
  | cons e rest => exact .inr ⟨e, rest, rfl, by rwa [step_of_cons hi] at h⟩

end Sys2Proof.Machine
end

