-- ==== Sys2Proof/Machine/Frame.lean ====
section
/-! DEFINITION. The words of a WIB frame that the block does not read: header, timestamp, cold-data headers
(30_encoding.md R73 to R75). No meaning uses them (R76); `FrameHeaderWordsHaveNoEffect` says that none could; log 24. -/

namespace Sys2Proof.Machine

/-- Word `w` of the frame at `f`, `w` from 0 to 29 (R73). -/
def frameWord (m : Memory) (f w : Nat) : Word := m.readWord (f + 8 * w)

/-- The fields of frame header word 0 (R74). -/
structure FrameHeader where
  commaChar : BitVec 8
  version : BitVec 5
  fiber : BitVec 3
  crate : BitVec 5
  slot : BitVec 3
  reserved : BitVec 24
  wibErrors : BitVec 16
deriving DecidableEq, Repr

/-- Frame header word 0, fields from bit 0 up (R74). -/
def frameHeader (w : Word) : FrameHeader where
  commaChar := w.extractLsb' 0 8
  version := w.extractLsb' 8 5
  fiber := w.extractLsb' 13 3
  crate := w.extractLsb' 16 5
  slot := w.extractLsb' 21 3
  reserved := w.extractLsb' 24 24
  wibErrors := w.extractLsb' 48 16

/-- Word 1: the 64-bit timestamp (R74). -/
def frameTimestamp (m : Memory) (f : Nat) : Word := frameWord m f 1

/-- The fields of a cold-data header pair (R75). -/
structure ColdDataHeader where
  streamError : BitVec 8
  reserved0 : BitVec 8
  checksums : BitVec 32
  convertCount : BitVec 16
  errorRegister : BitVec 16
  reserved1 : BitVec 16
  adcHeaders : BitVec 32
deriving DecidableEq, Repr

/-- A cold-data header pair, fields from bit 0 up (R75). -/
def coldDataHeader (first second : Word) : ColdDataHeader where
  streamError := first.extractLsb' 0 8
  reserved0 := first.extractLsb' 8 8
  checksums := first.extractLsb' 16 32
  convertCount := first.extractLsb' 48 16
  errorRegister := second.extractLsb' 0 16
  reserved1 := second.extractLsb' 16 16
  adcHeaders := second.extractLsb' 32 32

/-- The header pair of a link: words 2 and 3 for link A, 16 and 17 for link B (R73, R75). -/
def linkHeader (m : Memory) (f link : Nat) : ColdDataHeader :=
  coldDataHeader (frameWord m f (2 + 14 * link)) (frameWord m f (3 + 14 * link))

end Sys2Proof.Machine
end

