-- ==== Sys2Proof/Tests/Slice0.lean ====
section
/-! SUPPORT. The model's own tests, their expected results from spec/95_test_vectors.md, and for every statement with
hypotheses a concrete state and operands that meet them (`witness_<statement>`). -/

open Sys2Proof Sys2Proof.Machine

namespace Sys2Proof.Tests

/-! ### Well-formedness (30_encoding.md R87) -/

theorem test_wellFormed_refuses_tr16x8_group_8 : (Instr.tr16x8 8 0 0 8).wellFormed = false := by decide
theorem test_wellFormed_refuses_tr16x16_group_9 : (Instr.tr16x16 9 0 0 16).wellFormed = false := by decide
theorem test_wellFormed_refuses_tr16x32_group_255 : (Instr.tr16x32 255 0 0 32).wellFormed = false := by decide
theorem test_wellFormed_takes_group_7 : (Instr.tr16x8 7 0 0 8).wellFormed = true := by decide

/-! ### Decoding (95_test_vectors.md section 2.6) -/

theorem test_decode_exp16 : decode (Command.ofWords 0x10 0x1000 0x7000 0) = .ok (.exp16 0x1000 0x7000) := by decide
theorem test_decode_exp64 : decode (Command.ofWords 0x11 0x100 0x400 0) = .ok (.exp64 0x100 0x400) := by decide
theorem test_decode_exp128 : decode (Command.ofWords 0x12 0x2000 0x2400 0) = .ok (.exp128 0x2000 0x2400) := by decide
theorem test_decode_tr16x8 :
    decode (Command.ofWords 0x520 0x10000 0x30000 0xC) = .ok (.tr16x8 5 0x10000 0x30000 12) := by decide
theorem test_decode_tr16x16 :
    decode (Command.ofWords 0x21 0x10000 0x30000 0x10) = .ok (.tr16x16 0 0x10000 0x30000 16) := by decide
theorem test_decode_tr16x32 :
    decode (Command.ofWords 0x722 0x10000 0x30000 0x20) = .ok (.tr16x32 7 0x10000 0x30000 32) := by decide
theorem test_decode_trnF :
    decode (Command.ofWords 0x2800000030 0x10000 0x20000 0x30) = .ok (.trnF 40 0x10000 0x20000 48) := by decide
theorem test_decode_trnP :
    decode (Command.ofWords 0x1800000031 0x10000 0x3000 0x500000000) = .ok (.trnP 24 0x10000 0x3000 5) := by decide

/-- The pattern is refused by the decoder. -/
def illegal (d : Command) : Bool :=
  match decode d with
  | .ok _ => false
  | .error _ => true

/-- The illegal patterns printed there: reserved opcodes, then a reserved or must-be-zero field, then a group of 8. -/
theorem test_decode_refuses_reserved_opcodes :
    [0, Command.ofWords 0x13 0x1000 0x7000 0, Command.ofWords 0x800000032 0x1000 0x7000 0,
      Command.ofWords 0xFF 0 0 0].all illegal = true := by decide
theorem test_decode_refuses_nonzero_fields :
    [Command.ofWords 0x10010 0x1000 0x7000 0, Command.ofWords 0x800000010 0x1000 0x7000 0,
      Command.ofWords 0x800000020 0x10000 0x30000 8, Command.ofWords 0x800000030 0x10000 0x20000 0x100000008,
      Command.ofWords 0x800000031 0x10000 0x3000 1].all illegal = true := by decide
theorem test_decode_refuses_group_8 : decode (Command.ofWords 0x820 0x10000 0x30000 8) = .error .groupRange := by decide

/-- `EXP16 src=0x1000 dst=0x7000` as the 32 bytes printed there. -/
theorem test_decodeBytes_exp16 :
    decodeBytes [0x10, 0, 0, 0, 0, 0, 0, 0, 0, 0x10, 0, 0, 0, 0, 0, 0, 0, 0x70, 0, 0, 0, 0, 0, 0,
      0, 0, 0, 0, 0, 0, 0, 0] = .ok (.exp16 0x1000 0x7000) := by decide +kernel

/-- `TRN.P n=24 src=0x10000 dst=0x3000 offset=5` as the 32 bytes printed there, both ways. -/
theorem test_bytes_trnP :
    Command.bytes (encode (.trnP 24 0x10000 0x3000 5)) =
      [0x31, 0, 0, 0, 0x18, 0, 0, 0, 0, 0, 1, 0, 0, 0, 0, 0, 0, 0x30, 0, 0, 0, 0, 0, 0, 0, 0, 0, 0, 5, 0, 0, 0] ∧
    decodeBytes (Command.bytes (encode (.trnP 24 0x10000 0x3000 5))) = .ok (.trnP 24 0x10000 0x3000 5) := by
  decide +kernel

theorem test_decodeBytes_refuses_31_bytes : decodeBytes (List.replicate 31 0x10) = .error .wrongLength := by decide

theorem test_decodeTableWord_trnF : decodeTableWord 256 0x30 = some (.trnF 0 0 0 0) := by decide +kernel

theorem test_encodeWords_trnF :
    encodeWords (.trnF 40 0x10000 0x20000 48) = [0x2800000030, 0x10000, 0x20000, 0x30] := by decide

/-- The assembly column: operands in any order, an operand not written is 0. -/
theorem test_assemble_tr16x8 : assemble ⟨.tr16x8, [(.stride, 12), (.grp, 5), (.src, 0x10000), (.dst, 0x30000)]⟩ =
    .ok (Command.ofWords 0x520 0x10000 0x30000 0xC) := by decide
theorem test_assemble_refuses_an_operand_not_taken :
    assemble ⟨.exp16, [(.src, 0x1000), (.dst, 0x7000), (.n, 0)]⟩ = .error .operandNotTaken := by decide

/-! ### Data (95_test_vectors.md section 2.1, 30_encoding.md R74, R77) -/

/-- V-X3: lane `i` is `0x111·i`. -/
theorem test_unpack16_every_lane_distinct :
    unpack16 0x5444333222111000 0xAA99988877766655 0xFFFEEEDDDCCCBBBA =
      [0, 0x111, 0x222, 0x333, 0x444, 0x555, 0x666, 0x777, 0x888, 0x999, 0xAAA, 0xBBB, 0xCCC, 0xDDD, 0xEEE, 0xFFF] := by
  decide

/-- V-X7: lane 11 alone, which the source's misprint would lose. -/
theorem test_unpack16_lane_11 :
    unpack16 0 0 0xFFF0 = [0, 0, 0, 0, 0, 0, 0, 0, 0, 0, 0, 0xFFF, 0, 0, 0, 0] := by decide

/-- V-X9. -/
theorem test_unpack16_arbitrary_data :
    unpack16 0x325118BCA24D3A5C 0xC01336DE1DBBB330 0x2E77B323CD61DE02 =
      [0xA5C, 0x4D3, 0xCA2, 0x18B, 0x251, 0x303, 0xBB3, 0x1DB, 0x6DE, 0x133, 0x2C0, 0xDE0, 0xD61, 0x23C, 0x7B3, 0x2E7] := by
  decide

/-- The words `pack` gives for the one-hot lane 5, which straddles two words. -/
theorem test_pack_lane_5 :
    pack [0, 0, 0, 0, 0, 0xFFF, 0, 0, 0, 0, 0, 0, 0, 0, 0, 0] = [0xF000000000000000, 0xFF, 0] := by decide

/-- The fields of frame header word 0 by their bits (R74). -/
theorem test_frameHeader_fields : frameHeader 0xABCD12345656A5BC = ⟨0xBC, 0x05, 0x5, 0x16, 0x2, 0x123456, 0xABCD⟩ := by
  decide

/-! ### One command on a small state -/

/-- A state with the memory given; `CR.STATUS` holds an older code. -/
def demo (m : Memory) : State where
  mem := m
  status := 3
  ksel := 1
  inbox := []
  replies := []
  readable := [wholeSpace]
  writable := [wholeSpace]
  draws := 0

/-- Words stored one after another from `a`. -/
def putWords (m : Memory) (a : Nat) (ws : List Word) : Memory :=
  ws.zipIdx.foldl (fun m wj => m.memWrite (a + 8 * wj.2) 8 wj.1.toNat) m

/-- The code the command ends with and the sample then at `a`; none where it does not complete. -/
def codeAndSample (i : Instr) (m : Memory) (a : Nat) : Option (BitVec 8 × Sample) :=
  match exec i (demo m) with
  | .next t => some (t.status, t.mem.readSample a)
  | _ => none

/-- V-X3 through `EXP16`: lane 11. -/
theorem test_exp16_lane_11 : codeAndSample (.exp16 0x1000 0x7000)
    (putWords [] 0x1000 [0x5444333222111000, 0xAA99988877766655, 0xFFFEEEDDDCCCBBBA]) 0x7016 = some (0, 0xBBB) := by
  decide +kernel

/-- V-E1: ADC 1 is `0x41`. -/
theorem test_exp64_adc_1 : codeAndSample (.exp64 0x100 0x400) (putWords [] 0x100 [0x51040C3082041000]) 0x402 =
    some (0, 0x41) := by decide +kernel

/-- V-F1: channel 64 comes from word 18. -/
theorem test_exp128_channel_64 : codeAndSample (.exp128 0x2000 0x2400) (putWords [] 0x2090 [0x5044043042041040]) 0x2480 =
    some (0, 0x40) := by decide +kernel

/-- V-K1: row 1, time 1, from frame 1's words of group 5. -/
theorem test_tr16x8_row_1_time_1 : codeAndSample (.tr16x8 5 0x10000 0x30000 12)
    (putWords [] 0x10198 [0x1A81A61A41A21A01, 0x41B21B01AE1AC1AA, 0xBE1BC1BA1B81B61B]) 0x3001A = some (0, 0xA21) := by
  decide +kernel

/-- V-K1: the padding sample 8 of row 0 keeps its bytes. -/
theorem test_tr16x8_padding : codeAndSample (.tr16x8 5 0x10000 0x30000 12) [(0x30010, 0xEE), (0x30011, 0xEE)] 0x30010 =
    some (0, 0xEEEE) := by decide +kernel

/-- V-K4: no command runs, each with its code, and memory keeps the byte at `DST`. -/
theorem test_kernel_faults :
    [codeAndSample (.tr16x8 8 0x10000 0x30000 8) [(0x30000, 0xEE)] 0x30000,
     codeAndSample (.tr16x16 0 0x10000 0x30000 15) [(0x30000, 0xEE)] 0x30000,
     codeAndSample (.tr16x32 0 0x10004 0x30000 32) [(0x30000, 0xEE)] 0x30000,
     codeAndSample (.tr16x8 0 0x10000 0x30001 8) [(0x30000, 0xEE)] 0x30000] =
    [some (2, 0xEE), some (4, 0xEE), some (3, 0xEE), some (3, 0xEE)] := by decide +kernel

/-- V-T5, the rows of `TRN.F`. -/
theorem test_trnF_faults :
    [codeAndSample (.trnF 12 0x10000 0x20000 48) [(0x20000, 0xEE)] 0x20000,
     codeAndSample (.trnF 16 0x10000 0x20000 15) [(0x20000, 0xEE)] 0x20000,
     codeAndSample (.trnF 16 0x10002 0x20000 16) [(0x20000, 0xEE)] 0x20000,
     codeAndSample (.trnF 16 0x10000 0x20001 16) [(0x20000, 0xEE)] 0x20000,
     codeAndSample (.trnF 12 0x10002 0x20001 4) [(0x20000, 0xEE)] 0x20000,
     codeAndSample (.trnF 16 0x10002 0x20000 4) [(0x20000, 0xEE)] 0x20000] =
    [some (1, 0xEE), some (4, 0xEE), some (3, 0xEE), some (3, 0xEE), some (1, 0xEE), some (4, 0xEE)] := by
  decide +kernel

/-- V-T5, the rows of `TRN.P`: `P[77]` is odd in the last two. -/
theorem test_trnP_faults :
    [codeAndSample (.trnP 4 0x10000 0x3000 0) [] 0x3000,
     codeAndSample (.trnP 8 0x10000 0x3004 0) [] 0x3000,
     codeAndSample (.trnP 8 0x10000 0x3000 0) (putWords [] 0x3268 [0x41901]) 0x3268,
     codeAndSample (.trnP 0 0x10000 0x3000 0) (putWords [] 0x3268 [0x41901]) 0x3268] =
    [some (1, 0), some (3, 0), some (3, 0x1901), some (3, 0x1901)] := by decide +kernel

/-- 95_test_vectors.md section 2.7: the output of this `TRN.F` meets its input, so it is refused. -/
theorem test_trnF_refused_when_output_meets_input :
    footprintRefusal (demo []) (readFootprint (.trnF 8 0x10000 0x10100 8)) (writeFootprint [] (.trnF 8 0x10000 0x10100 8)) =
      some .outputAliasesInput := by decide +kernel

/-- The same section: two equal row pointers are refused (here all 128 are 0). -/
theorem test_trnP_refused_when_rows_meet :
    footprintRefusal (demo []) (readFootprint (.trnP 8 0x10000 0x3000 0)) (writeFootprint [] (.trnP 8 0x10000 0x3000 0)) =
      some .outputAliasesItself := by decide +kernel

/-- A `TRN.P` that would write samples 4 on of row 0 is refused when the samples before them are not the host's
(20_memory.md R50, 90_conflicts.md C8). -/
theorem test_buffers_refused_when_the_lead_in_is_not_held :
    buffersRefusal { demo [] with writable := [⟨0x9008, 0x1000⟩] } [⟨0x9000, 2 * (4 + 8)⟩] = some .outputNotValid ∧
    buffersRefusal { demo [] with writable := [⟨0x9000, 0x1000⟩] } [⟨0x9000, 2 * (4 + 8)⟩] = none := by decide

/-! ### Commands for the witnesses -/

def c16 : Instr := .exp16 0x1000 0x7000
def c64 : Instr := .exp64 0x1000 0x7000
def c128 : Instr := .exp128 0x1000 0x7000
def k8 : Instr := .tr16x8 7 0x10000 0x30000 8
def k16 : Instr := .tr16x16 7 0x10000 0x30000 16
def k32 : Instr := .tr16x32 7 0x10000 0x30000 32
def f16 : Instr := .trnF 16 0x10000 0x30000 17
def p16 : Instr := .trnP 16 0x11000 0x3000 4

/-- Memory with the row pointers `P[c] = 0x10000·(c + 1)` for `c < n` in the table at `0x3000`. -/
def tableMem (n : Nat) : Memory :=
  (List.range n).foldl (fun m c => m.writeByte (0x3000 + 8 * c + 2) (BitVec.ofNat 8 (c + 1))) []

theorem tableMem_wf (n : Nat) : (tableMem n).wf := by
  induction n with
  | zero => exact Memory.wf_nil
  | succ n ih =>
    rw [tableMem, List.range_succ, List.foldl_append]
    exact Memory.wf_writeByte ih _ _

theorem readByte_tableMem (n a : Nat) :
    (tableMem n).readByte a =
      if 0x3002 ≤ a ∧ a % 8 = 2 ∧ a < 0x3002 + 8 * n then BitVec.ofNat 8 ((a - 0x3002) / 8 + 1) else 0 := by
  induction n with
  | zero => rw [if_neg (by omega)]; rfl
  | succ n ih =>
    have : tableMem (n + 1) = (tableMem n).writeByte (0x3000 + 8 * n + 2) (BitVec.ofNat 8 (n + 1)) := by
      rw [tableMem, List.range_succ, List.foldl_append]
      rfl
    rw [this, Memory.readByte_writeByte (tableMem_wf n), ih]
    by_cases ha : a = 0x3000 + 8 * n + 2
    · subst ha
      rw [if_pos rfl, if_pos (by omega)]
      congr 1
      omega
    · rw [if_neg ha]
      split <;> split <;> first | rfl | omega

/-- Row pointer `c` of the table. -/
theorem pointer_tableMem {c : Nat} (hc : c < 128) :
    ((tableMem 128).readWord (0x3000 + 8 * c)).toNat = 0x10000 * (c + 1) := by
  have hb : ∀ k, k < 8 → k ≠ 2 → (tableMem 128).readByte (0x3000 + 8 * c + k) = 0 := fun k hk hne => by
    rw [readByte_tableMem, if_neg (by omega)]
  have h2 : ((tableMem 128).readByte (0x3000 + 8 * c + 2)).toNat = c + 1 := by
    rw [readByte_tableMem, if_pos (by omega), BitVec.toNat_ofNat]
    omega
  have h0 := hb 0 (by omega) (by omega)
  have h1 := hb 1 (by omega) (by omega)
  have h3 := hb 3 (by omega) (by omega)
  have h4 := hb 4 (by omega) (by omega)
  have h5 := hb 5 (by omega) (by omega)
  have h6 := hb 6 (by omega) (by omega)
  have h7 := hb 7 (by omega) (by omega)
  rw [Nat.add_zero] at h0
  simp only [Memory.readWord, Memory.memRead, Nat.add_assoc, Nat.reduceAdd] at *
  rw [h0, h1, h2, h3, h4, h5, h6, h7]
  simp only [BitVec.toNat_ofNat, BitVec.ofNat_eq_ofNat]
  omega

theorem even_tableMem : ∀ c < 128, ((tableMem 128).readWord (0x3000 + 8 * c)).toNat % 2 = 0 := fun c hc => by
  rw [pointer_tableMem hc]
  omega

/-- The host's duties towards a command whose rows are far apart. -/
theorem duties_demo (m : Memory) {i : Instr}
    (hr : ∀ r ∈ readFootprint i, r.base + r.len ≤ 0x20000)
    (hw : ∀ c < gridRows i, gridBase m i c + 2 * gridLen i ≤ 2 ^ 32)
    (hrw : ∀ c < gridRows i, ∀ r ∈ readFootprint i,
      r.base + r.len ≤ gridBase m i c ∨ gridBase m i c + 2 * gridLen i ≤ r.base)
    (ha : ∀ c c', c < c' → c' < gridRows i → gridBase m i c + 2 * gridLen i ≤ gridBase m i c')
    (hb : ∀ r ∈ writeBuffers m i, r.base + r.len ≤ 2 ^ 32 := by exact fun _ h => nomatch h) :
    DutiesTo i (demo m) where
  fits r hm _ := by
    rcases List.mem_append.1 hm with h | h
    · have := hr r h
      omega
    · rw [demo, writeFootprint_eq] at h
      obtain ⟨c, hc, rfl⟩ := List.mem_map.1 h
      have := hw c (by simpa using hc)
      simp only
      omega
  inputValid a := fun ⟨r, hm, h⟩ => ⟨wholeSpace, by simp [demo], by simp [wholeSpace], by
    have := hr r hm
    simp only [wholeSpace]
    omega⟩
  outputValid a h := by
    obtain ⟨c, hc, h1, h2⟩ := inRegions_writeFootprint.1 h
    have := hw c hc
    exact ⟨wholeSpace, by simp [demo], by simp [wholeSpace], by simp only [wholeSpace]; simp only [demo] at *; omega⟩
  inputApart a := fun ⟨r, hm, h⟩ hb => by
    obtain ⟨c, hc, h1, h2⟩ := inRegions_writeFootprint.1 hb
    have := hrw c hc r hm
    simp only [demo] at *
    omega
  rowsApart := by
    rw [writeFootprint_eq, List.pairwise_map]
    refine List.Pairwise.imp_of_mem (fun {c c'} hc hc' hlt => ?_) List.pairwise_lt_range
    intro a h1 h2
    rw [inRegions_singleton] at h1 h2
    have := ha c c' hlt (by simpa using hc')
    simp only [demo] at *
    omega
  buffers :=
    { fits := fun r hm _ => by
        have := hb r hm
        omega
      valid := fun a ⟨r, hm, h⟩ => ⟨wholeSpace, by simp [demo], by simp [wholeSpace], by
        have := hb r hm
        simp only [wholeSpace]
        omega⟩ }

theorem duties_c16 (m : Memory) : DutiesTo c16 (demo m) :=
  duties_demo m (by simp [readFootprint, c16]) (by simp [gridRows, gridBase, gridLen, c16])
    (by simp [gridRows, gridBase, gridLen, readFootprint, c16]) (by simp [gridRows, c16]; omega)
theorem duties_c64 (m : Memory) : DutiesTo c64 (demo m) :=
  duties_demo m (by simp [readFootprint, c64]) (by simp [gridRows, gridBase, gridLen, c64])
    (by simp [gridRows, gridBase, gridLen, readFootprint, c64]) (by simp [gridRows, c64]; omega)
theorem duties_c128 (m : Memory) : DutiesTo c128 (demo m) :=
  duties_demo m (by simp [readFootprint, frameRegion, c128]) (by simp [gridRows, gridBase, gridLen, c128])
    (by simp [gridRows, gridBase, gridLen, readFootprint, frameRegion, c128]) (by simp [gridRows, c128]; omega)
theorem duties_k8 (m : Memory) : DutiesTo k8 (demo m) :=
  duties_demo m (by simp [readFootprint, frameRegion, k8])
    (by simp [gridRows, gridBase, gridLen, flatAddr, k8]; omega)
    (by simp [gridRows, gridBase, gridLen, flatAddr, readFootprint, frameRegion, k8]; omega)
    (by simp [gridRows, gridBase, gridLen, flatAddr, k8]; omega)
theorem duties_k16 (m : Memory) : DutiesTo k16 (demo m) :=
  duties_demo m (by simp [readFootprint, frameRegion, k16])
    (by simp [gridRows, gridBase, gridLen, flatAddr, k16]; omega)
    (by simp [gridRows, gridBase, gridLen, flatAddr, readFootprint, frameRegion, k16]; omega)
    (by simp [gridRows, gridBase, gridLen, flatAddr, k16]; omega)
theorem duties_k32 (m : Memory) : DutiesTo k32 (demo m) :=
  duties_demo m (by simp [readFootprint, frameRegion, k32])
    (by simp [gridRows, gridBase, gridLen, flatAddr, k32]; omega)
    (by simp [gridRows, gridBase, gridLen, flatAddr, readFootprint, frameRegion, k32]; omega)
    (by simp [gridRows, gridBase, gridLen, flatAddr, k32]; omega)
theorem duties_f16 (m : Memory) : DutiesTo f16 (demo m) :=
  duties_demo m (by simp [readFootprint, frameRegion, f16])
    (by simp [gridRows, gridBase, gridLen, flatAddr, f16]; omega)
    (by simp [gridRows, gridBase, gridLen, flatAddr, readFootprint, frameRegion, f16]; omega)
    (by simp [gridRows, gridBase, gridLen, flatAddr, f16]; omega)

theorem rowPointers_tableMem {c : Nat} (hc : c < 128) :
    ((rowPointers (tableMem 128) 0x3000).getD c 0).toNat = 0x10000 * (c + 1) := by
  have : (rowPointers (tableMem 128) 0x3000).getD c 0 = (tableMem 128).readWord (0x3000 + 8 * c) := by
    simp [rowPointers, Memory.readWords, List.getD, hc]
  rw [this, pointer_tableMem hc]

/-- Row `c` of a `TRN.P` over the table. -/
theorem rowAddr_tableMem {c : Nat} (hc : c < 128) (offset t : Nat) :
    rowAddr (rowPointers (tableMem 128) 0x3000) offset c t = 0x10000 * (c + 1) + 2 * (offset + t) := by
  rw [rowAddr, rowPointers_tableMem hc]

/-- The host's duties towards a `TRN.P` of 16 frames or fewer over the table. -/
theorem duties_trnP {n : Half} (hn : n.toNat ≤ 16) {offset : Half} (ho : offset.toNat ≤ 100) :
    DutiesTo (.trnP n 0x11000 0x3000 offset) (demo (tableMem 128)) := by
  have hb : ∀ c < 128, gridBase (tableMem 128) (.trnP n 0x11000 0x3000 offset) c =
      0x10000 * (c + 1) + 2 * (offset.toNat + 0) := fun c hc => rowAddr_tableMem hc _ _
  refine duties_demo _ ?_ ?_ ?_ ?_ ?_
  · simp [readFootprint, frameRegion, tableRegion]; omega
  · intro c hc
    rw [hb c hc]
    simp only [gridLen, gridRows] at *
    omega
  · intro c hc r hr
    rw [hb c hc]
    simp [readFootprint, frameRegion, tableRegion, gridLen, gridRows] at *
    rcases hr with rfl | rfl <;> simp only <;> omega
  · intro c c' hlt hc'
    rw [hb c (Nat.lt_trans hlt hc'), hb c' hc']
    simp only [gridLen, gridRows] at *
    omega
  · intro r hr
    obtain ⟨c, hc, rfl⟩ := List.mem_map.1 hr
    have hc : c < 128 := by simpa using hc
    have := rowPointers_tableMem hc
    simp only [BitVec.reduceToNat] at this ⊢
    omega

theorem checks_trnP {n : Half} (hn : n.toNat % 8 = 0) {offset : Half} :
    firstFault (checksOf (tableMem 128) (.trnP n 0x11000 0x3000 offset)) = none := by
  rw [checksOf, firstFault_append, Option.or_eq_none_iff, trnPChecks_pass_iff, pointerChecks_pass_iff]
  exact ⟨⟨hn, by decide, by decide⟩, even_tableMem⟩

/-- Each command completes with `OK` on the demo state. -/
theorem runs {m : Memory} {i : Instr} (hc : firstFault (checksOf m i) = none) (hd : DutiesTo i (demo m)) :
    ∃ t, exec i (demo m) = .next t ∧ t.status = 0 := ⟨_, exec_of_duties hc hd, rfl⟩
theorem runs_c16 (m : Memory) : ∃ t, exec c16 (demo m) = .next t ∧ t.status = 0 := runs rfl (duties_c16 m)
theorem runs_c64 (m : Memory) : ∃ t, exec c64 (demo m) = .next t ∧ t.status = 0 := runs rfl (duties_c64 m)
theorem runs_c128 (m : Memory) : ∃ t, exec c128 (demo m) = .next t ∧ t.status = 0 := runs rfl (duties_c128 m)
theorem runs_k8 (m : Memory) : ∃ t, exec k8 (demo m) = .next t ∧ t.status = 0 := runs rfl (duties_k8 m)
theorem runs_k16 (m : Memory) : ∃ t, exec k16 (demo m) = .next t ∧ t.status = 0 := runs rfl (duties_k16 m)
theorem runs_k32 (m : Memory) : ∃ t, exec k32 (demo m) = .next t ∧ t.status = 0 := runs rfl (duties_k32 m)
theorem runs_f16 (m : Memory) : ∃ t, exec f16 (demo m) = .next t ∧ t.status = 0 := runs rfl (duties_f16 m)
theorem runs_p16 : ∃ t, exec p16 (demo (tableMem 128)) = .next t ∧ t.status = 0 :=
  runs (checks_trnP (by decide)) (duties_trnP (by decide) (by decide))

/-- Sample `t` of row `c` of a full transpose is lane `c mod 16` of group `c div 16` of frame `t`: with the words of V-X3
as group 2 of frame 1, row 40 has `0x888` at time 1, in both output forms at the address of R80 and R81. -/
theorem test_trnF_row_40_time_1 :
    gridVal (putWords [] 0x10140 [0x5444333222111000, 0xAA99988877766655, 0xFFFEEEDDDCCCBBBA]) f16 40 1 = 0x888 ∧
    gridBase [] f16 40 + 2 * 1 = 0x30000 + 2 * (40 * 17 + 1) := by decide +kernel
theorem test_trnP_row_40_time_1 :
    gridVal (putWords [] 0x11140 [0x5444333222111000, 0xAA99988877766655, 0xFFFEEEDDDCCCBBBA]) p16 40 1 = 0x888 ∧
    gridBase (putWords [] 0x3140 [0x290000]) p16 40 + 2 * 1 = 0x290000 + 2 * (4 + 1) := by decide +kernel

/-! ### Witnesses: encoding and data -/

theorem witness_DecodeOfEncodeIsTheCommand :
    k8.wellFormed = true ∧ k16.wellFormed = true ∧ k32.wellFormed = true ∧ p16.wellFormed = true := by decide

theorem witness_EncodeOfDecodeIsThePattern :
    decode (Command.ofWords 0x520 0x10000 0x30000 0xC) = .ok (.tr16x8 5 0x10000 0x30000 12) := by decide

/-- One pattern for each of the six conditions, and a legal one. -/
theorem witness_IllegalPatternsCompleteWithIllegalCommand :
    IllegalByR87 0x13 ∧ IllegalByR87 0x10010 ∧ IllegalByR87 0x110 ∧ IllegalByR87 0x820 ∧ IllegalByR87 0x130 ∧
    IllegalByR87 0x131 ∧ ¬ IllegalByR87 0x720 := by
  refine ⟨.inl (by decide), .inr (.inl (by decide)), .inr (.inr (.inl (by decide))),
    .inr (.inr (.inr (.inl (by decide)))), .inr (.inr (.inr (.inr (.inl (by decide))))),
    .inr (.inr (.inr (.inr (.inr (by decide))))), ?_⟩
  unfold IllegalByR87
  decide

theorem witness_DecodeAgreesWithTheOpcodeTable :
    decode 0x720 = .ok (.tr16x8 7 0 0 0) ∧ decode 0x820 = .error .groupRange := by decide

theorem witness_AssembledLinesDecodeToTheirMnemonic :
    (∃ d, assemble ⟨.trnP, [(.n, 24), (.src, 0x10000), (.dst, 0x3000), (.offset, 5)]⟩ = .ok d) ∧
    (∃ d, assemble ⟨.tr16x8, [(.grp, 8)]⟩ = .ok d) := ⟨⟨_, rfl⟩, ⟨_, rfl⟩⟩

theorem witness_UnpackOfALinkIsTheStream : (List.replicate 12 (0x5A5A5A5A5A5A5A5A : Word)).length = 12 := by simp

/-- The first and the last channel of each link and of a group. -/
theorem witness_ChannelsLieWhereTheFramePutsThem :
    [0, 15, 16, 63, 64, 127].map (fun c => (c / 64, c % 64, c / 16, c % 16)) =
      [(0, 0, 0, 0), (0, 15, 0, 15), (0, 16, 1, 0), (0, 63, 3, 15), (1, 0, 4, 0), (1, 63, 7, 15)] := by decide

/-- Lists of each length, and a frame in which each link holds the packing of its 64 values (all 0). -/
theorem witness_ExpansionUndoesPacking :
    (List.replicate 16 (0xFFF : Adc)).length = 16 ∧ (List.replicate 64 (0xFFF : Adc)).length = 64 ∧
    ∃ (m : Memory) (f : Nat) (xs : List Adc), xs.length = 128 ∧ m.readWords (f + 32) 12 = pack (xs.take 64) ∧
      m.readWords (f + 144) 12 = pack (xs.drop 64) :=
  ⟨by simp, by simp, [], 0, List.replicate 128 0, by simp, by decide +kernel, by decide +kernel⟩

theorem witness_PackingUndoesExpansion : (List.replicate 12 (0x5A5A5A5A5A5A5A5A : Word)).length = 12 := by simp

/-! ### Witnesses: what each command does -/

theorem witness_Exp16WritesTheSixteenLanes : (demo []).mem.wf ∧ (0x1000 : Word).toNat % 8 = 0 ∧
    (0x7000 : Word).toNat % 2 = 0 ∧ Duties (demo []) [⟨(0x1000 : Word).toNat, 24⟩] [⟨(0x7000 : Word).toNat, 32⟩] :=
  ⟨Memory.wf_nil, by decide, by decide, (duties_c16 []).toDuties⟩

theorem witness_Exp64WritesTheLinkInOrder : (demo []).mem.wf ∧ (0x1000 : Word).toNat % 8 = 0 ∧
    (0x7000 : Word).toNat % 2 = 0 ∧ Duties (demo []) [⟨(0x1000 : Word).toNat, 96⟩] [⟨(0x7000 : Word).toNat, 128⟩] :=
  ⟨Memory.wf_nil, by decide, by decide, (duties_c64 []).toDuties⟩

theorem witness_Exp128WritesTheFrameInChannelOrder : (demo []).mem.wf ∧ (0x1000 : Word).toNat % 8 = 0 ∧
    (0x7000 : Word).toNat % 2 = 0 ∧ Duties (demo []) [⟨(0x1000 : Word).toNat, 240⟩] [⟨(0x7000 : Word).toNat, 256⟩] :=
  ⟨Memory.wf_nil, by decide, by decide, (duties_c128 []).toDuties⟩

/-- Each kernel at the last group and at its smallest stride. -/
theorem witness_KernelsTransposeTheirGroup :
    (demo []).mem.wf ∧ (7 : BitVec 8).toNat ≤ 7 ∧ 8 ≤ (8 : Half).toNat ∧ 16 ≤ (16 : Half).toNat ∧
    32 ≤ (32 : Half).toNat ∧ (0x10000 : Word).toNat % 8 = 0 ∧ (0x30000 : Word).toNat % 2 = 0 ∧
    Duties (demo []) [⟨(0x10000 : Word).toNat, 240 * 8⟩]
      ((List.range 16).map fun i => ⟨(0x30000 : Word).toNat + 2 * (i * (8 : Half).toNat), 2 * 8⟩) ∧
    Duties (demo []) [⟨(0x10000 : Word).toNat, 240 * 16⟩]
      ((List.range 16).map fun i => ⟨(0x30000 : Word).toNat + 2 * (i * (16 : Half).toNat), 2 * 16⟩) ∧
    Duties (demo []) [⟨(0x10000 : Word).toNat, 240 * 32⟩]
      ((List.range 16).map fun i => ⟨(0x30000 : Word).toNat + 2 * (i * (32 : Half).toNat), 2 * 32⟩) :=
  ⟨Memory.wf_nil, by decide, by decide, by decide, by decide, by decide, by decide,
    (duties_k8 []).toDuties, (duties_k16 []).toDuties, (duties_k32 []).toDuties⟩

theorem witness_TrnFWritesEveryChannelRow : (demo []).mem.wf ∧ (16 : Half).toNat % 8 = 0 ∧
    (16 : Half).toNat ≤ (17 : Half).toNat ∧ (0x10000 : Word).toNat % 8 = 0 ∧ (0x30000 : Word).toNat % 2 = 0 ∧
    Duties (demo []) [⟨(0x10000 : Word).toNat, 240 * (16 : Half).toNat⟩]
      ((List.range 128).map fun c => ⟨(0x30000 : Word).toNat + 2 * (c * (17 : Half).toNat), 2 * (16 : Half).toNat⟩) :=
  ⟨Memory.wf_nil, by decide, by decide, by decide, by decide, (duties_f16 []).toDuties⟩

/-- Rows of `k` samples from the pointers of the table are the host's. -/
theorem held_tableMem {k : Nat} (hk : k ≤ 200) : Held (demo (tableMem 128)) ((List.range 128).map fun c =>
    ⟨((demo (tableMem 128)).mem.readWord ((0x3000 : Word).toNat + 8 * c)).toNat, 2 * k⟩) := by
  have hb : ∀ r ∈ (List.range 128).map fun c =>
      (⟨((demo (tableMem 128)).mem.readWord ((0x3000 : Word).toNat + 8 * c)).toNat, 2 * k⟩ : Region),
      r.base + r.len ≤ 2 ^ 32 := fun r hr => by
    obtain ⟨c, hc, rfl⟩ := List.mem_map.1 hr
    have hc : c < 128 := by simpa using hc
    have hp : ((demo (tableMem 128)).mem.readWord ((0x3000 : Word).toNat + 8 * c)).toNat = 0x10000 * (c + 1) :=
      pointer_tableMem hc
    simp only [hp]
    omega
  refine ⟨fun r hr _ => ?_, fun a ⟨r, hr, h⟩ => ⟨wholeSpace, by simp [demo], by simp [wholeSpace], ?_⟩⟩
  · have := hb r hr
    omega
  · have := hb r hr
    simp only [wholeSpace]
    omega

/-- The duties towards the footprints of a `TRN.P` over the table, written with the words of the table. -/
theorem duties_trnP_words :
    Duties (demo (tableMem 128)) [⟨(0x11000 : Word).toNat, 240 * (16 : Half).toNat⟩, ⟨(0x3000 : Word).toNat, 1024⟩]
      ((List.range 128).map fun c =>
        ⟨((demo (tableMem 128)).mem.readWord ((0x3000 : Word).toNat + 8 * c)).toNat + 2 * (4 : Half).toNat,
          2 * (16 : Half).toNat⟩) := by
  have h := (duties_trnP (n := 16) (by decide) (offset := 4) (by decide)).toDuties
  rw [writeFootprint_eq] at h
  have e : ((List.range 128).map fun c =>
        (⟨((demo (tableMem 128)).mem.readWord ((0x3000 : Word).toNat + 8 * c)).toNat + 2 * (4 : Half).toNat,
          2 * (16 : Half).toNat⟩ : Region)) =
      (List.range 128).map fun c => ⟨gridBase (tableMem 128) (.trnP 16 0x11000 0x3000 4) c, 2 * (16 : Half).toNat⟩ :=
    List.map_congr_left fun c hc => by
      have hc : c < 128 := by simpa using hc
      have h1 := pointer_tableMem hc
      have h2 : gridBase (tableMem 128) (.trnP 16 0x11000 0x3000 4) c = 0x10000 * (c + 1) + 2 * ((4 : Half).toNat + 0) :=
        rowAddr_tableMem hc _ _
      rw [h2]
      simp only [demo]
      rw [show ((0x3000 : Word).toNat + 8 * c) = 0x3000 + 8 * c from rfl, h1]
      simp
  rw [e]
  exact h

theorem witness_TrnPWritesEveryChannelRow : (demo (tableMem 128)).mem.wf ∧ (16 : Half).toNat % 8 = 0 ∧
    (0x11000 : Word).toNat % 8 = 0 ∧ (0x3000 : Word).toNat % 8 = 0 ∧
    (∀ c < 128, ((demo (tableMem 128)).mem.readWord ((0x3000 : Word).toNat + 8 * c)).toNat % 2 = 0) ∧
    Duties (demo (tableMem 128)) [⟨(0x11000 : Word).toNat, 240 * (16 : Half).toNat⟩, ⟨(0x3000 : Word).toNat, 1024⟩]
      ((List.range 128).map fun c =>
        ⟨((demo (tableMem 128)).mem.readWord ((0x3000 : Word).toNat + 8 * c)).toNat + 2 * (4 : Half).toNat,
          2 * (16 : Half).toNat⟩) ∧
    Held (demo (tableMem 128)) ((List.range 128).map fun c =>
        ⟨((demo (tableMem 128)).mem.readWord ((0x3000 : Word).toNat + 8 * c)).toNat,
          2 * ((4 : Half).toNat + (16 : Half).toNat)⟩) :=
  ⟨tableMem_wf 128, by decide, by decide, by decide, even_tableMem, duties_trnP_words,
    held_tableMem (by decide)⟩

/-- The first lead-in byte, not the host's, of the row in which the engine would write from sample 4 on. -/
theorem witness_TrnPWithARowNotHeldIsRefused : (8 : Half).toNat % 8 = 0 ∧ (0x11000 : Word).toNat % 8 = 0 ∧
    (0x3000 : Word).toNat % 8 = 0 ∧
    ∃ s : State, (∀ c < 128, (s.mem.readWord ((0x3000 : Word).toNat + 8 * c)).toNat % 2 = 0) ∧
      ∃ c < 128, ∃ a, (s.mem.readWord ((0x3000 : Word).toNat + 8 * c)).toNat ≤ a ∧
        a < (s.mem.readWord ((0x3000 : Word).toNat + 8 * c)).toNat + 2 * ((4 : Half).toNat + (8 : Half).toNat) ∧
        ¬ InRegions s.writable a := by
  have hp : ((tableMem 128).readWord ((0x3000 : Word).toNat + 8 * 127)).toNat = 0x10000 * (127 + 1) :=
    pointer_tableMem (by decide)
  refine ⟨by decide, by decide, by decide, { demo (tableMem 128) with writable := [⟨0, 0x800000⟩] }, even_tableMem,
    127, by decide, 0x800000, ?_, ?_, by simp [InRegions]⟩
  · exact Nat.le_of_eq hp
  · have : (0x800000 : Nat) < ((tableMem 128).readWord ((0x3000 : Word).toNat + 8 * 127)).toNat +
        2 * ((4 : Half).toNat + (8 : Half).toNat) := by
      rw [hp]
      decide
    exact this

/-! ### Witnesses: checks, a command for each clause -/

/-- Each field of `EXP16`, `EXP64`, `EXP128` that must be 0; a misaligned `SRC` (4), a misaligned `DST` (1), neither. -/
theorem witness_ExpandChecksInOrder :
    Desc.grp (0x110 : Command) ≠ 0 ∧ Desc.rsv (0x10011 : Command) ≠ 0 ∧ Desc.n (0x100000012 : Command) ≠ 0 ∧
    Desc.stride (Command.ofWords 0x10 0 0 1) ≠ 0 ∧ Desc.offset (Command.ofWords 0x10 0 0 0x100000000) ≠ 0 ∧
    (Desc.src (Command.ofWords 0x10 4 0 0)).toNat % 8 ≠ 0 ∧ (Desc.dst (Command.ofWords 0x11 8 1 0)).toNat % 2 ≠ 0 ∧
    (Desc.src (Command.ofWords 0x12 8 2 0)).toNat % 8 = 0 ∧ (Desc.dst (Command.ofWords 0x12 8 2 0)).toNat % 2 = 0 ∧
    [(0x110 : Command), 0x10011, 0x100000012, Command.ofWords 0x12 8 2 0].map Desc.op = [0x10, 0x11, 0x12, 0x12] := by
  decide

/-- A group of 8, a stride one too small, the stride that is enough with `SRC` or `DST` misaligned, and all in order. -/
theorem witness_KernelChecksInOrder :
    7 < (Desc.grp (Command.ofWords 0x820 0 0 8)).toNat ∧
    (Desc.grp (Command.ofWords 0x720 0 0 7)).toNat ≤ 7 ∧ (Desc.stride (Command.ofWords 0x720 0 0 7)).toNat < 8 ∧
    (Desc.stride (Command.ofWords 0x721 0 0 15)).toNat < 16 ∧ (Desc.stride (Command.ofWords 0x722 0 0 31)).toNat < 32 ∧
    8 ≤ (Desc.stride (Command.ofWords 0x720 4 0 8)).toNat ∧ (Desc.src (Command.ofWords 0x720 4 0 8)).toNat % 8 ≠ 0 ∧
    16 ≤ (Desc.stride (Command.ofWords 0x721 8 1 16)).toNat ∧ (Desc.dst (Command.ofWords 0x721 8 1 16)).toNat % 2 ≠ 0 ∧
    32 ≤ (Desc.stride (Command.ofWords 0x722 8 2 32)).toNat ∧ (Desc.src (Command.ofWords 0x722 8 2 32)).toNat % 8 = 0 ∧
    (Desc.dst (Command.ofWords 0x722 8 2 32)).toNat % 2 = 0 ∧
    [Command.ofWords 0x720 4 0 8, Command.ofWords 0x721 8 1 16, Command.ofWords 0x722 8 2 32].map
      (fun d => (Desc.op d, Desc.rsv d, Desc.n d, Desc.offset d)) = [(0x20, 0, 0, 0), (0x21, 0, 0, 0), (0x22, 0, 0, 0)] := by
  decide

/-- A count off the quantum; on it with a stride one too small; with the least stride and `SRC` misaligned; in order. -/
theorem witness_TrnFChecksInOrder :
    Desc.offset (Command.ofWords 0x30 0 0 0x100000000) ≠ 0 ∧ (Desc.n (Command.ofWords 0x700000030 0 0 0)).toNat % 8 ≠ 0 ∧
    (Desc.n (Command.ofWords 0x800000030 0 0 7)).toNat % 8 = 0 ∧
    (Desc.stride (Command.ofWords 0x800000030 0 0 7)).toNat < (Desc.n (Command.ofWords 0x800000030 0 0 7)).toNat ∧
    (Desc.n (Command.ofWords 0x800000030 4 1 8)).toNat ≤ (Desc.stride (Command.ofWords 0x800000030 4 1 8)).toNat ∧
    (Desc.src (Command.ofWords 0x800000030 4 1 8)).toNat % 8 ≠ 0 ∧
    (Desc.src (Command.ofWords 0x800000030 8 2 8)).toNat % 8 = 0 ∧
    (Desc.dst (Command.ofWords 0x800000030 8 2 8)).toNat % 2 = 0 ∧
    [Command.ofWords 0x700000030 0 0 0, Command.ofWords 0x800000030 4 1 8, Command.ofWords 0x800000030 8 2 8].map
      (fun d => (Desc.op d, Desc.grp d, Desc.rsv d, Desc.offset d)) =
      [(0x30, 0, 0, 0), (0x30, 0, 0, 0), (0x30, 0, 0, 0)] := by decide

/-- The table is the host's to read. -/
theorem duties_table (m : Memory) : Duties (demo m) [⟨(0x3000 : Word).toNat, 1024⟩] [] :=
  have h : footprintRefusal (demo []) [⟨(0x3000 : Word).toNat, 1024⟩] [] = none := by decide +kernel
  (footprintRefusal_eq_none_iff.1 h).of_regions rfl rfl

/-- A count off the quantum; a table address misaligned (4); an odd last pointer in a table that is the host's; all 128
pointers even. -/
theorem witness_TrnPChecksInOrder :
    Desc.stride (Command.ofWords 0x31 0 0 1) ≠ 0 ∧ (Desc.n (Command.ofWords 0x700000031 0 0 0)).toNat % 8 ≠ 0 ∧
    (Desc.dst (Command.ofWords 0x800000031 8 4 0)).toNat % 8 ≠ 0 ∧
    (Desc.dst (Command.ofWords 0x800000031 8 0x3000 0)).toNat = 0x3000 ∧
    Duties (demo [(0x33F8, 1)]) [⟨(0x3000 : Word).toNat, 1024⟩] [] ∧
    (∃ c < 128, ((demo [(0x33F8, 1)]).mem.readWord (0x3000 + 8 * c)).toNat % 2 ≠ 0) ∧
    (∀ c < 128, ((demo (tableMem 128)).mem.readWord (0x3000 + 8 * c)).toNat % 2 = 0) :=
  ⟨by decide, by decide, by decide, by decide, duties_table _, ⟨127, by decide, by decide +kernel⟩, even_tableMem⟩

theorem witness_UnsupportedTickCountExactlyOffQuantum : (15 : Half).toNat % 8 ≠ 0 ∧
    (∃ t, exec (.trnF 15 0x10000 0x30000 16) (demo []) = .next t ∧ t.status = 1) ∧
    ∃ t, exec (.trnP 1 0x11000 0x3000 4) (demo []) = .next t ∧ t.status = 1 :=
  ⟨by decide, ⟨_, exec_of_fault (by simp) (c := .unsupportedTickCount) rfl, rfl⟩,
    ⟨_, exec_trnP_of_field_fault (c := .unsupportedTickCount) rfl, rfl⟩⟩

theorem witness_ZeroFramesCompleteAndWriteNothing :
    (0x10000 : Word).toNat % 8 = 0 ∧ (2 : Word).toNat % 2 = 0 ∧ (0x10004 : Word).toNat % 8 ≠ 0 ∧
    (1 : Word).toNat % 2 ≠ 0 ∧ (0x3000 : Word).toNat % 8 = 0 ∧ (0x3004 : Word).toNat % 8 ≠ 0 ∧
    Duties (demo (tableMem 128)) [⟨(0x3000 : Word).toNat, 1024⟩] [] ∧
    (∀ c < 128, ((demo (tableMem 128)).mem.readWord ((0x3000 : Word).toNat + 8 * c)).toNat % 2 = 0) ∧
    Held (demo (tableMem 128)) ((List.range 128).map fun c =>
      ⟨((demo (tableMem 128)).mem.readWord ((0x3000 : Word).toNat + 8 * c)).toNat, 2 * (4 : Half).toNat⟩) ∧
    Duties (demo [(0x3000, 1)]) [⟨(0x3000 : Word).toNat, 1024⟩] [] ∧
    (∃ c < 128, ((demo [(0x3000, 1)]).mem.readWord ((0x3000 : Word).toNat + 8 * c)).toNat % 2 ≠ 0) :=
  ⟨by decide, by decide, by decide, by decide, by decide, by decide, duties_table _, even_tableMem,
    held_tableMem (by decide), duties_table _, ⟨0, by decide, by decide +kernel⟩⟩

/-- One run with each code. -/
theorem witness_CommandsEndOnlyWithTheirCodes :
    (∃ t, exec c16 (demo []) = .next t ∧ t.status = 0) ∧
    (∃ t, exec (.trnP 4 0x11000 0x3000 0) (demo []) = .next t ∧ t.status = 1) ∧
    (∃ t, exec (.tr16x8 8 0x10000 0x30000 8) (demo []) = .next t ∧ t.status = 2) ∧
    (∃ t, exec (.exp64 0x1004 0x7000) (demo []) = .next t ∧ t.status = 3) ∧
    (∃ t, exec (.tr16x32 0 0x10000 0x30000 31) (demo []) = .next t ∧ t.status = 4) :=
  ⟨runs_c16 [], ⟨_, exec_trnP_of_field_fault (c := .unsupportedTickCount) rfl, rfl⟩,
    ⟨_, exec_of_fault (by simp) (c := .illegalCommand) rfl, rfl⟩,
    ⟨_, exec_of_fault (by simp) (c := .alignmentFault) rfl, rfl⟩,
    ⟨_, exec_of_fault (by simp) (c := .operandFault) rfl, rfl⟩⟩

/-! ### Witnesses: frames and whole-machine rules -/

/-- A completed `TRN.F` with one padding sample in each row, a failed command, and a completed `TRN.P` whose rows are
far apart, so that no row's lead-in meets another row. -/
theorem witness_CommandsChangeNoByteOutsideTheirFootprint :
    (demo []).mem.wf ∧ (∃ t, exec f16 (demo []) = .next t ∧ t.status = 0) ∧
    ((16 : Half).toNat ≤ 16 ∧ 16 < (17 : Half).toNat) ∧
    (∃ t, exec (.exp16 0x1004 0x7000) (demo []) = .next t ∧ t.status ≠ 0) ∧
    (demo (tableMem 128)).mem.wf ∧ (∃ t, exec p16 (demo (tableMem 128)) = .next t ∧ t.status = 0) ∧
    ∀ c < 128, ∀ c' < 128, c' ≠ c →
      ((tableMem 128).readWord (0x3000 + 8 * c)).toNat + 2 * 3 + 2 ≤
        ((tableMem 128).readWord (0x3000 + 8 * c')).toNat + 2 * (4 : Half).toNat ∨
      ((tableMem 128).readWord (0x3000 + 8 * c')).toNat + 2 * (4 : Half).toNat + 2 * (16 : Half).toNat ≤
        ((tableMem 128).readWord (0x3000 + 8 * c)).toNat + 2 * 3 :=
  ⟨Memory.wf_nil, runs_f16 [], by decide, ⟨_, exec_of_fault (by simp) (c := .alignmentFault) rfl, by decide⟩,
    tableMem_wf 128, runs_p16, fun c hc c' hc' hne => by
      rw [pointer_tableMem hc, pointer_tableMem hc']
      simp only [BitVec.reduceToNat]
      omega⟩

theorem witness_InputIsNeverWritten : (demo []).mem.wf ∧ (∃ t, exec c16 (demo []) = .next t ∧ t.status = 0) ∧
    InRegions (readFootprint c16) 0x1000 ∧ InRegions (readFootprint c16) 0x1017 :=
  ⟨Memory.wf_nil, runs_c16 [], by simp [InRegions, readFootprint, c16], by simp [InRegions, readFootprint, c16]⟩

theorem witness_WrittenSamplesHaveTopBitsClear : (demo []).mem.wf ∧ ∃ t, exec k8 (demo []) = .next t ∧ t.status = 0 :=
  ⟨Memory.wf_nil, runs_k8 []⟩

/-- The first and the last byte of each run of header words, in the first and in the last frame. -/
theorem witness_FrameHeaderWordsHaveNoEffect :
    ∃ m : Memory, (demo []).mem.wf ∧ m.wf ∧ (∀ a, m.readByte a ≠ (demo []).mem.readByte a → HeaderByte k8 a) ∧
      m.readByte 0x10000 = 1 ∧ m.readByte 0x1071F = 1 ∧ ∃ t, exec k8 (demo []) = .next t ∧ t.status = 0 := by
  refine ⟨[(0x10000, 1), (0x1001F, 1), (0x10080, 1), (0x1008F, 1), (0x10690, 1), (0x106AF, 1), (0x10710, 1),
    (0x1071F, 1)], Memory.wf_nil, by decide, fun a ha => ?_, by decide, by decide, runs_k8 []⟩
  have hl : a ∈ [0x10000, 0x1001F, 0x10080, 0x1008F, 0x10690, 0x106AF, 0x10710, 0x1071F] := by
    by_contra hn
    exact ha (Memory.readByte_of_not_listed (by simpa using hn))
  refine ⟨?_, fun n src dst offset h => nomatch h⟩
  simp only [List.mem_cons, List.not_mem_nil, or_false] at hl
  rcases hl with rfl | rfl | rfl | rfl | rfl | rfl | rfl | rfl <;>
    first
      | exact ⟨0, by decide, by decide⟩
      | exact ⟨7, by decide, by decide⟩

/-- The bytes next to those runs are packed ADC words. -/
theorem test_headerByte_stops_at_the_adc_words :
    ¬ HeaderByte k8 0x10020 ∧ ¬ HeaderByte k8 0x1007F ∧ ¬ HeaderByte k8 0x10090 ∧ ¬ HeaderByte k8 0x100EF := by
  refine ⟨?_, ?_, ?_, ?_⟩ <;> rintro ⟨⟨t, ht, h⟩, _⟩ <;> simp [framesOf, k8] at ht h <;> omega

theorem witness_Exp64EqualsFourExp16 : (demo []).mem.wf ∧ ∃ t, exec c64 (demo []) = .next t ∧ t.status = 0 :=
  ⟨Memory.wf_nil, runs_c64 []⟩

theorem witness_Exp128EqualsTwoExp64 : (demo []).mem.wf ∧ ∃ t, exec c128 (demo []) = .next t ∧ t.status = 0 :=
  ⟨Memory.wf_nil, runs_c128 []⟩

theorem witness_KernelsSplitInTime : (demo []).mem.wf ∧ (∃ t, exec k16 (demo []) = .next t ∧ t.status = 0) ∧
    ∃ t, exec k32 (demo []) = .next t ∧ t.status = 0 := ⟨Memory.wf_nil, runs_k16 [], runs_k32 []⟩

theorem witness_KernelColumnsAreExpansions : (demo []).mem.wf ∧ (∃ t, exec k8 (demo []) = .next t ∧ t.status = 0) ∧
    (∃ t, exec k16 (demo []) = .next t ∧ t.status = 0) ∧ ∃ t, exec k32 (demo []) = .next t ∧ t.status = 0 :=
  ⟨Memory.wf_nil, runs_k8 [], runs_k16 [], runs_k32 []⟩

theorem witness_TrnFEqualsItsStrideLoop : (demo []).mem.wf ∧ ∃ t, exec f16 (demo []) = .next t ∧ t.status = 0 :=
  ⟨Memory.wf_nil, runs_f16 []⟩

theorem witness_TrnFSplitsInTime : (demo []).mem.wf ∧ (16 : Half).toNat = (8 : Half).toNat + (8 : Half).toNat ∧
    (8 : Half).toNat % 8 = 0 ∧ ∃ t, exec f16 (demo []) = .next t ∧ t.status = 0 :=
  ⟨Memory.wf_nil, by decide, by decide, runs_f16 []⟩

theorem witness_TrnPAppends : (demo (tableMem 128)).mem.wf ∧ (16 : Half).toNat = (8 : Half).toNat + (8 : Half).toNat ∧
    (8 : Half).toNat % 8 = 0 ∧ (4 : Half).toNat + (8 : Half).toNat < 2 ^ 32 ∧
    ∃ t, exec p16 (demo (tableMem 128)) = .next t ∧ t.status = 0 :=
  ⟨tableMem_wf 128, by decide, by decide, by decide, runs_p16⟩

/-- The rows of the table are `0x8000` samples apart from `0x10000`. -/
theorem witness_TrnPOnEvenRowsEqualsTrnF :
    (demo (tableMem 128)).mem.wf ∧
    (∀ c < 128, ((demo (tableMem 128)).mem.readWord ((0x3000 : Word).toNat + 8 * c)).toNat =
      (0x10000 : Word).toNat + 2 * c * (0x8000 : Half).toNat) ∧
    (∃ t, exec (.trnF 16 0x11000 0x10000 0x8000) (demo (tableMem 128)) = .next t ∧ t.status = 0) ∧
    ∃ u, exec (.trnP 16 0x11000 0x3000 0) (demo (tableMem 128)) = .next u ∧ u.status = 0 := by
  refine ⟨tableMem_wf 128, fun c hc => ?_, runs rfl (duties_demo _ ?_ ?_ ?_ ?_),
    runs (checks_trnP (by decide)) (duties_trnP (by decide) (by decide))⟩
  · rw [show (demo (tableMem 128)).mem.readWord ((0x3000 : Word).toNat + 8 * c) =
      (tableMem 128).readWord (0x3000 + 8 * c) from rfl, pointer_tableMem hc]
    simp only [BitVec.reduceToNat]
    omega
  · simp [readFootprint, frameRegion]
  · simp [gridRows, gridBase, gridLen, flatAddr]; omega
  · simp [gridRows, gridBase, gridLen, flatAddr, readFootprint, frameRegion]; omega
  · simp [gridRows, gridBase, gridLen, flatAddr]; omega

theorem witness_TransposeLosesNoAdcWord : (demo []).mem.wf ∧ (∃ t, exec f16 (demo []) = .next t ∧ t.status = 0) ∧
    0 < (16 : Half).toNat ∧ 15 < (16 : Half).toNat := ⟨Memory.wf_nil, runs_f16 [], by decide, by decide⟩

theorem decode_encode_c16 : decode (encode c16) = .ok c16 := by decide

theorem submit_c16 (s : State) : submit (encode c16) [] s = exec c16 s := runBits_of_decode decode_encode_c16 s

theorem witness_NoResultDependsOnKsel :
    (∃ t, submit (encode c16) [] (demo []) = .next t) ∧
    ∃ r, submit (encode c16) [.submit 0] (demo []) = .refused r := by
  obtain ⟨t, ht, _⟩ := runs_c16 []
  exact ⟨⟨t, by rw [submit_c16, ht]⟩, _, rfl⟩

/-- Beside a run, a memory that differs from the first outside `RD` alone. -/
theorem witness_CommandsAreIdempotent : (demo []).mem.wf ∧ (∃ t, exec c16 (demo []) = .next t ∧ t.status = 0) ∧
    Memory.wf [(0xFFF, 1), (0x1018, 2)] ∧
    ∀ a, InRegions (readFootprint c16) a → Memory.readByte [(0xFFF, 1), (0x1018, 2)] a = (demo []).mem.readByte a := by
  refine ⟨Memory.wf_nil, runs_c16 [], by decide, fun a ha => Memory.readByte_of_not_listed ?_⟩
  simp [InRegions, readFootprint, c16] at ha ⊢
  omega

theorem witness_FaultsDoNotStick :
    (∃ t, exec (.trnF 12 0x10000 0x30000 16) (demo []) = .next t ∧ t.status ≠ 0) ∧ ∃ u, exec c16 (demo []) = .next u :=
  ⟨⟨_, exec_of_fault (by simp) (c := .unsupportedTickCount) rfl, by decide⟩, (runs_c16 []).imp fun _ h => h.1⟩

/-- The demo state with host actions to come. -/
def waiting (inbox : List HostEvent) : State := { demo [] with inbox := inbox }

theorem duties_waiting {i : Instr} (inbox : List HostEvent) (h : DutiesTo i (demo [])) : DutiesTo i (waiting inbox) :=
  h.transfer rfl rfl (.of_readFootprint fun _ _ => rfl)

theorem exec_waiting {i : Instr} (inbox : List HostEvent) (hc : firstFault (checksOf [] i) = none)
    (hd : DutiesTo i (demo [])) : ∃ t, exec i (waiting inbox) = .next t := ⟨_, exec_of_duties hc (duties_waiting inbox hd)⟩

/-- Two `EXP16` with the same operands. -/
theorem witness_CommandsRunInTheOrderSubmitted :
    ∃ s t u : State, s.inbox = [.submit (encode c16) [], .submit (encode c16) []] ∧ decode (encode c16) = .ok c16 ∧
      exec c16 { s with inbox := [.submit (encode c16) []] } = .next t ∧
      exec c16 { t with inbox := [] } = .next u := by
  have hd := duties_waiting [.submit (encode c16) []] (duties_c16 [])
  have hd' : DutiesTo c16 { complete .ok { waiting [.submit (encode c16) []] with
      mem := Memory.writeSamples [] (outsOf [] c16) } with inbox := [] } :=
    hd.transfer rfl rfl (inputsAgree_after Memory.wf_nil hd)
  exact ⟨waiting [.submit (encode c16) [], .submit (encode c16) []], _, _, rfl, decode_encode_c16,
    exec_of_duties (s := waiting [.submit (encode c16) []]) rfl hd, exec_of_duties rfl hd'⟩

theorem witness_StepRunsTheSubmittedCommand :
    (waiting [.submit (encode c16) []]).inbox = [.submit (encode c16) []] ∧ decode (encode c16) = .ok c16 ∧
    decode 0 = .error (.reservedOpcode 0) ∧ decodeTableWord 256 0x30 = some (.trnF 0 0 0 0) :=
  ⟨rfl, decode_encode_c16, by decide, by decide +kernel⟩

theorem witness_IdleBlockStaysAsItIs : (demo []).inbox = [] := rfl

/-- A step of each kind: an idle block, a completion, a reset. -/
theorem witness_StatusChangesOnlyByCompletionOrReset :
    (∃ t, step (demo []) = .next t ∧ t.status = (demo []).status) ∧
    (∃ t, step (waiting [.submit 0 []]) = .next t ∧ t.status = 2) ∧
    ∃ t, step (waiting [.reset]) = .next t ∧ t.status = 0 := ⟨⟨_, rfl, rfl⟩, ⟨_, rfl, rfl⟩, ⟨_, rfl, rfl⟩⟩

theorem witness_KselChangesOnlyByReset :
    (∃ t, step (demo []) = .next t ∧ t.ksel = (demo []).ksel) ∧
    ∃ t, step (waiting [.reset]) = .next t ∧ t.ksel = BitVec.ofBool Config.hasSimd256 := ⟨⟨_, rfl, rfl⟩, ⟨_, rfl, rfl⟩⟩

theorem witness_RegistersReadAndIgnoreWrites :
    (waiting [.readRegister .status]).inbox = [.readRegister .status] ∧
    (waiting [.readRegister .ksel]).inbox = [.readRegister .ksel] ∧
    (waiting [.writeRegister .ksel 0]).inbox = [.writeRegister .ksel 0] := ⟨rfl, rfl, rfl⟩

theorem witness_ResetSetsTheTwoRegistersOnly : (waiting [.reset]).inbox = [.reset] := rfl

/-- A legal command, one beside which the host stores outside its footprints, and an illegal pattern. -/
theorem witness_ResetDuringACommandLeavesOldOrNew :
    (demo []).mem.wf ∧
    (waiting [.submitCut (encode c16) []]).inbox = [.submitCut (encode c16) []] ∧
    (∃ u, submit (encode c16) [] { waiting [.submitCut (encode c16) []] with inbox := [] } = .next u) ∧
    (∃ u, submit (encode c16) [.store 0x1018 1] { waiting [.submitCut (encode c16) [.store 0x1018 1]] with inbox := [] } =
      .next u) ∧
    ∃ u, submit 0 [.load 0x1000] { waiting [.submitCut 0 [.load 0x1000]] with inbox := [] } = .next u := by
  have h1 := exec_waiting [] rfl (duties_c16 [])
  have h2 : ∃ t, exec c16 { waiting [] with mem := [(0x1018, 1)] } = .next t :=
    ⟨_, exec_of_duties rfl ((duties_c16 [(0x1018, 1)]).transfer rfl rfl (.of_readFootprint fun _ _ => rfl))⟩
  refine ⟨Memory.wf_nil, rfl, ?_, ?_, ⟨_, rfl⟩⟩
  · obtain ⟨u, hu⟩ := h1
    exact ⟨u, (submit_c16 _).trans hu⟩
  · obtain ⟨u, hu⟩ := h2
    exact ⟨u, (runBits_of_decode decode_encode_c16 _).trans hu⟩

/-- A store to the first and to the last byte of `RD`, a load of the first and of the last byte of `WR`, and memory
freed that meets each in one byte. -/
theorem witness_TouchingTheFootprintIsRefused :
    decode (encode c16) = .ok c16 ∧
    ∀ act ∈ [HostAct.store 0x1000 1, .store 0x1017 1, .load 0x7000, .load 0x701F, .free ⟨0x1017, 8⟩, .free ⟨0x6FF9, 8⟩],
      BreaksR56 (readFootprint c16) (writeFootprint [] c16) act := by
  refine ⟨decode_encode_c16, fun act h => ?_⟩
  simp only [List.mem_cons, List.not_mem_nil, or_false] at h
  rcases h with rfl | rfl | rfl | rfl | rfl | rfl
  · exact .inl ⟨_, _, rfl, .inl (by simp [InRegions, readFootprint, c16])⟩
  · exact .inl ⟨_, _, rfl, .inl (by simp [InRegions, readFootprint, c16])⟩
  · exact .inr (.inl ⟨_, rfl, by simp [InRegions, writeFootprint, c16]⟩)
  · exact .inr (.inl ⟨_, rfl, by simp [InRegions, writeFootprint, c16]⟩)
  · exact .inr (.inr ⟨_, 0x1017, rfl, by simp [InRegions], .inl (by simp [InRegions, readFootprint, c16])⟩)
  · exact .inr (.inr ⟨_, 0x7000, rfl, by simp [InRegions], .inr (by simp [InRegions, writeFootprint, c16])⟩)

/-- Stores next to the two footprints. -/
theorem witness_StoresOutsideTheFootprintsCommute :
    (demo []).mem.wf ∧ decode (encode c16) = .ok c16 ∧
    (∀ a ∈ [0xFFF, 0x1018, 0x6FFF, 0x7020], ¬ InRegions (readFootprint c16) a ∧ ¬ InRegions (writeFootprint [] c16) a) ∧
    ∃ t, submit (encode c16) [] (demo []) = .next t := by
  obtain ⟨t, ht, _⟩ := runs_c16 []
  exact ⟨Memory.wf_nil, decode_encode_c16, by simp [InRegions, readFootprint, writeFootprint, c16], t,
    by rw [submit_c16, ht]⟩

/-- A state that holds the invariant beside the state after reset: code 4 in `CR.STATUS`, one byte of memory. -/
theorem witness_EveryStepKeepsTheInvariant :
    ∃ s t : State, s.Inv ∧ s.mem ≠ [] ∧ step s = .next t := by
  refine ⟨{ State.reset with mem := [(2 ^ 64 - 1, 0xEE)], status := 4, inbox := [.submit 0 []] }, _,
    ⟨by decide, by decide, by decide, rfl⟩, by simp, rfl⟩

/-- Outcome (3) of R170: a command whose output meets its input is refused. -/
theorem witness_ThreeOutcomesOfACommand :
    (∃ t, exec c16 (demo []) = .next t ∧ t.status = 0) ∧ (∃ t, exec (.exp16 0x1004 0x7000) (demo []) = .next t ∧
      t.status = 3) ∧ exec (.exp16 0x1000 0x1016) (demo []) = .refused .outputAliasesInput :=
  ⟨runs_c16 [], ⟨_, exec_of_fault (by simp) (c := .alignmentFault) rfl, rfl⟩, rfl⟩

end Sys2Proof.Tests
end

section
/-! SUPPORT. The statements about the state and its registers (10_state.md): what every step keeps, who writes
`CR.STATUS` and `CR.KSEL`, and that `CR.KSEL` decides nothing. -/

namespace Sys2Proof.Machine

/-! ### What an event can do -/

/-- A command beside which the host acts, if it answers a next state, ran on the state the acts leave. -/
theorem besideCommand_next {d : Command} {during : List HostAct} {s t : State}
    {run : State → Host.Outcome State Fault Refusal} (h : besideCommand d during s run = .next t) :
    run (during.foldl HostAct.apply s) = .next t := by
  obtain ⟨r, -, hr⟩ | ⟨-, hr⟩ := besideCommand_cases h
  · cases hr
  · exact hr.symm

theorem foldl_apply_ksel (s : State) (acts : List HostAct) : (acts.foldl HostAct.apply s).ksel = s.ksel :=
  foldl_apply_induction (P := fun u => u.ksel = s.ksel) (fun u a hu => (apply_ksel u a).trans hu) rfl acts

/-- What an event can do when it answers a next state: a command runs on the state the host's acts leave; or a reset
cuts one short; or the block is reset; or the host acts outside a command, which touches no register and at most one
byte of memory (70_reset_and_hazards.md R200). -/
theorem runEvent_cases {e : HostEvent} {s t : State} (h : runEvent e s = .next t) :
    (∃ d during, e = .submit d during ∧ runBits d (during.foldl HostAct.apply s) = .next t) ∨
    (∃ d during u, e = .submitCut d during ∧ runBits d (during.foldl HostAct.apply s) = .next u ∧
      t = cutShort (during.foldl HostAct.apply s) u) ∨
    (e = .reset ∧ t = resetBlock s) ∨
    ((∀ d during, e ≠ .submit d during) ∧ t.status = s.status ∧ t.ksel = s.ksel ∧
      (t.mem = s.mem ∨ ∃ (a : Word) (v : Byte), t.mem = s.mem.writeByte a.toNat v)) := by
  cases e with
  | submit d during => exact .inl ⟨d, during, rfl, besideCommand_next h⟩
  | submitCut d during =>
    obtain ⟨u, hu, ht⟩ := runCut_cases (besideCommand_next h)
    exact .inr (.inl ⟨d, during, u, rfl, hu, ht⟩)
  | reset => cases h; exact .inr (.inr (.inl ⟨rfl, rfl⟩))
  | store a v => cases h; exact .inr (.inr (.inr ⟨nofun, rfl, rfl, .inr ⟨a, v, rfl⟩⟩))
  | _ => cases h; exact .inr (.inr (.inr ⟨nofun, rfl, rfl, .inl rfl⟩))

/-- Bits that answer a next state completed with one of the codes (60_exceptions.md R163, R165). -/
theorem runBits_completed {d : Command} {s t : State} (h : runBits d s = .next t) : ∃ c, Completed c s t := by
  obtain ⟨c, -, rfl⟩ | ⟨i, -, -, -, rfl⟩ := runBits_cases h
  · exact ⟨c, rfl, rfl, rfl, rfl, rfl, rfl, rfl⟩
  · exact ⟨.ok, rfl, rfl, rfl, rfl, rfl, rfl, rfl⟩

/-! ### The invariant -/

theorem inv_reset : State.reset.Inv := ⟨Memory.wf_nil, nofun, code_bits_le_four .ok, rfl⟩

theorem inv_apply {s : State} (hs : s.Inv) (a : HostAct) : (HostAct.apply s a).Inv where
  memory := apply_wf hs.memory a
  space := apply_inSpace hs.space a
  status := apply_status s a ▸ hs.status
  ksel := (apply_ksel s a).trans hs.ksel

theorem inv_foldl_apply {s : State} (hs : s.Inv) (acts : List HostAct) : (acts.foldl HostAct.apply s).Inv :=
  foldl_apply_induction (P := State.Inv) (fun _ a h => inv_apply h a) hs acts

theorem inv_resetBlock {s : State} (hs : s.Inv) : (resetBlock s).Inv :=
  ⟨hs.memory, hs.space, code_bits_le_four .ok, rfl⟩

theorem inv_cutShort {s u : State} (hs : s.Inv) (hu : u.Inv) : (cutShort s u).Inv :=
  ⟨Memory.wf_blend hs.memory u.mem, Memory.inSpace_blend hs.space hu.space, code_bits_le_four .ok, rfl⟩

/-- A command's samples lie inside the address space by the host's duties (20_memory.md R52). -/
theorem inv_runBits {d : Command} {s t : State} (hs : s.Inv) (h : runBits d s = .next t) : t.Inv := by
  obtain ⟨c, -, rfl⟩ | ⟨i, -, -, hd, rfl⟩ := runBits_cases h
  · exact ⟨hs.memory, hs.space, code_bits_le_four c, hs.ksel⟩
  · exact ⟨Memory.wf_writeSamples hs.memory _, Memory.inSpace_writeSamples hs.space fun _ => outsOf_fits hd,
      code_bits_le_four .ok, hs.ksel⟩

theorem inv_runEvent {e : HostEvent} {s t : State} (hs : s.Inv) (h : runEvent e s = .next t) : t.Inv := by
  obtain ⟨d, during, -, hrun⟩ | ⟨d, during, u, -, hrun, rfl⟩ | ⟨-, rfl⟩ | ⟨-, hstatus, hksel, hmem⟩ := runEvent_cases h
  · exact inv_runBits (inv_foldl_apply hs during) hrun
  · exact inv_cutShort (inv_foldl_apply hs during) (inv_runBits (inv_foldl_apply hs during) hrun)
  · exact inv_resetBlock hs
  · have hst : t.status.toNat ≤ 4 := hstatus ▸ hs.status
    obtain hm | ⟨a, v, hm⟩ := hmem
    · exact ⟨hm ▸ hs.memory, hm ▸ hs.space, hst, hksel.trans hs.ksel⟩
    · exact ⟨hm ▸ Memory.wf_writeByte hs.memory _ v, hm ▸ Memory.inSpace_writeByte hs.space a.isLt v, hst,
        hksel.trans hs.ksel⟩

/-- Settles O58: every event keeps the invariant, and a step is one event or nothing. -/
theorem everyStepKeepsTheInvariant : Obligations.EveryStepKeepsTheInvariant := by
  intro s t hs h
  obtain ⟨-, rfl⟩ | ⟨e, rest, -, he⟩ := step_cases h
  · exact hs
  · exact inv_runEvent (s := { s with inbox := rest }) ⟨hs.memory, hs.space, hs.status, hs.ksel⟩ he

/-- Settles O54. -/
theorem resetStateIsAsTheSpecSays : Obligations.ResetStateIsAsTheSpecSays := ⟨rfl, rfl, rfl, inv_reset⟩

/-! ### Who writes the two registers -/

/-- Settles O50: a submission completes with its code, a reset and a cut submission leave 0, and no other event touches
`CR.STATUS`. -/
theorem statusChangesOnlyByCompletionOrReset : Obligations.StatusChangesOnlyByCompletionOrReset := by
  intro s t h
  obtain ⟨hi, rfl⟩ | ⟨e, rest, hi, he⟩ := step_cases h
  · exact .inl ⟨rfl, by simp [hi]⟩
  obtain ⟨d, during, rfl, hrun⟩ | ⟨d, during, u, rfl, -, rfl⟩ | ⟨rfl, rfl⟩ | ⟨hne, hstatus, -, -⟩ := runEvent_cases he
  · obtain ⟨c, hc⟩ := runBits_completed hrun
    exact .inr (.inr ⟨hc.status ▸ code_bits_le_four c, by simp [hc.replies, hc.status], d, during, rest, hi⟩)
  · exact .inr (.inl ⟨rfl, _, rest, hi, .inr ⟨d, during, rfl⟩⟩)
  · exact .inr (.inl ⟨rfl, _, rest, hi, .inl rfl⟩)
  · exact .inl ⟨hstatus, by simp [hi, hne]⟩

/-- Settles O51: a completion and the host's acts keep `CR.KSEL`; a reset and a cut submission set it to
`HAS_SIMD256`. -/
theorem kselChangesOnlyByReset : Obligations.KselChangesOnlyByReset := by
  intro s t h
  obtain ⟨-, rfl⟩ | ⟨e, rest, hi, he⟩ := step_cases h
  · exact .inl rfl
  obtain ⟨d, during, -, hrun⟩ | ⟨d, during, u, rfl, -, rfl⟩ | ⟨rfl, rfl⟩ | ⟨-, -, hksel, -⟩ := runEvent_cases he
  · obtain ⟨c, hc⟩ := runBits_completed hrun
    exact .inl (hc.ksel.trans (foldl_apply_ksel _ during))
  · exact .inr ⟨rfl, _, rest, hi, .inr ⟨d, during, rfl⟩⟩
  · exact .inr ⟨rfl, _, rest, hi, .inl rfl⟩
  · exact .inl hksel

/-! ### `CR.KSEL` decides nothing (10_state.md R25)

Every operation on the way from a submission to its outcome commutes with setting `CR.KSEL`. -/

/-- The state with another value of `CR.KSEL`. -/
def State.withKsel (k : BitVec 1) (s : State) : State := { s with ksel := k }

/-- The outcome with its next state changed by `f`. -/
def mapNext (f : State → State) : Host.Outcome State Fault Refusal → Host.Outcome State Fault Refusal
  | .next s => .next (f s)
  | .fault r => .fault r
  | .refused r => .refused r

/-- Setting `CR.KSEL` before the operation and after it comes to the same outcome. -/
def IgnoresKsel (run : State → Host.Outcome State Fault Refusal) : Prop :=
  ∀ (k : BitVec 1) (s : State), run (s.withKsel k) = mapNext (State.withKsel k) (run s)

theorem commit_withKsel (k : BitVec 1) (s : State) (i : Instr) (outs : List (Nat × Sample)) :
    commit (s.withKsel k) i outs = mapNext (State.withKsel k) (commit s i outs) := by
  have hduty : dutyRefusal (s.withKsel k) i = dutyRefusal s i := rfl
  unfold commit
  rw [hduty]
  cases dutyRefusal s i <;> rfl

theorem runCommand_withKsel (k : BitVec 1) (s : State) (checks : List Check) (i : Instr) (outs : List (Nat × Sample)) :
    runCommand (s.withKsel k) checks i outs = mapNext (State.withKsel k) (runCommand s checks i outs) := by
  unfold runCommand
  cases firstFault checks with
  | some c => rfl
  | none => exact commit_withKsel k s i outs

theorem execTrnP_ignoresKsel (n : Half) (src dst : Word) (offset : Half) : IgnoresKsel (execTrnP n src dst offset) := by
  intro k s
  have htable : footprintRefusal (s.withKsel k) [tableRegion dst] [] = footprintRefusal s [tableRegion dst] [] := rfl
  unfold execTrnP
  rw [htable]
  cases firstFault (trnPChecks n src dst) with
  | some c => rfl
  | none =>
    cases footprintRefusal s [tableRegion dst] [] with
    | some r => rfl
    | none => exact runCommand_withKsel k s _ _ _

theorem exec_ignoresKsel (i : Instr) : IgnoresKsel (exec i) := by
  cases i with
  | trnP n src dst offset => exact execTrnP_ignoresKsel n src dst offset
  | _ => exact fun k s => runCommand_withKsel k s _ _ _

theorem runBits_ignoresKsel (d : Command) : IgnoresKsel (runBits d) := by
  intro k s
  cases hd : decode d with
  | ok i => rw [runBits_of_decode hd, runBits_of_decode hd, exec_ignoresKsel i k s]
  | error why => rw [runBits_of_illegal hd, runBits_of_illegal hd]; rfl

theorem apply_withKsel (k : BitVec 1) (s : State) (a : HostAct) :
    HostAct.apply (s.withKsel k) a = (HostAct.apply s a).withKsel k := by cases a <;> rfl

theorem submit_ignoresKsel (d : Command) (during : List HostAct) : IgnoresKsel (submit d during) := by
  intro k s
  have hacts : during.foldl HostAct.apply (s.withKsel k) = (during.foldl HostAct.apply s).withKsel k :=
    List.foldl_hom (State.withKsel k) fun s a => apply_withKsel k s a
  have hmem : (s.withKsel k).mem = s.mem := rfl
  unfold submit besideCommand
  rw [hacts, hmem]
  cases actsRefusal (bitsRead d) (bitsWritten s.mem d) during with
  | some r => rfl
  | none => exact runBits_ignoresKsel d k _

/-- Settles O44: a submission commutes with setting `CR.KSEL`. -/
theorem noResultDependsOnKsel : Obligations.NoResultDependsOnKsel := by
  intro d during s k
  have hk := submit_ignoresKsel d during k s
  exact ⟨fun t ht => hk.trans (by rw [ht]; rfl), fun r hr => hk.trans (by rw [hr]; rfl)⟩

/-! ### A submitted command runs -/

/-- The low `n` bytes of a number, laid out little-endian, stand for it (20_memory.md R41). -/
theorem littleEndian_bytes (n x : Nat) :
    littleEndian ((List.range n).map fun k => BitVec.ofNat 8 (x >>> (8 * k))) = x % 256 ^ n := by
  induction n generalizing x with
  | zero => simp [littleEndian, Nat.mod_one]
  | succ n ih =>
    have hshift : ∀ k, x >>> (8 * (k + 1)) = (x / 256) >>> (8 * k) := fun k => by
      rw [Nat.mul_succ, Nat.add_comm, Nat.shiftRight_add, Nat.shiftRight_eq_div_pow x]
    simp only [List.range_succ_eq_map, List.map_cons, List.map_map, Function.comp_def, littleEndian,
      Nat.succ_eq_add_one, hshift, ih]
    simp [Nat.pow_succ', Nat.mod_mul]

/-- What the decoder reads from the bytes of an instruction is the command that is submitted for it. -/
theorem decode_tableCommand {nbits w : Nat} {i : Instr} (h : decodeTableWord nbits w = some i) :
    decode (tableCommand nbits w) = .ok i := by
  have hbytes : Command.ofBytes ((List.range 32).map fun k => BitVec.ofNat 8 ((w % 2 ^ nbits) >>> (8 * k))) =
      tableCommand nbits w := by
    rw [Command.ofBytes, littleEndian_bytes, tableCommand]
    exact BitVec.eq_of_toNat_eq (by simp)
  unfold decodeTableWord decodeBytes at h
  rw [if_pos (by simp), hbytes] at h
  split at h
  · cases h; assumption
  · cases h

/-- A submission beside which the host does nothing runs its bits. -/
theorem step_of_submit {s : State} {d : Command} {rest : List HostEvent} (h : s.inbox = .submit d [] :: rest) :
    step s = runBits d { s with inbox := rest } := step_of_cons h

/-- Settles O48: a step runs the bits submitted, and `withFetchWord` submits the command the decoder reads. -/
theorem stepRunsTheSubmittedCommand : Obligations.StepRunsTheSubmittedCommand := by
  refine ⟨fun s d i rest hi hd => ?_, fun s d why rest hi hd => ?_, fun s w i _ hw => ?_⟩
  · rw [step_of_submit hi, runBits_of_decode hd]
  · exact (step_of_submit hi).trans (runBits_of_illegal hd _)
  · exact (step_of_submit (withFetchWord_inbox s 256 w)).trans (runBits_of_decode (decode_tableCommand hw) s)

end Sys2Proof.Machine
end

section
/-! SUPPORT. The statements about memory and its discipline (20_memory.md): little-endian accesses, what a command leaves
unchanged, what its result depends on, and what the host may not do beside it. -/

namespace Sys2Proof.Machine

/-! ### Little-endian accesses (20_memory.md R41, R42) -/

/-- A read of `j + n` bytes is the low `j` bytes with the next `n` bytes above them. -/
theorem Memory.memRead_add (m : Memory) (a j n : Nat) :
    m.memRead a (j + n) = m.memRead a j + 256 ^ j * m.memRead (a + j) n := by
  induction j generalizing a with
  | zero => simp [Memory.memRead]
  | succ j ih =>
    have haddr : a + 1 + j = a + (j + 1) := by omega
    rw [Nat.succ_add, Memory.memRead, Memory.memRead, ih (a + 1), haddr]
    ring

theorem Memory.memRead_lt (m : Memory) (a n : Nat) : m.memRead a n < 256 ^ n := by
  induction n generalizing a with
  | zero => simp [Memory.memRead]
  | succ n ih =>
    have hbyte := (m.readByte a).isLt
    have hrest := ih (a + 1)
    rw [Memory.memRead, Nat.pow_succ']
    omega

/-- Dividing the low `j` bytes away leaves the bytes above them. -/
theorem Memory.memRead_div (m : Memory) (a j n : Nat) : m.memRead a (j + n) / 256 ^ j = m.memRead (a + j) n := by
  rw [Memory.memRead_add, Nat.add_mul_div_left _ _ (by positivity), Nat.div_eq_of_lt (m.memRead_lt a j), Nat.zero_add]

/-- Byte `k` of the value read from `n` bytes is the byte `k` above the address. -/
theorem Memory.extractLsb'_memRead (m : Memory) (a : Nat) {n k : Nat} (hk : k < n) :
    (BitVec.ofNat (8 * n) (m.memRead a n)).extractLsb' (8 * k) 8 = m.readByte (a + k) := by
  obtain ⟨r, rfl⟩ := Nat.exists_eq_add_of_lt hk
  have hlt : m.memRead a (k + r + 1) < 2 ^ (8 * (k + r + 1)) := by
    simpa [Nat.pow_mul] using m.memRead_lt a (k + r + 1)
  have hbyte := (m.readByte (a + k)).isLt
  apply BitVec.eq_of_toNat_eq
  rw [BitVec.extractLsb'_toNat, BitVec.toNat_ofNat, Nat.mod_eq_of_lt hlt, Nat.shiftRight_eq_div_pow, Nat.pow_mul,
    show 2 ^ 8 = 256 from rfl, Nat.add_assoc, Memory.memRead_div, Memory.memRead]
  omega

/-- Settles O8: a word and a sample are reads of 8 and of 2 bytes. -/
theorem accessesAreLittleEndian : Obligations.AccessesAreLittleEndian := by
  intro m a
  exact ⟨fun k hk => m.extractLsb'_memRead a hk, fun k hk => m.extractLsb'_memRead a hk⟩

theorem Memory.readWords_succ (m : Memory) (a n : Nat) :
    m.readWords a (n + 1) = m.readWord a :: m.readWords (a + 8) n := by
  have haddr : ∀ j, a + 8 * (j + 1) = a + 8 + 8 * j := fun j => by omega
  simp [Memory.readWords, List.range_succ_eq_map, haddr]

theorem Memory.toNat_readWord (m : Memory) (a : Nat) : (m.readWord a).toNat = m.memRead a 8 :=
  Nat.mod_eq_of_lt (m.memRead_lt a 8)

/-- The stream of consecutive words is their bytes, read as one number (00_scope.md R15). -/
theorem streamNat_readWords (m : Memory) (a n : Nat) : streamNat (m.readWords a n) = m.memRead a (8 * n) := by
  induction n generalizing a with
  | zero => rfl
  | succ n ih =>
    rw [Memory.readWords_succ, streamNat, ih, Memory.toNat_readWord, Nat.mul_succ, Nat.add_comm (8 * n) 8,
      Memory.memRead_add, show 256 ^ 8 = 2 ^ 64 from rfl]

/-- Settles O9: ADC `k` begins in byte `12k / 8` of the stream and ends in that byte or the next one. -/
theorem adcStartsAtItsBitOfItsByte : Obligations.AdcStartsAtItsBitOfItsByte := by
  intro m a k hk
  obtain ⟨r, hr⟩ : ∃ r, 8 * 12 = 12 * k / 8 + (2 + r) := ⟨94 - 12 * k / 8, by omega⟩
  have hbyte : m.memRead a (8 * 12) / 256 ^ (12 * k / 8) =
      m.memRead (a + 12 * k / 8) 2 + 256 ^ 2 * m.memRead (a + 12 * k / 8 + 2) r := by
    rw [hr, Memory.memRead_div, Memory.memRead_add]
  have hpow : 2 ^ (12 * k) = 256 ^ (12 * k / 8) * 2 ^ (12 * k % 8) := by
    rw [show 256 = 2 ^ 8 from rfl, ← Nat.pow_mul, ← Nat.pow_add, Nat.div_add_mod]
  have hbit : 12 * k % 8 = 0 ∨ 12 * k % 8 = 4 := by omega
  rw [adcAt, streamNat_readWords, BitVec.toNat_ofNat, Nat.shiftRight_eq_div_pow, hpow, ← Nat.div_div_eq_div_mul, hbyte,
    Nat.shiftRight_eq_div_pow]
  rcases hbit with h | h <;> rw [h] <;> omega

/-! ### What a command leaves unchanged (20_memory.md R54, R55) -/

/-- A command that answers a next state completed with one of the codes (60_exceptions.md R163, R165). -/
theorem exec_completed {i : Instr} {s t : State} (h : exec i s = .next t) : ∃ c, Completed c s t := by
  obtain ⟨c, -, rfl⟩ | ⟨-, -, rfl⟩ := exec_cases h
  · exact ⟨c, rfl, rfl, rfl, rfl, rfl, rfl, rfl⟩
  · exact ⟨.ok, rfl, rfl, rfl, rfl, rfl, rfl, rfl⟩

theorem code_bits_ne_zero {c : Code} (h : c ≠ .ok) : c.bits ≠ 0 := by
  cases c with
  | ok => exact absurd rfl h
  | _ => decide

/-- A byte outside the write footprint is as before, whatever code the command completes with. -/
theorem exec_readByte_outside {i : Instr} {s t : State} (hm : s.mem.wf) (h : exec i s = .next t) {a : Nat}
    (ha : ¬ InRegions (writeFootprint s.mem i) a) : t.mem.readByte a = s.mem.readByte a := by
  obtain ⟨c, -, rfl⟩ | ⟨-, -, rfl⟩ := exec_cases h
  · rfl
  · exact readByte_outsOf_outside hm ha

/-- A sample neither byte of which is in the write footprint is as before. -/
theorem exec_readSample_outside {i : Instr} {s t : State} (hm : s.mem.wf) (h : exec i s = .next t) {a : Nat}
    (ha : ∀ b, a ≤ b → b < a + 2 → ¬ InRegions (writeFootprint s.mem i) b) :
    t.mem.readSample a = s.mem.readSample a :=
  Memory.readSample_congr fun b hb hb' => exec_readByte_outside hm h (ha b hb hb')

/-- The padding samples of a flat buffer lie between its rows (20_memory.md R49). -/
theorem trnF_padding_outside {m : Memory} {n : Half} {src dst : Word} {stride : Half} {c k b : Nat}
    (hn : n.toNat ≤ k) (hk : k < stride.toNat) (hb : dst.toNat + 2 * (c * stride.toNat + k) ≤ b)
    (hb' : b < dst.toNat + 2 * (c * stride.toNat + k) + 2) :
    ¬ InRegions (writeFootprint m (.trnF n src dst stride)) b := by
  rw [inRegions_writeFootprint]
  rintro ⟨c', -, hlo, hhi⟩
  simp only [gridBase, gridLen, flatAddr] at hlo hhi
  obtain hlt | rfl | hgt := Nat.lt_trichotomy c c'
  · have hrow := Nat.mul_le_mul_right stride.toNat (Nat.succ_le_of_lt hlt)
    rw [Nat.succ_mul] at hrow
    omega
  · omega
  · have hrow := Nat.mul_le_mul_right stride.toNat (Nat.succ_le_of_lt hgt)
    rw [Nat.succ_mul] at hrow
    omega

theorem getD_rowPointers (m : Memory) (table : Nat) {c : Nat} (hc : c < 128) :
    (rowPointers m table).getD c 0 = m.readWord (table + 8 * c) := by
  simp [rowPointers, Memory.readWords, hc]

/-- A byte between a row's pointer and the row's first written sample is outside that row; it is outside the write
footprint when no other row meets it (20_memory.md R50). -/
theorem trnP_leadIn_outside {m : Memory} {n : Half} {src dst : Word} {offset : Half} {c b : Nat}
    (hown : b < (m.readWord (dst.toNat + 8 * c)).toNat + 2 * offset.toNat)
    (hother : ∀ c' < 128, c' ≠ c → b < (m.readWord (dst.toNat + 8 * c')).toNat + 2 * offset.toNat ∨
      (m.readWord (dst.toNat + 8 * c')).toNat + 2 * offset.toNat + 2 * n.toNat ≤ b) :
    ¬ InRegions (writeFootprint m (.trnP n src dst offset)) b := by
  rw [inRegions_writeFootprint]
  rintro ⟨c', hc', hlo, hhi⟩
  simp only [gridRows, gridBase, gridLen, rowAddr] at hc' hlo hhi
  rw [getD_rowPointers m _ hc'] at hlo hhi
  by_cases heq : c' = c
  · subst heq
    omega
  · have := hother c' hc' heq
    omega

/-- Settles O31: padding and lead-in samples lie outside the write footprint. -/
theorem commandsChangeNoByteOutsideTheirFootprint : Obligations.CommandsChangeNoByteOutsideTheirFootprint := by
  intro i s t hm h
  refine ⟨fun a ha => exec_readByte_outside hm h ha, fun hstatus => ?_, ?_, ?_⟩
  · obtain ⟨c, -, rfl⟩ | ⟨-, -, rfl⟩ := exec_cases h
    · rfl
    · exact absurd rfl hstatus
  · rintro n src dst stride rfl c - k hn hk
    exact exec_readSample_outside hm h fun b hb hb' => trnF_padding_outside hn hk hb hb'
  · rintro n src dst offset rfl c - k hk hrows
    refine exec_readSample_outside hm h fun b hb hb' => trnP_leadIn_outside (c := c) (by omega) fun c' hc' hne => ?_
    have := hrows c' hc' hne
    omega

/-- A command that answers a next state leaves its inputs as they were (20_memory.md R54). -/
theorem exec_readByte_input {i : Instr} {s t : State} (hm : s.mem.wf) (h : exec i s = .next t) {a : Nat}
    (ha : InRegions (readFootprint i) a) : t.mem.readByte a = s.mem.readByte a := by
  obtain ⟨c, -, rfl⟩ | ⟨-, hd, rfl⟩ := exec_cases h
  · rfl
  · exact readByte_outsOf_outside hm (hd.inputApart a ha)

/-- Settles O32: the host's duties keep the output apart from the input, and a fault writes nothing. -/
theorem inputIsNeverWritten : Obligations.InputIsNeverWritten :=
  fun _ _ _ hm h _ ha => exec_readByte_input hm h ha

/-! ### What a command's result depends on (20_memory.md R61) -/

/-- Writing the same samples twice leaves what writing them once leaves. -/
theorem Memory.writeSamples_twice {m : Memory} (hm : m.wf) {l : List (Nat × Sample)} (hl : Compatible l) :
    (m.writeSamples l).writeSamples l = m.writeSamples l := by
  rw [← Memory.writeSamples_append]
  exact (Memory.writeSamples_congr hm hl fun e => by simp).symm

/-- On memory that agrees on `RD(cmd)` a command returns the same code and writes the same bytes. -/
theorem exec_on_agreeing_memory {i : Instr} {s t : State} (hs : s.mem.wf) (h : exec i s = .next t) {m : Memory}
    (hm : m.wf) (ha : ∀ a, InRegions (readFootprint i) a → m.readByte a = s.mem.readByte a) :
    ∃ u, exec i { s with mem := m } = .next u ∧ u.status = t.status ∧
      (t.status = 0 → ∀ a, InRegions (writeFootprint s.mem i) a → u.mem.readByte a = t.mem.readByte a) ∧
      (∀ a, t.status ≠ 0 ∨ ¬ InRegions (writeFootprint s.mem i) a → u.mem.readByte a = m.readByte a) := by
  obtain ⟨c, hc, rfl, hu⟩ | ⟨hd, rfl, hu⟩ :=
    exec_transfer (s' := { s with mem := m }) h rfl rfl (.of_readFootprint ha)
  · exact ⟨_, hu, rfl, fun h0 => absurd h0 (code_bits_ne_zero hc), fun _ _ => rfl⟩
  · refine ⟨_, hu, rfl, fun _ a hin => (readByte_outsOf_on hs hm hd a).1 hin, fun a hout => ?_⟩
    exact (readByte_outsOf_on hs hm hd a).2 (hout.resolve_left fun h0 => h0 rfl)

/-- A command repeated at once finds its inputs unchanged, returns the same code and leaves memory as it was. -/
theorem exec_again {i : Instr} {s t : State} (hs : s.mem.wf) (h : exec i s = .next t) :
    ∃ u, exec i t = .next u ∧ u.status = t.status ∧ u.mem = t.mem := by
  have ha : InputsAgree s.mem t.mem i := .of_readFootprint fun a ha => exec_readByte_input hs h ha
  obtain ⟨_, hcompleted⟩ := exec_completed h
  obtain ⟨c, -, rfl, hu⟩ | ⟨hd, rfl, hu⟩ := exec_transfer h hcompleted.readable hcompleted.writable ha
  · exact ⟨_, hu, rfl, rfl⟩
  · exact ⟨_, hu, rfl, Memory.writeSamples_twice hs (outsOf_compatible hd)⟩

/-- Settles O45. -/
theorem commandsAreIdempotent : Obligations.CommandsAreIdempotent :=
  fun _ _ _ hs h => ⟨fun _ hm ha => exec_on_agreeing_memory hs h hm ha, exec_again hs h⟩

/-! ### The host's duties (20_memory.md R50, R56) -/

theorem any_has_iff {rs : List Region} {a : Nat} : rs.any (·.has a) = true ↔ InRegions rs a := by
  simp [InRegions]

/-- The model refuses every act that breaks R56. -/
theorem refusal_of_breaksR56 {rd wr : List Region} {act : HostAct} (h : BreaksR56 rd wr act) :
    act.refusal? rd wr = some .touchedDuringCommand := by
  obtain ⟨a, v, rfl, ha⟩ | ⟨a, rfl, ha⟩ | ⟨r, a, rfl, hr, ha⟩ := h
  · rw [HostAct.refusal?, if_pos (any_has_iff.2 (inRegions_append.2 ha))]
  · rw [HostAct.refusal?, if_pos (any_has_iff.2 ha)]
  · refine if_neg fun hall => ?_
    have hapart := (Region.all_disjoint_iff (rs := [r]) (qs := rd ++ wr)).1 (by simpa using hall)
    exact hapart a hr (inRegions_append.2 ha)

/-- One refused act, wherever it stands, has all of them refused. -/
theorem actsRefusal_of_mem {rd wr : List Region} {acts : List HostAct} {act : HostAct} {r : Refusal}
    (hact : act ∈ acts) (hr : act.refusal? rd wr = some r) : ∃ q, actsRefusal rd wr acts = some q := by
  induction acts with
  | nil => cases hact
  | cons b acts ih =>
    rw [actsRefusal]
    cases hb : b.refusal? rd wr with
    | some q => exact ⟨q, rfl⟩
    | none =>
      obtain rfl | hmem := List.mem_cons.1 hact
      · rw [hb] at hr
        cases hr
      · exact ih hmem

/-- A command beside which the host breaks R56 is refused, however it would run. -/
theorem besideCommand_of_breaksR56 {d : Command} {i : Instr} {during : List HostAct} {act : HostAct} {s : State}
    (run : State → Host.Outcome State Fault Refusal) (hd : decode d = .ok i) (hact : act ∈ during)
    (h : BreaksR56 (readFootprint i) (writeFootprint s.mem i) act) : ∃ r, besideCommand d during s run = .refused r := by
  obtain ⟨q, hq⟩ := actsRefusal_of_mem hact (refusal_of_breaksR56 h)
  have hrd : bitsRead d = readFootprint i := by simp [bitsRead, hd]
  have hwr : bitsWritten s.mem d = writeFootprint s.mem i := by simp [bitsWritten, hd]
  exact ⟨q, by simp [besideCommand, hrd, hwr, hq]⟩

/-- Settles O56: the host's acts are judged before the command runs, whether or not a reset cuts it short. -/
theorem touchingTheFootprintIsRefused : Obligations.TouchingTheFootprintIsRefused := by
  rintro d i during act s rest hd hact hbreak (hin | hin)
  · rw [step_of_cons hin]
    exact besideCommand_of_breaksR56 (runBits d) hd hact hbreak
  · rw [step_of_cons hin]
    exact besideCommand_of_breaksR56 (runCut d) hd hact hbreak

/-- A command whose checks pass and towards which the host breaks a duty is refused (60_exceptions.md R170). -/
theorem exec_refused_of_not_duties {i : Instr} {s : State} (hc : firstFault (checksOf s.mem i) = none)
    (hd : ¬ DutiesTo i s) : ∃ r, exec i s = .refused r := by
  cases h : exec i s with
  | refused r => exact ⟨r, rfl⟩
  | fault f => exact nomatch f
  | next t =>
    obtain ⟨c, hc', -⟩ | ⟨-, hd', -⟩ := exec_cases h
    · rw [hc] at hc'
      cases hc'
    · exact absurd hd' hd

/-- Every byte of a row from its pointer on, for `OFFSET + N` samples, is in the buffers the host owes `TRN.P`. -/
theorem inRegions_trnP_writeBuffers {m : Memory} {n : Half} {src dst : Word} {offset : Half} {c a : Nat} (hc : c < 128)
    (hlo : (m.readWord (dst.toNat + 8 * c)).toNat ≤ a)
    (hhi : a < (m.readWord (dst.toNat + 8 * c)).toNat + 2 * (offset.toNat + n.toNat)) :
    InRegions (writeBuffers m (.trnP n src dst offset)) a := by
  have hptr := getD_rowPointers m dst.toNat hc
  exact ⟨⟨((rowPointers m dst.toNat).getD c 0).toNat, 2 * (offset.toNat + n.toNat)⟩,
    List.mem_map_of_mem (by simpa using hc), hptr ▸ hlo, hptr ▸ hhi⟩

/-- Settles O59: the byte not held breaks the duty towards the row buffers. -/
theorem trnPWithARowNotHeldIsRefused : Obligations.TrnPWithARowNotHeldIsRefused := by
  rintro n src dst offset s hn hsrc hdst hptrs ⟨c, hc, a, hlo, hhi, ha⟩
  have hfields : firstFault (trnPChecks n src dst) = none := trnPChecks_pass_iff.2 ⟨hn, hsrc, hdst⟩
  have hpointers : firstFault (pointerChecks (rowPointers s.mem dst.toNat)) = none := pointerChecks_pass_iff.2 hptrs
  refine exec_refused_of_not_duties (by rw [checksOf, firstFault_append, hfields, hpointers]; rfl) fun hd => ?_
  exact ha (hd.buffers.valid a (inRegions_trnP_writeBuffers hc hlo hhi))

/-! ### The order of commands (20_memory.md R58) -/

/-- A step whose next action is a legal command, beside which the host does nothing, is that command. -/
theorem step_of_submit_legal {s : State} {d : Command} {i : Instr} {rest : List HostEvent}
    (hin : s.inbox = .submit d [] :: rest) (hd : decode d = .ok i) : step s = exec i { s with inbox := rest } := by
  rw [step_of_submit hin, runBits_of_decode hd]

theorem run_succ_of_step {k : Nat} {s t : State} (h : step s = .next t) :
    Host.Core.run core (k + 1) s = Host.Core.run core k t := by
  have hstep : core.step s = .next t := h
  simp [Host.Core.run, hstep]

/-- Settles O47: the first step leaves the second submission to come. -/
theorem commandsRunInTheOrderSubmitted : Obligations.CommandsRunInTheOrderSubmitted := by
  intro d e i j s t u hin hd he ht hu
  obtain ⟨_, hcompleted⟩ := exec_completed ht
  have hfirst : step s = .next t := (step_of_submit_legal hin hd).trans ht
  have hsecond : step t = .next u := (step_of_submit_legal hcompleted.inbox he).trans hu
  rw [run_succ_of_step hfirst, run_succ_of_step hsecond]
  rfl

end Sys2Proof.Machine
end

section
/-! SUPPORT. The statements about the encoding of commands (30_encoding.md Part B, Part C): the patterns the decoder
takes, the opcode table, the assembler, and where the fields lie. -/

namespace Sys2Proof

/-! ### What the decoder takes and what it makes of it -/

/-- The conditions of R87 beside `OP` and `RSV`: the fields that must be 0 for the opcode are 0, and a kernel's `GRP`
is a channel group. -/
def Desc.FieldsLegal (d : Command) : Opcode → Prop
  | .exp16 | .exp64 | .exp128 => Desc.grp d = 0 ∧ Desc.n d = 0 ∧ Desc.stride d = 0 ∧ Desc.offset d = 0
  | .tr16x8 | .tr16x16 | .tr16x32 => (Desc.grp d).toNat < 8 ∧ Desc.n d = 0 ∧ Desc.offset d = 0
  | .trnF => Desc.grp d = 0 ∧ Desc.offset d = 0
  | .trnP => Desc.grp d = 0 ∧ Desc.stride d = 0

/-- The command of an opcode with its operands taken from the fields (30_encoding.md R85). -/
def Desc.instr (d : Command) : Opcode → Instr
  | .exp16 => .exp16 (Desc.src d) (Desc.dst d)
  | .exp64 => .exp64 (Desc.src d) (Desc.dst d)
  | .exp128 => .exp128 (Desc.src d) (Desc.dst d)
  | .tr16x8 => .tr16x8 (Desc.grp d) (Desc.src d) (Desc.dst d) (Desc.stride d)
  | .tr16x16 => .tr16x16 (Desc.grp d) (Desc.src d) (Desc.dst d) (Desc.stride d)
  | .tr16x32 => .tr16x32 (Desc.grp d) (Desc.src d) (Desc.dst d) (Desc.stride d)
  | .trnF => .trnF (Desc.n d) (Desc.src d) (Desc.dst d) (Desc.stride d)
  | .trnP => .trnP (Desc.n d) (Desc.src d) (Desc.dst d) (Desc.offset d)

/-- The pattern is legal and `OP` names this opcode (30_encoding.md R87). -/
structure Desc.Legal (d : Command) (o : Opcode) : Prop where
  op : Desc.op d = o.bits
  rsv : Desc.rsv d = 0
  fields : Desc.FieldsLegal d o

@[simp] theorem Desc.opcode_instr (d : Command) (o : Opcode) : (Desc.instr d o).opcode = o := by cases o <;> rfl

/-- The fields are legal when those the opcode does not take are 0 and a kernel's group is in range. -/
theorem Desc.fieldsLegal_of_zeros {d : Command} {o : Opcode} (hgrp : OperandName.grp ∉ o.operands → Desc.grp d = 0)
    (hn : OperandName.n ∉ o.operands → Desc.n d = 0) (hstride : OperandName.stride ∉ o.operands → Desc.stride d = 0)
    (hoffset : OperandName.offset ∉ o.operands → Desc.offset d = 0)
    (hrange : o ∈ [Opcode.tr16x8, .tr16x16, .tr16x32] → (Desc.grp d).toNat < 8) : Desc.FieldsLegal d o := by
  cases o with
  | exp16 | exp64 | exp128 => exact ⟨hgrp (by decide), hn (by decide), hstride (by decide), hoffset (by decide)⟩
  | tr16x8 | tr16x16 | tr16x32 => exact ⟨hrange (by decide), hn (by decide), hoffset (by decide)⟩
  | trnF => exact ⟨hgrp (by decide), hoffset (by decide)⟩
  | trnP => exact ⟨hgrp (by decide), hstride (by decide)⟩

theorem Opcode.bits_injective {o p : Opcode} (h : o.bits = p.bits) : o = p := by
  simpa using congrArg Opcode.ofBits? h

theorem decodeExpand_eq_ok_iff {d : Command} {mk : Word → Word → Instr} {i : Instr} :
    decodeExpand d mk = .ok i ↔
      (Desc.grp d = 0 ∧ Desc.n d = 0 ∧ Desc.stride d = 0 ∧ Desc.offset d = 0) ∧
        mk (Desc.src d) (Desc.dst d) = i := by
  simp [decodeExpand, Desc.expandZeros, and_assoc, ite_eq_iff]

theorem decodeKernel_eq_ok_iff {d : Command} {mk : BitVec 8 → Word → Word → Half → Instr} {i : Instr} :
    decodeKernel d mk = .ok i ↔
      ((Desc.grp d).toNat < 8 ∧ Desc.n d = 0 ∧ Desc.offset d = 0) ∧
        mk (Desc.grp d) (Desc.src d) (Desc.dst d) (Desc.stride d) = i := by
  simp [decodeKernel, Desc.kernelZeros, ← Machine.groupInRange_iff, and_assoc, and_left_comm, ite_eq_iff]

/-- With the opcode known and `RSV` 0, the decoder takes the pattern exactly when its other fields are legal. -/
theorem decode_eq_ok_iff_of_op {d : Command} {o : Opcode} {i : Instr} (hop : Desc.op d = o.bits)
    (hrsv : Desc.rsv d = 0) : decode d = .ok i ↔ Desc.FieldsLegal d o ∧ Desc.instr d o = i := by
  unfold decode
  rw [hop, Opcode.ofBits?_bits]
  cases o with
  | exp16 | exp64 | exp128 => simp [hrsv, decodeExpand_eq_ok_iff, Desc.FieldsLegal, Desc.instr]
  | tr16x8 | tr16x16 | tr16x32 => simp [hrsv, decodeKernel_eq_ok_iff, Desc.FieldsLegal, Desc.instr]
  | trnF | trnP => simp [hrsv, Desc.FieldsLegal, Desc.instr, ite_eq_iff]

theorem decode_ne_ok_of_rsv {d : Command} (h : Desc.rsv d ≠ 0) (i : Instr) : decode d ≠ .ok i := by
  unfold decode
  cases Opcode.ofBits? (Desc.op d) with
  | none => simp
  | some o =>
    simp only [ne_eq, h, not_false_eq_true, if_true]
    nofun

/-- The decoder takes exactly the legal patterns, and makes of each the command of its fields. -/
theorem decode_eq_ok_iff {d : Command} {i : Instr} :
    decode d = .ok i ↔ ∃ o, Desc.Legal d o ∧ Desc.instr d o = i := by
  constructor
  · intro h
    have hrsv : Desc.rsv d = 0 := by
      by_contra hne
      exact decode_ne_ok_of_rsv hne i h
    cases ho : Opcode.ofBits? (Desc.op d) with
    | none => simp [decode, ho] at h
    | some o =>
      have hop := Opcode.bits_of_ofBits? ho
      obtain ⟨hfields, hi⟩ := (decode_eq_ok_iff_of_op hop hrsv).1 h
      exact ⟨o, ⟨hop, hrsv, hfields⟩, hi⟩
  · rintro ⟨o, h, hi⟩
    exact (decode_eq_ok_iff_of_op h.op h.rsv).2 ⟨h.fields, hi⟩

theorem Desc.Legal.decode_eq {d : Command} {o : Opcode} (h : Desc.Legal d o) : decode d = .ok (Desc.instr d o) :=
  decode_eq_ok_iff.2 ⟨o, h, rfl⟩

/-! ### Decoder and encoder -/

theorem encodedFields (i : Instr) : Laws.EncodedFields.Statement i := by
  cases i with
  | exp16 src dst => exact Laws.EncodedFields.exp16 src dst
  | exp64 src dst => exact Laws.EncodedFields.exp64 src dst
  | exp128 src dst => exact Laws.EncodedFields.exp128 src dst
  | tr16x8 grp src dst stride => exact Laws.EncodedFields.tr16x8 grp src dst stride
  | tr16x16 grp src dst stride => exact Laws.EncodedFields.tr16x16 grp src dst stride
  | tr16x32 grp src dst stride => exact Laws.EncodedFields.tr16x32 grp src dst stride
  | trnF n src dst stride => exact Laws.EncodedFields.trnF n src dst stride
  | trnP n src dst offset => exact Laws.EncodedFields.trnP n src dst offset

/-- The operands of a command are found in the fields of its encoding. -/
@[simp] theorem instr_encode (i : Instr) : Desc.instr (encode i) i.opcode = i := by
  cases i <;> simp [encode, Instr.opcode, Desc.instr]

/-- The group of a well-formed kernel's encoding is a channel group. -/
theorem grp_encode_lt {i : Instr} (h : i.wellFormed = true) (hi : i.opcode ∈ [Opcode.tr16x8, .tr16x16, .tr16x32]) :
    (Desc.grp (encode i)).toNat < 8 := by
  cases i with
  | tr16x8 | tr16x16 | tr16x32 => simpa [encode] using Machine.groupInRange_iff.1 h
  | _ => simp [Instr.opcode] at hi

/-- The encoding of a well-formed command is a legal pattern of its opcode (30_encoding.md R87). -/
theorem legal_encode {i : Instr} (h : i.wellFormed = true) : Desc.Legal (encode i) i.opcode := by
  obtain ⟨hop, hrsv, hgrp, hn, hstride, hoffset⟩ := encodedFields i
  exact ⟨hop, hrsv, Desc.fieldsLegal_of_zeros hgrp hn hstride hoffset (grp_encode_lt h)⟩

/-- Settles O3: the encoding is a legal pattern, and its fields are the operands. -/
theorem decodeOfEncodeIsTheCommand : Obligations.DecodeOfEncodeIsTheCommand := by
  intro i hi
  rw [(legal_encode hi).decode_eq, instr_encode]

theorem Desc.Legal.wellFormed_instr {d : Command} {o : Opcode} (h : Desc.Legal d o) :
    (Desc.instr d o).wellFormed = true := by
  have hfields := h.fields
  cases o with
  | tr16x8 | tr16x16 | tr16x32 => exact Machine.groupInRange_iff.2 hfields.1
  | _ => rfl

/-- A legal pattern is its eight fields packed, those its opcode does not take 0. -/
theorem Desc.Legal.encode_instr {d : Command} {o : Opcode} (h : Desc.Legal d o) : encode (Desc.instr d o) = d := by
  obtain ⟨hop, hrsv, hfields⟩ := h
  have hpack := Desc.pack_fields d
  rw [hop, hrsv] at hpack
  cases o with
  | exp16 | exp64 | exp128 =>
    obtain ⟨hgrp, hn, hstride, hoffset⟩ := hfields
    rwa [hgrp, hn, hstride, hoffset] at hpack
  | tr16x8 | tr16x16 | tr16x32 =>
    obtain ⟨-, hn, hoffset⟩ := hfields
    rwa [hn, hoffset] at hpack
  | trnF =>
    obtain ⟨hgrp, hoffset⟩ := hfields
    rwa [hgrp, hoffset] at hpack
  | trnP =>
    obtain ⟨hgrp, hstride⟩ := hfields
    rwa [hgrp, hstride] at hpack

/-- Settles O4: a legal pattern is the encoding of the command of its fields. -/
theorem encodeOfDecodeIsThePattern : Obligations.EncodeOfDecodeIsThePattern := by
  intro d i h
  obtain ⟨o, ho, rfl⟩ := decode_eq_ok_iff.1 h
  exact ⟨ho.wellFormed_instr, ho.encode_instr⟩

/-! ### Illegal patterns (30_encoding.md R87) -/

/-- The conditions of R87, read for one opcode. -/
theorem illegalByR87_iff_of_op {d : Command} {o : Opcode} (hop : Desc.op d = o.bits) :
    IllegalByR87 d ↔ Desc.rsv d ≠ 0 ∨ ¬ Desc.FieldsLegal d o := by
  unfold IllegalByR87
  rw [hop]
  cases o with
  | exp16 | exp64 | exp128 => simp [Opcode.bits, Desc.FieldsLegal, -not_and, not_and_or]
  | tr16x8 | tr16x16 | tr16x32 =>
    simp [Opcode.bits, Desc.FieldsLegal, -not_and, not_and_or, Nat.lt_succ_iff, or_assoc, or_comm, or_left_comm]
  | trnF | trnP => simp [Opcode.bits, Desc.FieldsLegal, -not_and, not_and_or]

/-- The patterns legal by R87 are those the decoder's conditions allow. -/
theorem not_illegalByR87_iff {d : Command} : ¬ IllegalByR87 d ↔ ∃ o, Desc.Legal d o := by
  constructor
  · intro h
    cases ho : Opcode.ofBits? (Desc.op d) with
    | none => exact absurd (.inl (Opcode.ofBits?_eq_none_iff.1 ho)) h
    | some o =>
      have hop := Opcode.bits_of_ofBits? ho
      rw [illegalByR87_iff_of_op hop, not_or, not_not, not_not] at h
      exact ⟨o, hop, h.1, h.2⟩
  · rintro ⟨o, hop, hrsv, hfields⟩
    rw [illegalByR87_iff_of_op hop]
    simp [hrsv, hfields]

/-- A pattern that decodes to no command completes with `IllegalCommand` (60_exceptions.md R166). -/
theorem Machine.faultsWith_of_illegal {d : Command} {why : Illegal} (h : decode d = .error why) (s : Machine.State) :
    Machine.FaultsWith d s .illegalCommand :=
  ⟨_, Machine.runBits_of_illegal h s, ⟨rfl, rfl, rfl, rfl, rfl, rfl, rfl⟩, rfl⟩

/-- Settles O5: the decoder refuses exactly the patterns of R87. -/
theorem illegalPatternsCompleteWithIllegalCommand : Obligations.IllegalPatternsCompleteWithIllegalCommand := by
  refine fun d s => ⟨fun hillegal => ?_, fun hlegal => ?_⟩
  · cases h : decode d with
    | error why => exact Machine.faultsWith_of_illegal h s
    | ok i =>
      obtain ⟨o, ho, -⟩ := decode_eq_ok_iff.1 h
      exact absurd hillegal (not_illegalByR87_iff.2 ⟨o, ho⟩)
  · obtain ⟨o, ho⟩ := not_illegalByR87_iff.1 hlegal
    exact ⟨_, ho.decode_eq⟩

/-! ### The opcode table (30_encoding.md R88) -/

/-- Two commands are equal exactly when their fields are (30_encoding.md R84). -/
theorem Desc.ext_iff {d e : Command} :
    d = e ↔ Desc.op d = Desc.op e ∧ Desc.rsv d = Desc.rsv e ∧ Desc.grp d = Desc.grp e ∧ Desc.n d = Desc.n e ∧
      Desc.src d = Desc.src e ∧ Desc.dst d = Desc.dst e ∧ Desc.stride d = Desc.stride e ∧
      Desc.offset d = Desc.offset e := by
  constructor
  · rintro rfl
    simp
  · rintro ⟨hop, hrsv, hgrp, hn, hsrc, hdst, hstride, hoffset⟩
    rw [← Desc.pack_fields d, ← Desc.pack_fields e, hop, hgrp, hrsv, hn, hsrc, hdst, hstride, hoffset]

/-- A row's mask and pattern, read field by field. -/
theorem OpcodeRow.matches_iff {r : OpcodeRow} {d : Command} :
    r.matches d = true ↔
      Desc.op d &&& Desc.op r.mask = Desc.op r.pattern ∧ Desc.rsv d &&& Desc.rsv r.mask = Desc.rsv r.pattern ∧
      Desc.grp d &&& Desc.grp r.mask = Desc.grp r.pattern ∧ Desc.n d &&& Desc.n r.mask = Desc.n r.pattern ∧
      Desc.src d &&& Desc.src r.mask = Desc.src r.pattern ∧ Desc.dst d &&& Desc.dst r.mask = Desc.dst r.pattern ∧
      Desc.stride d &&& Desc.stride r.mask = Desc.stride r.pattern ∧
      Desc.offset d &&& Desc.offset r.mask = Desc.offset r.pattern := by
  rw [OpcodeRow.matches, beq_iff_eq, Desc.ext_iff]
  simp only [Desc.op, Desc.rsv, Desc.grp, Desc.n, Desc.src, Desc.dst, Desc.stride, Desc.offset,
    BitVec.extractLsb'_and]

/-! The parts of a mask: all bits of a field, or those of `GRP` that must be 0. -/

@[simp] theorem and_mask8 (x : BitVec 8) : x &&& 0xFF#8 = x := BitVec.and_allOnes

@[simp] theorem and_mask16 (x : BitVec 16) : x &&& 0xFFFF#16 = x := BitVec.and_allOnes

@[simp] theorem and_mask32 (x : BitVec 32) : x &&& 0xFFFFFFFF#32 = x := BitVec.and_allOnes

@[simp] theorem grp_and_mask_eq_zero_iff (grp : BitVec 8) : grp &&& 0xF8#8 = 0#8 ↔ grp.toNat < 8 := by
  revert grp
  decide

theorem Desc.legal_iff {d : Command} {o : Opcode} :
    Desc.Legal d o ↔ Desc.op d = o.bits ∧ Desc.rsv d = 0 ∧ Desc.FieldsLegal d o :=
  ⟨fun h => ⟨h.op, h.rsv, h.fields⟩, fun ⟨hop, hrsv, hfields⟩ => ⟨hop, hrsv, hfields⟩⟩

/-- A row of the table matches exactly the legal patterns of its opcode. -/
theorem OpcodeRow.matches_iff_legal {r : OpcodeRow} (hr : r ∈ opcodeTable) {d : Command} :
    r.matches d = true ↔ Desc.Legal d r.opcode := by
  rw [OpcodeRow.matches_iff, Desc.legal_iff]
  simp only [opcodeTable, List.mem_cons, List.not_mem_nil, or_false] at hr
  obtain rfl | rfl | rfl | rfl | rfl | rfl | rfl | rfl := hr
  all_goals
    simp [Desc.op, Desc.rsv, Desc.grp, Desc.n, Desc.src, Desc.dst, Desc.stride, Desc.offset, Desc.FieldsLegal,
      Opcode.bits]

/-- A pattern is legal for one opcode only. -/
theorem Desc.Legal.unique {d : Command} {o p : Opcode} (ho : Desc.Legal d o) (hp : Desc.Legal d p) : o = p :=
  Opcode.bits_injective (ho.op.symm.trans hp.op)

/-- Settles O6: the row of an opcode matches its legal patterns and no others. -/
theorem decodeAgreesWithTheOpcodeTable : Obligations.DecodeAgreesWithTheOpcodeTable := by
  refine fun d => ⟨fun i hi r hr => ?_, fun why hwhy r hr => ?_⟩
  · obtain ⟨o, ho, rfl⟩ := decode_eq_ok_iff.1 hi
    rw [OpcodeRow.matches_iff_legal hr, Desc.opcode_instr]
    exact ⟨fun h => h.unique ho, fun h => h ▸ ho⟩
  · rw [Bool.eq_false_iff, ne_eq, OpcodeRow.matches_iff_legal hr]
    intro h
    rw [h.decode_eq] at hwhy
    cases hwhy

/-! ### The assembler (30_encoding.md R89) -/

/-- "An operand that is not written is 0", so one the mnemonic does not take is. -/
theorem AsmLine.value_of_not_taken {l : AsmLine} {o : OperandName}
    (htaken : ∀ p ∈ l.operands, p.1 ∈ l.mnemonic.operands) (ho : o ∉ l.mnemonic.operands) : l.value o = 0 := by
  have hnone : l.operands.find? (·.1 == o) = none := by
    rw [List.find?_eq_none]
    intro p hp heq
    exact ho (beq_iff_eq.1 heq ▸ htaken p hp)
  simp [AsmLine.value, hnone]

theorem AsmLine.value_lt {l : AsmLine} (hfits : ∀ p ∈ l.operands, p.2 < 2 ^ p.1.width) (o : OperandName) :
    l.value o < 2 ^ o.width := by
  unfold AsmLine.value
  cases h : l.operands.find? (·.1 == o) with
  | none => simp
  | some p =>
    have hname : p.1 = o := by simpa using List.find?_some h
    simpa [hname] using hfits p (List.mem_of_find?_eq_some h)

/-- What the assembler emits for a line. -/
def AsmLine.packed (l : AsmLine) : Command :=
  Desc.pack l.mnemonic.bits (BitVec.ofNat 8 (l.value .grp)) 0 (BitVec.ofNat 32 (l.value .n))
    (BitVec.ofNat 64 (l.value .src)) (BitVec.ofNat 64 (l.value .dst))
    (BitVec.ofNat 32 (l.value .stride)) (BitVec.ofNat 32 (l.value .offset))

/-- A line that is assembled takes and fits its operands, and its values are packed. -/
theorem assemble_eq_ok {l : AsmLine} {d : Command} (h : assemble l = .ok d) :
    (∀ o ∉ l.mnemonic.operands, l.value o = 0) ∧ (∀ o, l.value o < 2 ^ o.width) ∧ d = l.packed := by
  unfold assemble at h
  split at h
  case isFalse => cases h
  case isTrue htaken =>
    split at h
    case isFalse => cases h
    case isTrue =>
      split at h
      case isFalse => cases h
      case isTrue hfits =>
        simp only [List.all_eq_true, List.contains_iff_mem, decide_eq_true_eq] at htaken hfits
        cases h
        exact ⟨fun o => AsmLine.value_of_not_taken htaken, AsmLine.value_lt hfits, rfl⟩

/-- The kernels take neither `N` nor `OFFSET` (30_encoding.md R85). -/
theorem Opcode.n_offset_not_taken {o : Opcode} (ho : o ∈ [Opcode.tr16x8, .tr16x16, .tr16x32]) :
    OperandName.n ∉ o.operands ∧ OperandName.offset ∉ o.operands := by
  simp only [List.mem_cons, List.not_mem_nil, or_false] at ho
  obtain rfl | rfl | rfl := ho <;> decide

/-- A kernel with its other fields legal and a group above 7 is refused for its group. -/
theorem decode_of_group_above {d : Command} {o : Opcode} (ho : o ∈ [Opcode.tr16x8, .tr16x16, .tr16x32])
    (hop : Desc.op d = o.bits) (hrsv : Desc.rsv d = 0) (hn : Desc.n d = 0) (hoffset : Desc.offset d = 0)
    (hgrp : 7 < (Desc.grp d).toNat) : decode d = .error .groupRange := by
  have hrange : groupInRange (Desc.grp d) = false := by
    rw [Bool.eq_false_iff, ne_eq, Machine.groupInRange_iff]
    omega
  have hkernel : ∀ mk, decodeKernel d mk = .error .groupRange := by
    simp [decodeKernel, Desc.kernelZeros, hn, hoffset, hrange]
  unfold decode
  rw [hop, Opcode.ofBits?_bits]
  simp only [List.mem_cons, List.not_mem_nil, or_false] at ho
  obtain rfl | rfl | rfl := ho <;> simp [hrsv, hkernel]

/-- A field whose operand the line's mnemonic does not take is packed as 0, and a group of at most 7 as it is. -/
theorem AsmLine.fieldsLegal_packed {l : AsmLine} (hzero : ∀ o ∉ l.mnemonic.operands, l.value o = 0)
    (hgrp : l.mnemonic ∈ [Opcode.tr16x8, .tr16x16, .tr16x32] → l.value .grp ≤ 7) :
    Desc.FieldsLegal l.packed l.mnemonic := by
  refine Desc.fieldsLegal_of_zeros (fun h => ?_) (fun h => ?_) (fun h => ?_) (fun h => ?_) fun h => ?_
  · simp [AsmLine.packed, hzero _ h]
  · simp [AsmLine.packed, hzero _ h]
  · simp [AsmLine.packed, hzero _ h]
  · simp [AsmLine.packed, hzero _ h]
  · have hle := hgrp h
    simp [AsmLine.packed]
    omega

/-- Settles O7: a line's fields are legal for its mnemonic, or only its group is not. -/
theorem assembledLinesDecodeToTheirMnemonic : Obligations.AssembledLinesDecodeToTheirMnemonic := by
  intro l d h
  obtain ⟨hzero, hlt, rfl⟩ := assemble_eq_ok h
  have hop : Desc.op l.packed = l.mnemonic.bits := Desc.op_pack ..
  have hrsv : Desc.rsv l.packed = 0 := Desc.rsv_pack ..
  by_cases hgroup : l.mnemonic ∈ [Opcode.tr16x8, .tr16x16, .tr16x32] ∧ 7 < l.value .grp
  · obtain ⟨hkernel, hgrp⟩ := hgroup
    have hn : l.value .n = 0 := hzero .n (Opcode.n_offset_not_taken hkernel).1
    have hoffset : l.value .offset = 0 := hzero .offset (Opcode.n_offset_not_taken hkernel).2
    refine .inr ⟨hkernel, hgrp, decode_of_group_above hkernel hop hrsv ?_ ?_ ?_⟩
    · simp [AsmLine.packed, hn]
    · simp [AsmLine.packed, hoffset]
    · have hwidth : l.value .grp < 256 := hlt .grp
      simp [AsmLine.packed]
      omega
  · have hlegal : Desc.Legal l.packed l.mnemonic :=
      ⟨hop, hrsv, AsmLine.fieldsLegal_packed hzero fun hk => by
        by_contra hc
        exact hgroup ⟨hk, by omega⟩⟩
    exact .inl ⟨_, hlegal.decode_eq, Desc.opcode_instr ..⟩

/-! ### The four words of a command (30_encoding.md R83, R84) -/

/-- The fields cut out of the first and the last word, packed again, are the words (30_encoding.md R84). -/
theorem Command.ofWords_eq_pack (w0 w1 w2 w3 : Word) :
    Command.ofWords w0 w1 w2 w3 =
      Desc.pack (w0.extractLsb' 0 8) (w0.extractLsb' 8 8) (w0.extractLsb' 16 16) (w0.extractLsb' 32 32) w1 w2
        (w3.extractLsb' 0 32) (w3.extractLsb' 32 32) := by
  have hfirst : (w0.extractLsb' 0 8).setWidth 64 ||| ((w0.extractLsb' 8 8).setWidth 64 <<< 8) |||
      ((w0.extractLsb' 16 16).setWidth 64 <<< 16) ||| ((w0.extractLsb' 32 32).setWidth 64 <<< 32) = w0 := by
    ext i hi
    simp
    grind
  have hlast : (w3.extractLsb' 0 32).setWidth 64 ||| ((w3.extractLsb' 32 32).setWidth 64 <<< 32) = w3 := by
    ext i hi
    simp
    grind
  rw [Desc.pack, hfirst, hlast]

/-- The four words lie end to end, the first one least significant. -/
theorem Command.append_words (w0 w1 w2 w3 : Word) : w3 ++ w2 ++ w1 ++ w0 = Command.ofWords w0 w1 w2 w3 := by
  unfold Command.ofWords
  apply BitVec.eq_of_getLsbD_eq
  intro i hi
  simp only [BitVec.getLsbD_append]
  simp
  grind

/-- A word below the bits of `x` (30_encoding.md R83). -/
theorem toNat_append_word {n : Nat} (x : BitVec n) (w : Word) : (x ++ w).toNat = w.toNat + x.toNat * 2 ^ 64 := by
  rw [BitVec.toNat_append, ← Nat.shiftLeft_add_eq_or_of_lt w.isLt, Nat.shiftLeft_eq, Nat.add_comm]

theorem Command.toNat_ofWords (w0 w1 w2 w3 : Word) :
    (Command.ofWords w0 w1 w2 w3).toNat =
      w0.toNat + w1.toNat * 2 ^ 64 + w2.toNat * 2 ^ 128 + w3.toNat * 2 ^ 192 := by
  rw [← Command.append_words]
  calc (w3 ++ w2 ++ w1 ++ w0).toNat
      = w0.toNat + (w1.toNat + (w2.toNat + w3.toNat * 2 ^ 64) * 2 ^ 64) * 2 ^ 64 := by
        rw [toNat_append_word, toNat_append_word, toNat_append_word]
    _ = w0.toNat + w1.toNat * 2 ^ 64 + w2.toNat * 2 ^ 128 + w3.toNat * 2 ^ 192 := by ring

/-- Settles O2: the fields of a packed command are the values packed. -/
theorem fieldsLieWhereDescPutsThem : Obligations.FieldsLieWhereDescPutsThem := by
  intro w0 w1 w2 w3
  refine ⟨?_, ?_, ?_, ?_, ?_, ?_, ?_, ?_, Command.toNat_ofWords w0 w1 w2 w3⟩
  all_goals
    rw [Command.ofWords_eq_pack]
    simp only [Desc.op_pack, Desc.grp_pack, Desc.rsv_pack, Desc.n_pack, Desc.src_pack, Desc.dst_pack, Desc.stride_pack,
      Desc.offset_pack]

end Sys2Proof
end

section
/-! SUPPORT. The statements about the data formats (30_encoding.md Part A): the stream of packed ADCs, the lanes of
three words, the channels of a frame, the range of a sample, and the frame words that have no effect. -/

namespace Sys2Proof.Machine

/-! ### The stream of packed words (00_scope.md R15, 30_encoding.md R70) -/

/-- Bit `j` of the stream is bit `j mod 64` of word `j div 64`. -/
theorem testBit_streamNat (ws : List Word) (j : Nat) :
    (streamNat ws).testBit j = (ws.getD (j / 64) 0).getLsbD (j % 64) := by
  induction ws generalizing j with
  | nil => simp [streamNat]
  | cons w ws ih =>
    rw [streamNat, Nat.add_comm, Nat.testBit_two_pow_mul_add _ w.isLt]
    split
    case isTrue h =>
      rw [Nat.div_eq_of_lt h, Nat.mod_eq_of_lt h]
      rfl
    case isFalse h =>
      obtain ⟨k, rfl⟩ := Nat.exists_eq_add_of_le (Nat.le_of_not_lt h)
      rw [ih, Nat.add_sub_cancel_left, Nat.add_mod_left, Nat.add_div_left _ (by omega)]
      rfl

/-- Bit `b` of ADC `k` is bit `12k + b` of the stream. -/
theorem getElem_adcAt (ws : List Word) (k : Nat) {b : Nat} (hb : b < 12) :
    (adcAt ws k)[b] = (ws.getD ((12 * k + b) / 64) 0).getLsbD ((12 * k + b) % 64) := by
  rw [← testBit_streamNat, adcAt, BitVec.getElem_eq_testBit_toNat, BitVec.toNat_ofNat, Nat.testBit_mod_two_pow,
    Nat.testBit_shiftRight]
  simp [hb]

/-- ADC `k` of one stream is ADC `j` of another when the words from the `q`th on, which it lies in, are the other's. -/
theorem adcAt_congr {ws us : List Word} {k j q : Nat} (hkj : 12 * k = 12 * j + 64 * q)
    (hw : ∀ i, i ≤ (12 * j + 11) / 64 → ws.getD (q + i) 0 = us.getD i 0) : adcAt ws k = adcAt us j := by
  ext b hb
  have hdiv : (12 * k + b) / 64 = q + (12 * j + b) / 64 := by omega
  have hmod : (12 * k + b) % 64 = (12 * j + b) % 64 := by omega
  rw [getElem_adcAt ws k hb, getElem_adcAt us j hb, hdiv, hmod, hw _ (by omega)]

/-- The pattern of packed ADCs repeats every three words (30_encoding.md R71). -/
theorem adcAt_three_words (w0 w1 w2 : Word) (ws : List Word) (k : Nat) :
    adcAt (w0 :: w1 :: w2 :: ws) (16 + k) = adcAt ws k :=
  adcAt_congr (q := 3) (by omega) fun i _ => by rw [Nat.add_comm]; rfl

/-- ADC `16g + i` of a stream is ADC `i` of the three words of its group `g` (40_expand.md R105). -/
theorem adcAt_group (ws : List Word) (g : Nat) {i : Nat} (hi : i < 16) :
    adcAt ws (16 * g + i) = adcAt [ws.getD (3 * g) 0, ws.getD (3 * g + 1) 0, ws.getD (3 * g + 2) 0] i := by
  refine adcAt_congr (q := 3 * g) (by omega) fun q hq => ?_
  have hq' : q = 0 ∨ q = 1 ∨ q = 2 := by omega
  obtain rfl | rfl | rfl := hq' <;> rfl

/-- An ADC inside word `q`, from its bit `r` on. -/
theorem adcAt_within (ws : List Word) {k q r : Nat} (hk : 12 * k = 64 * q + r) (hr : r + 12 ≤ 64) :
    adcAt ws k = (ws.getD q 0).extractLsb' r 12 := by
  ext b hb
  have hdiv : (12 * k + b) / 64 = q := by omega
  have hmod : (12 * k + b) % 64 = r + b := by omega
  rw [getElem_adcAt ws k hb, hdiv, hmod, BitVec.getElem_extractLsb']

/-- An ADC whose low `l` bits end word `q` and whose high `h` bits begin the next word. -/
theorem adcAt_across (ws : List Word) {k q h l : Nat} (hw : 12 = h + l) (hk : 12 * k + l = 64 * (q + 1)) :
    (adcAt ws k).cast hw = (ws.getD (q + 1) 0).extractLsb' 0 h ++ (ws.getD q 0).extractLsb' (64 - l) l := by
  ext b hb
  rw [BitVec.getElem_cast, getElem_adcAt ws k (by omega), BitVec.getElem_append]
  split
  case isTrue hlow =>
    have hdiv : (12 * k + b) / 64 = q := by omega
    have hmod : (12 * k + b) % 64 = 64 - l + b := by omega
    rw [hdiv, hmod, BitVec.getElem_extractLsb']
  case isFalse hhigh =>
    have hdiv : (12 * k + b) / 64 = q + 1 := by omega
    have hmod : (12 * k + b) % 64 = 0 + (b - l) := by omega
    rw [hdiv, hmod, BitVec.getElem_extractLsb']

/-! ### The sixteen lanes of three words (30_encoding.md R71, 40_expand.md R103) -/

/-- Masking a word's low `k` bits keeps those bits. -/
theorem and_low_mask (w : Word) (k : Nat) : w &&& (BitVec.allOnes k).setWidth 64 = (w.setWidth k).setWidth 64 := by
  ext b hb
  simp [← BitVec.getLsbD_eq_getElem, hb, Bool.and_comm]

/-- A lane inside one word. -/
theorem low12_within (w : Word) (r : Nat) : low12 ((w >>> r) &&& 0xFFF#64) = w.extractLsb' r 12 := by
  have hmask : (w >>> r) &&& 0xFFF#64 = ((w >>> r).setWidth 12).setWidth 64 := and_low_mask _ 12
  rw [low12, hmask]
  ext b hb
  simp

/-- Lane 5: its low 4 bits end word 0, its high 8 bits begin word 1. -/
theorem append_eq_low12_lane5 (w0 w1 : Word) :
    w1.extractLsb' 0 8 ++ w0.extractLsb' 60 4 = low12 (((w1 &&& 0xFF#64) <<< 4) ||| (w0 >>> 60)) := by
  have hmask : w1 &&& 0xFF#64 = (w1.setWidth 8).setWidth 64 := and_low_mask _ 8
  rw [low12, hmask]
  ext b hb
  rw [BitVec.getElem_append]
  simp
  grind

/-- Lane 10: its low 8 bits end word 1, its high 4 bits begin word 2. -/
theorem append_eq_low12_lane10 (w1 w2 : Word) :
    w2.extractLsb' 0 4 ++ w1.extractLsb' 56 8 =
      low12 (((w2 &&& 0xF#64) <<< 8) ||| ((w1 >>> 56) &&& 0xFF#64)) := by
  have hmask : ∀ w : Word, w &&& 0xFF#64 = (w.setWidth 8).setWidth 64 := fun w => and_low_mask w 8
  have hmask' : w2 &&& 0xF#64 = (w2.setWidth 4).setWidth 64 := and_low_mask _ 4
  rw [low12, hmask, hmask']
  ext b hb
  rw [BitVec.getElem_append]
  simp
  grind

/-- The table of R71. -/
theorem unpack16_eq_table (w0 w1 w2 : Word) : unpack16 w0 w1 w2 =
    [w0.extractLsb' 0 12, w0.extractLsb' 12 12, w0.extractLsb' 24 12, w0.extractLsb' 36 12, w0.extractLsb' 48 12,
     w1.extractLsb' 0 8 ++ w0.extractLsb' 60 4,
     w1.extractLsb' 8 12, w1.extractLsb' 20 12, w1.extractLsb' 32 12, w1.extractLsb' 44 12,
     w2.extractLsb' 0 4 ++ w1.extractLsb' 56 8,
     w2.extractLsb' 4 12, w2.extractLsb' 16 12, w2.extractLsb' 28 12, w2.extractLsb' 40 12, w2.extractLsb' 52 12] := by
  rw [append_eq_low12_lane5, append_eq_low12_lane10]
  simp only [unpack16, low12_within]
  rfl

/-- Settles O10: the table, and the pattern's period of three words. -/
theorem lanesLieAsTheTableGives : Obligations.LanesLieAsTheTableGives :=
  ⟨unpack16_eq_table, adcAt_three_words⟩

/-- Each lane of three words is the ADC of their stream at its index (40_expand.md R103). -/
theorem unpack16_eq_map_adcAt (w0 w1 w2 : Word) : unpack16 w0 w1 w2 = (List.range 16).map (adcAt [w0, w1, w2]) := by
  rw [unpack16_eq_table]
  have h5 : adcAt [w0, w1, w2] 5 = w1.extractLsb' 0 8 ++ w0.extractLsb' 60 4 :=
    adcAt_across [w0, w1, w2] (q := 0) (h := 8) (l := 4) rfl (by omega)
  have h10 : adcAt [w0, w1, w2] 10 = w2.extractLsb' 0 4 ++ w1.extractLsb' 56 8 :=
    adcAt_across [w0, w1, w2] (q := 1) (h := 4) (l := 8) rfl (by omega)
  have h0 : ∀ k < 5, adcAt [w0, w1, w2] k = w0.extractLsb' (12 * k) 12 := fun k hk =>
    adcAt_within _ (q := 0) (by omega) (by omega)
  have h1 : ∀ k, 6 ≤ k → k < 10 → adcAt [w0, w1, w2] k = w1.extractLsb' (12 * k - 64) 12 := fun k hk hk' =>
    adcAt_within _ (q := 1) (by omega) (by omega)
  have h2 : ∀ k, 11 ≤ k → k < 16 → adcAt [w0, w1, w2] k = w2.extractLsb' (12 * k - 128) 12 := fun k hk hk' =>
    adcAt_within _ (q := 2) (by omega) (by omega)
  rw [← h5, ← h10]
  simp [List.range_succ, h0, h1, h2]

theorem getD_unpack16 (w0 w1 w2 : Word) {i : Nat} (hi : i < 16) :
    (unpack16 w0 w1 w2).getD i 0 = adcAt [w0, w1, w2] i := by
  simp [unpack16_eq_map_adcAt, hi]

/-! ### The channels of a frame (30_encoding.md R77) -/

/-- Channel `c` is ADC `c mod 64` of the link whose twelve words begin at frame word 4 or 18. -/
theorem sampleAt_eq_adcAt (m : Memory) (f : Nat) {c : Nat} (hc : c < 128) :
    sampleAt m f c = adcAt (m.readWords (f + 8 * (if c / 64 = 0 then 4 else 18)) 12) (c % 64) := by
  have hlink : 4 + 14 * (c / 64) = if c / 64 = 0 then 4 else 18 := by split <;> omega
  rw [← hlink]
  rfl

theorem Memory.getD_readWords (m : Memory) (a : Nat) {n j : Nat} (hj : j < n) :
    (m.readWords a n).getD j 0 = m.readWord (a + 8 * j) := by
  simp [Memory.readWords, hj]

/-- Channel `c` is lane `c mod 16` of group `c div 16`: that group's words are three of its link's. -/
theorem sampleAt_eq_lane (m : Memory) (f c : Nat) :
    sampleAt m f c = (unpack16 (m.readWord (f + 8 * groupWord (c / 16))) (m.readWord (f + 8 * (groupWord (c / 16) + 1)))
      (m.readWord (f + 8 * (groupWord (c / 16) + 2)))).getD (c % 16) 0 := by
  set a := f + 8 * (4 + 14 * (c / 64)) with ha
  set g := c % 64 / 16 with hg
  have hindex : c % 64 = 16 * g + c % 16 := by omega
  have hword : ∀ j, a + 8 * (3 * g + j) = f + 8 * (groupWord (c / 16) + j) := fun j => by
    unfold groupWord
    omega
  calc sampleAt m f c
      = adcAt (m.readWords a 12) (16 * g + c % 16) := by rw [← hindex]; rfl
    _ = adcAt [m.readWord (a + 8 * (3 * g)), m.readWord (a + 8 * (3 * g + 1)), m.readWord (a + 8 * (3 * g + 2))]
        (c % 16) := by
      rw [adcAt_group _ _ (by omega), Memory.getD_readWords m a (by omega), Memory.getD_readWords m a (by omega),
        Memory.getD_readWords m a (by omega)]
    _ = _ := by rw [getD_unpack16 _ _ _ (by omega), hword 1, hword 2, ← Nat.add_zero (3 * g), hword 0, Nat.add_zero]

/-- Settles O14: a channel's ADC by its link, and as a lane of its group. -/
theorem channelsLieWhereTheFramePutsThem : Obligations.ChannelsLieWhereTheFramePutsThem := by
  refine ⟨by decide, fun g _ => rfl, fun m f c hc => ⟨?_, sampleAt_eq_lane m f c⟩⟩
  rw [sampleAt_eq_adcAt m f hc, Memory.readWords]
  simp only [Nat.mul_add, Nat.add_assoc]

/-! ### Output samples (30_encoding.md R79) -/

theorem extractLsb'_zext16 (a : Adc) : (zext16 a).extractLsb' 12 4 = 0 := by
  unfold zext16
  ext b hb
  simp

/-- Every sample a command writes is a packed sample extended with zeros. -/
theorem gridVal_eq_zext16 (m : Memory) (i : Instr) (c t : Nat) : ∃ a, gridVal m i c t = zext16 a := by
  cases i <;> exact ⟨_, rfl⟩

/-- Settles O33: the samples of the write footprint are those the command wrote. -/
theorem writtenSamplesHaveTopBitsClear : Obligations.WrittenSamplesHaveTopBitsClear := by
  intro i s t hm h hok r hr k hk
  obtain ⟨-, hd, rfl⟩ := exec_ok h hok
  rw [writeFootprint_eq, List.mem_map] at hr
  obtain ⟨c, hc, rfl⟩ := hr
  have hread := readSample_outsOf hm hd (List.mem_range.1 hc) (t := k) (by simpa using hk)
  obtain ⟨a, ha⟩ := gridVal_eq_zext16 s.mem i c k
  rw [complete_mem, hread, ha, extractLsb'_zext16]

/-! ### Frame headers (30_encoding.md R76) -/

/-- A packed ADC byte of a frame is no header byte of this frame or of another. -/
theorem AdcBytesAgree.of_headers {m m' : Memory} {i : Instr}
    (h : ∀ a, m'.readByte a ≠ m.readByte a → HeaderByte i a) (t : Nat) :
    AdcBytesAgree m m' ((framesOf i).1 + 240 * t) := by
  intro b hb
  by_contra hne
  obtain ⟨⟨t', -, hheader⟩, -⟩ := h b hne
  omega

/-- Memories that differ in frame headers alone agree on the inputs of the command. -/
theorem InputsAgree.of_headers {m m' : Memory} {i : Instr}
    (h : ∀ a, m'.readByte a ≠ m.readByte a → HeaderByte i a) : InputsAgree m m' i := by
  have hadc := AdcBytesAgree.of_headers h
  cases i with
  | exp16 src dst | exp64 src dst =>
    intro b _ _
    by_contra hne
    obtain ⟨⟨t, ht, -⟩, -⟩ := h b hne
    exact Nat.not_lt_zero t ht
  | exp128 src dst => exact hadc 0
  | trnP n src dst offset =>
    refine ⟨fun t _ => hadc t, fun b hlo hhi => ?_⟩
    by_contra hne
    obtain ⟨-, htable⟩ := h b hne
    have := htable n src dst offset rfl
    omega
  | _ => exact fun t _ => hadc t

/-- Settles O34: the command's checks, duties and samples are those of the first memory. -/
theorem frameHeaderWordsHaveNoEffect : Obligations.FrameHeaderWordsHaveNoEffect := by
  intro i s t m hs hm hdiff h
  obtain ⟨c, hc, rfl, hu⟩ | ⟨hd, rfl, hu⟩ :=
    exec_transfer (s' := { s with mem := m }) h rfl rfl (.of_headers hdiff)
  · exact ⟨_, hu, rfl, rfl, fun hok => absurd hok (code_bits_ne_zero hc)⟩
  · exact ⟨_, hu, rfl, rfl, fun _ a ha => (readByte_outsOf_on hs hm hd a).1 ha⟩

end Sys2Proof.Machine
end

section
/-! SUPPORT. The statements about the expansions (40_expand.md): unpacking and packing as one number's digits in two
bases, what the three commands write, their checks, and one command as several. -/

namespace Sys2Proof.Machine

/-! ### Words and values as digits of one number (00_scope.md R15, 40_expand.md R109) -/

theorem streamNat_eq_ofDigits (ws : List Word) : streamNat ws = Nat.ofDigits (2 ^ 64) (ws.map BitVec.toNat) := by
  induction ws with
  | nil => rfl
  | cons w ws ih => rw [streamNat, ih, List.map_cons, Nat.ofDigits_cons]

theorem packNat_eq_ofDigits (xs : List Adc) : packNat xs = Nat.ofDigits (2 ^ 12) (xs.map BitVec.toNat) := by
  induction xs with
  | nil => rfl
  | cons x xs ih => rw [packNat, ih, List.map_cons, Nat.ofDigits_cons]

/-- The `k` lowest `w`-bit digits of a number, the lowest first. -/
def lowDigits (w n k : Nat) : List (BitVec w) := (List.range k).map fun j => BitVec.ofNat w (n >>> (w * j))

theorem pack_eq_lowDigits (xs : List Adc) : pack xs = lowDigits 64 (packNat xs) (xs.length * 12 / 64) := rfl

theorem map_adcAt_eq_lowDigits (ws : List Word) (n : Nat) :
    (List.range n).map (adcAt ws) = lowDigits 12 (streamNat ws) n := rfl

theorem lowDigits_succ (w n k : Nat) : lowDigits w n (k + 1) = BitVec.ofNat w n :: lowDigits w (n / 2 ^ w) k := by
  have hdigit : ∀ j, n >>> (w * (j + 1)) = (n / 2 ^ w) >>> (w * j) := fun j => by
    rw [Nat.mul_succ, Nat.add_comm, Nat.shiftRight_add, Nat.shiftRight_eq_div_pow n w]
  simp [lowDigits, List.range_succ_eq_map, hdigit]

theorem ofDigits_lowDigits (w n k : Nat) :
    Nat.ofDigits (2 ^ w) ((lowDigits w n k).map BitVec.toNat) = n % 2 ^ (w * k) := by
  induction k generalizing n with
  | zero => simp [lowDigits, Nat.mod_one]
  | succ k ih =>
    rw [lowDigits_succ, List.map_cons, Nat.ofDigits_cons, ih, BitVec.toNat_ofNat, Nat.mul_succ, Nat.add_comm (w * k),
      Nat.pow_add, Nat.mod_mul]

theorem lt_of_mem_map_toNat {w n : Nat} {xs : List (BitVec w)} (h : n ∈ xs.map BitVec.toNat) : n < 2 ^ w := by
  obtain ⟨v, -, rfl⟩ := List.mem_map.1 h
  exact v.isLt

theorem ofDigits_toNat_lt {w : Nat} (hw : w ≠ 0) (xs : List (BitVec w)) :
    Nat.ofDigits (2 ^ w) (xs.map BitVec.toNat) < 2 ^ (w * xs.length) := by
  have h := Nat.ofDigits_lt_base_pow_length (l := xs.map BitVec.toNat) (Nat.one_lt_two_pow hw)
    fun _ => lt_of_mem_map_toNat
  rwa [List.length_map, ← Nat.pow_mul] at h

/-- A list of digits is the low digits of its number. -/
theorem lowDigits_ofDigits {w : Nat} (hw : w ≠ 0) (xs : List (BitVec w)) :
    lowDigits w (Nat.ofDigits (2 ^ w) (xs.map BitVec.toNat)) xs.length = xs := by
  refine List.map_injective_iff.2 (fun _ _ => BitVec.eq_of_toNat_eq) (Nat.ofDigits_inj_of_len_eq
    (Nat.one_lt_two_pow hw) (by simp [lowDigits]) (fun _ => lt_of_mem_map_toNat)
    (fun _ => lt_of_mem_map_toNat) ?_)
  rw [ofDigits_lowDigits, Nat.mod_eq_of_lt (ofDigits_toNat_lt hw xs)]

theorem lowDigits_streamNat (ws : List Word) : lowDigits 64 (streamNat ws) ws.length = ws := by
  rw [streamNat_eq_ofDigits, lowDigits_ofDigits (by decide)]

theorem lowDigits_packNat (xs : List Adc) : lowDigits 12 (packNat xs) xs.length = xs := by
  rw [packNat_eq_ofDigits, lowDigits_ofDigits (by decide)]

/-- Values in a number that is a multiple of 16 fill whole words, and the stream of those words is their number. -/
theorem streamNat_pack {xs : List Adc} (h : xs.length % 16 = 0) : streamNat (pack xs) = packNat xs := by
  have hbits : 64 * (xs.length * 12 / 64) = 12 * xs.length := by omega
  have hlt : packNat xs < 2 ^ (12 * xs.length) := packNat_eq_ofDigits xs ▸ ofDigits_toNat_lt (by decide) xs
  rw [pack_eq_lowDigits, streamNat_eq_ofDigits, ofDigits_lowDigits, hbits, Nat.mod_eq_of_lt hlt]

/-- The ADCs of packed values are the values. -/
theorem map_adcAt_pack {xs : List Adc} (h : xs.length % 16 = 0) :
    (List.range xs.length).map (adcAt (pack xs)) = xs := by
  rw [map_adcAt_eq_lowDigits, streamNat_pack h, lowDigits_packNat]

theorem adcAt_pack {xs : List Adc} (h : xs.length % 16 = 0) {k : Nat} (hk : k < xs.length) :
    adcAt (pack xs) k = xs.getD k 0 := by
  conv_rhs => rw [← map_adcAt_pack h]
  simp [hk]

/-- Packing the ADCs of words gives the words back when no bit of the words is left over. -/
theorem pack_map_adcAt {ws : List Word} {n : Nat} (h : 12 * n = 64 * ws.length) :
    pack ((List.range n).map (adcAt ws)) = ws := by
  have hwords : n * 12 / 64 = ws.length := by omega
  have hlt : streamNat ws < 2 ^ (12 * n) := h ▸ streamNat_eq_ofDigits ws ▸ ofDigits_toNat_lt (by decide) ws
  have hnumber : packNat ((List.range n).map (adcAt ws)) = streamNat ws := by
    rw [map_adcAt_eq_lowDigits, packNat_eq_ofDigits, ofDigits_lowDigits, Nat.mod_eq_of_lt hlt]
  rw [pack_eq_lowDigits, hnumber, List.length_map, List.length_range, hwords, lowDigits_streamNat]

/-! ### Expansion as a part of the stream (40_expand.md R103, R105, R107) -/

/-- Settles O11. -/
theorem unpackOfThreeWordsIsTheStream : Obligations.UnpackOfThreeWordsIsTheStream := unpack16_eq_map_adcAt

/-- The lanes of a group's three words are the group's sixteen ADCs of the stream. -/
theorem unpack16_group (ws : List Word) (g : Nat) :
    unpack16 (ws.getD (3 * g) 0) (ws.getD (3 * g + 1) 0) (ws.getD (3 * g + 2) 0) =
      (List.range 16).map fun i => adcAt ws (16 * g + i) := by
  rw [unpack16_eq_map_adcAt]
  exact List.map_congr_left fun i hi => (adcAt_group ws g (List.mem_range.1 hi)).symm

theorem unpack64_eq_map_adcAt (ws : List Word) : unpack64 ws = (List.range 64).map (adcAt ws) := by
  have hrange : List.range 64 = (List.range 4).flatMap fun j => (List.range 16).map (16 * j + ·) := by decide
  rw [hrange, List.map_flatMap, unpack64]
  refine List.flatMap_congr fun j _ => ?_
  rw [unpack16_group, List.map_map, Function.comp_def]

theorem getD_unpack64 (ws : List Word) {k : Nat} (hk : k < 64) : (unpack64 ws).getD k 0 = adcAt ws k := by
  simp [unpack64_eq_map_adcAt, hk]

/-- Settles O12: both forms are the stream's ADCs. -/
theorem unpackOfALinkIsTheStream : Obligations.UnpackOfALinkIsTheStream := by
  intro ws _
  refine ⟨unpack64_eq_map_adcAt ws, fun j hj i hi => ?_⟩
  rw [getD_unpack64 ws (by omega), adcAt_group ws j hi, getD_unpack16 _ _ _ hi]

/-- The 64 channels of link A, then those of link B. -/
theorem unpack128_eq_links (m : Memory) (f : Nat) :
    unpack128 m f = unpack64 (m.readWords (f + 32) 12) ++ unpack64 (m.readWords (f + 144) 12) := rfl

/-- The ADCs of a link are the channels of the link: those from 0 on for link A, from 64 on for link B. -/
theorem unpack64_link_eq_map_sampleAt (m : Memory) (f link : Nat) :
    unpack64 (m.readWords (f + 8 * (4 + 14 * link)) 12) = (List.range 64).map fun k => sampleAt m f (64 * link + k) := by
  rw [unpack64_eq_map_adcAt]
  refine List.map_congr_left fun k hk => ?_
  have hk := List.mem_range.1 hk
  have hdiv : (64 * link + k) / 64 = link := by omega
  have hmod : (64 * link + k) % 64 = k := by omega
  simp only [sampleAt, Config.chPerLink, Config.linkAdcWords, hdiv, hmod]

theorem unpack128_eq_map_sampleAt (m : Memory) (f : Nat) : unpack128 m f = (List.range 128).map (sampleAt m f) := by
  have hrange : List.range 128 = (List.range 64).map (64 * 0 + ·) ++ (List.range 64).map (64 * 1 + ·) := by decide
  rw [hrange, List.map_append, List.map_map, List.map_map, unpack128_eq_links]
  exact congrArg₂ (· ++ ·) (unpack64_link_eq_map_sampleAt m f 0) (unpack64_link_eq_map_sampleAt m f 1)

theorem getD_unpack128 (m : Memory) (f : Nat) {c : Nat} (hc : c < 128) : (unpack128 m f).getD c 0 = sampleAt m f c := by
  simp [unpack128_eq_map_sampleAt, hc]

/-- Settles O13: the channels of a link are the ADCs of its words. -/
theorem unpackOfAFrameIsItsSamples : Obligations.UnpackOfAFrameIsItsSamples := by
  intro m f
  refine ⟨unpack128_eq_map_sampleAt m f, ?_, ?_⟩
  · rw [unpack128_eq_links, List.take_left' (by simp), Memory.readWords]
    simp only [Nat.mul_add, Nat.add_assoc]
  · rw [unpack128_eq_links, List.drop_left' (by simp), Memory.readWords]
    simp only [Nat.mul_add, Nat.add_assoc]

/-! ### Packing and expansion (40_expand.md R109) -/

theorem unpack16_pack {xs : List Adc} (h : xs.length = 16) :
    unpack16 ((pack xs).getD 0 0) ((pack xs).getD 1 0) ((pack xs).getD 2 0) = xs := by
  have hx := map_adcAt_pack (xs := xs) (by omega)
  rw [h] at hx
  simpa [hx] using unpack16_group (pack xs) 0

theorem unpack64_pack {xs : List Adc} (h : xs.length = 64) : unpack64 (pack xs) = xs := by
  rw [unpack64_eq_map_adcAt, ← h, map_adcAt_pack (by omega)]

/-- Settles O15: the packed words and the values are the digits of one number. -/
theorem expansionUndoesPacking : Obligations.ExpansionUndoesPacking := by
  refine ⟨fun xs h => streamNat_pack h, fun xs h k hk => adcAt_pack h hk, fun xs h => unpack16_pack h,
    fun xs h => unpack64_pack h, fun m f xs h hA hB => ?_⟩
  rw [unpack128_eq_links, hA, hB, unpack64_pack (by simp [h]), unpack64_pack (by simp [h]), List.take_append_drop]

/-- Settles O16: 64 ADCs are the bits of twelve words. -/
theorem packingUndoesExpansion : Obligations.PackingUndoesExpansion := by
  intro ws h
  rw [unpack64_eq_map_adcAt, pack_map_adcAt (by omega)]

/-! ### What the expansions write (40_expand.md R104, R106, R108) -/

/-- A command whose checks pass and towards which the host meets its duties completes with `OK`: its samples are those
of its grid, and no other byte is changed. -/
theorem exec_writes_grid {i : Instr} {s : State} (hm : s.mem.wf) (hc : firstFault (checksOf s.mem i) = none)
    (hd : DutiesTo i s) : ∃ t, exec i s = .next t ∧ Completed .ok s t ∧
      (∀ c < gridRows i, ∀ k < gridLen i,
        t.mem.readSample (gridBase s.mem i c + 2 * k) = gridVal s.mem i c k) ∧
      (∀ a, ¬ InRegions (writeFootprint s.mem i) a → t.mem.readByte a = s.mem.readByte a) :=
  ⟨_, exec_of_duties hc hd, ⟨rfl, rfl, rfl, rfl, rfl, rfl, rfl⟩, fun _ hrow _ hk => readSample_outsOf hm hd hrow hk,
    fun _ ha => readByte_outsOf_outside hm ha⟩

/-- The command is one of the three expansions of `src` to `dst`. -/
inductive IsExpansion (src dst : Word) : Instr → Prop where
  | exp16 : IsExpansion src dst (.exp16 src dst)
  | exp64 : IsExpansion src dst (.exp64 src dst)
  | exp128 : IsExpansion src dst (.exp128 src dst)

namespace IsExpansion
variable {src dst : Word} {i : Instr}

theorem ne_trnP (h : IsExpansion src dst i) (n : Half) (a b : Word) (offset : Half) : i ≠ .trnP n a b offset := by
  cases h <;> nofun

theorem checksOf_eq (h : IsExpansion src dst i) (m : Memory) : checksOf m i = expandChecks src dst := by
  cases h <;> rfl

theorem checks_pass_iff (h : IsExpansion src dst i) {m : Memory} :
    firstFault (checksOf m i) = none ↔ src.toNat % 8 = 0 ∧ dst.toNat % 2 = 0 := by
  rw [h.checksOf_eq, expandChecks_pass_iff]

theorem writeFootprint_eq (h : IsExpansion src dst i) (m : Memory) :
    writeFootprint m i = [⟨dst.toNat, 2 * gridLen i⟩] := by
  cases h <;> rfl

theorem gridRows_eq (h : IsExpansion src dst i) : gridRows i = 1 := by cases h <;> rfl

theorem gridBase_eq (h : IsExpansion src dst i) (m : Memory) (c : Nat) : gridBase m i c = dst.toNat := by
  cases h <;> rfl

/-- An expansion of aligned operands, the host's duties met, writes its one row and nothing else. -/
theorem exec_writes_row (h : IsExpansion src dst i) {s : State} (hm : s.mem.wf) (hsrc : src.toNat % 8 = 0)
    (hdst : dst.toNat % 2 = 0) (hd : Duties s (readFootprint i) [⟨dst.toNat, 2 * gridLen i⟩]) :
    ∃ t, exec i s = .next t ∧ Completed .ok s t ∧
      (∀ k < gridLen i, t.mem.readSample (dst.toNat + 2 * k) = gridVal s.mem i 0 k) ∧
      (∀ a, a < dst.toNat ∨ dst.toNat + 2 * gridLen i ≤ a → t.mem.readByte a = s.mem.readByte a) := by
  rw [← h.writeFootprint_eq s.mem] at hd
  obtain ⟨t, ht, hok, hin, hout⟩ :=
    exec_writes_grid hm (h.checks_pass_iff.2 ⟨hsrc, hdst⟩) (.of_footprints h.ne_trnP hd)
  refine ⟨t, ht, hok, fun k hk => ?_, fun a ha => hout a ?_⟩
  · rw [← h.gridBase_eq s.mem 0]
    exact hin 0 (by simp [h.gridRows_eq]) k hk
  · rw [h.writeFootprint_eq, inRegions_singleton]
    simp only
    omega

end IsExpansion

/-- Settles O17: the lanes are the ADCs of the three words. -/
theorem exp16WritesTheSixteenLanes : Obligations.Exp16WritesTheSixteenLanes := by
  intro src dst s hm hsrc hdst hd
  obtain ⟨t, ht, hok, hin, hout⟩ := IsExpansion.exp16.exec_writes_row hm hsrc hdst hd
  exact ⟨t, ht, hok, fun i hi => (hin i hi).trans (congrArg zext16 (getD_unpack16 _ _ _ hi)), hout⟩

/-- Settles O18: the values of `unpack64` are the ADCs of the link. -/
theorem exp64WritesTheLinkInOrder : Obligations.Exp64WritesTheLinkInOrder := by
  intro src dst s hm hsrc hdst hd
  obtain ⟨t, ht, hok, hin, hout⟩ := IsExpansion.exp64.exec_writes_row hm hsrc hdst hd
  exact ⟨t, ht, hok, fun k hk => (hin k hk).trans (congrArg zext16 (getD_unpack64 _ hk)), hout⟩

/-- Settles O19: the values of `unpack128` are the channels of the frame. -/
theorem exp128WritesTheFrameInChannelOrder : Obligations.Exp128WritesTheFrameInChannelOrder := by
  intro src dst s hm hsrc hdst hd
  obtain ⟨t, ht, hok, hin, hout⟩ := IsExpansion.exp128.exec_writes_row hm hsrc hdst hd
  exact ⟨t, ht, hok, fun c hc => (hin c hc).trans (congrArg zext16 (getD_unpack128 _ _ hc)), hout⟩

/-! ### The checks of the expansions (40_expand.md R101) -/

theorem expandChecks_fault {src dst : Word} (h : src.toNat % 8 ≠ 0 ∨ dst.toNat % 2 ≠ 0) :
    firstFault (expandChecks src dst) = some .alignmentFault := by
  cases hf : firstFault (expandChecks src dst) with
  | none =>
    obtain ⟨hsrc, hdst⟩ := expandChecks_pass_iff.1 hf
    exact absurd h (by simp [hsrc, hdst])
  | some c =>
    obtain ⟨k, hk, rfl⟩ := firstFault_mem hf
    simp only [expandChecks, List.mem_cons, List.not_mem_nil, or_false] at hk
    obtain rfl | rfl := hk <;> rfl

/-- A legal pattern whose `OP` is that of an expansion decodes to an expansion of its `SRC` to its `DST`. -/
theorem decode_expansion {d : Command} (hop : Desc.op d ∈ [0x10#8, 0x11#8, 0x12#8]) (hgrp : Desc.grp d = 0)
    (hrsv : Desc.rsv d = 0) (hn : Desc.n d = 0) (hstride : Desc.stride d = 0) (hoffset : Desc.offset d = 0) :
    ∃ i, decode d = .ok i ∧ IsExpansion (Desc.src d) (Desc.dst d) i := by
  have hfields := And.intro hgrp (And.intro hn (And.intro hstride hoffset))
  simp only [List.mem_cons, List.not_mem_nil, or_false] at hop
  obtain hop | hop | hop := hop
  · exact ⟨_, Desc.Legal.decode_eq (o := .exp16) ⟨hop, hrsv, hfields⟩, .exp16⟩
  · exact ⟨_, Desc.Legal.decode_eq (o := .exp64) ⟨hop, hrsv, hfields⟩, .exp64⟩
  · exact ⟨_, Desc.Legal.decode_eq (o := .exp128) ⟨hop, hrsv, hfields⟩, .exp128⟩

/-- Submitted bits that decode to a command whose checks pass raise no fault. -/
theorem raisesNone_of_checks {d : Command} {i : Instr} {s : State} (hdec : decode d = .ok i)
    (hc : firstFault (checksOf s.mem i) = none) : RaisesNone d s := by
  intro t ht
  rw [submit_nil, runBits_of_decode hdec] at ht
  obtain ⟨c, hc', -⟩ | ⟨-, -, rfl⟩ := exec_cases ht
  · rw [hc] at hc'
    cases hc'
  · rfl

/-- Submitted bits that decode to a command other than `TRN.P` that fails a check complete with that check's code. -/
theorem faultsWith_of_checks {d : Command} {i : Instr} {s : State} {c : Code} (hdec : decode d = .ok i)
    (hi : ∀ n src dst offset, i ≠ .trnP n src dst offset) (hc : firstFault (checksOf s.mem i) = some c) :
    FaultsWith d s c :=
  ⟨_, (runBits_of_decode hdec s).trans (exec_of_fault hi hc), ⟨rfl, rfl, rfl, rfl, rfl, rfl, rfl⟩, rfl⟩

/-- Settles O23: a field that must be 0 makes the pattern illegal, and the operands decide the other checks. -/
theorem expandChecksInOrder : Obligations.ExpandChecksInOrder := by
  intro d s hop
  refine ⟨fun hzero => (illegalPatternsCompleteWithIllegalCommand d s).1 ?_, fun hgrp hrsv hn hstride hoffset => ?_⟩
  · obtain hgrp | hrsv | hrest := hzero
    · exact .inr (.inr (.inl ⟨hop, .inl hgrp⟩))
    · exact .inr (.inl hrsv)
    · exact .inr (.inr (.inl ⟨hop, .inr hrest⟩))
  · obtain ⟨i, hdec, hi⟩ := decode_expansion hop hgrp hrsv hn hstride hoffset
    refine ⟨fun halign => faultsWith_of_checks hdec hi.ne_trnP ?_, fun hsrc hdst => raisesNone_of_checks hdec ?_⟩
    · rw [hi.checksOf_eq, expandChecks_fault halign]
    · exact hi.checks_pass_iff.2 ⟨hsrc, hdst⟩

/-! ### One command as several (40_expand.md R106, R108) -/

/-- Footprints that lie inside others ask no more of the host, when their own rows are apart. -/
theorem Duties.of_inside {s : State} {rd wr rd' wr' : List Region} (h : Duties s rd wr)
    (hrd : ∀ a, InRegions rd' a → InRegions rd a) (hwr : ∀ a, InRegions wr' a → InRegions wr a)
    (hrows : wr'.Pairwise fun r q => ∀ a, InRegions [r] a → ¬ InRegions [q] a) : Duties s rd' wr' where
  fits r hr hlen := by
    have hlast : InRegions (rd' ++ wr') (r.base + r.len - 1) := ⟨r, hr, by omega, by omega⟩
    obtain ⟨q, hq, hlo, hhi⟩ := inRegions_append.2 ((inRegions_append.1 hlast).imp (hrd _) (hwr _))
    have := h.fits q hq (by omega)
    omega
  inputValid a ha := h.inputValid a (hrd a ha)
  outputValid a ha := h.outputValid a (hwr a ha)
  inputApart a ha hw := h.inputApart a (hrd a ha) (hwr a hw)
  rowsApart := hrows

/-- In state `s` the command `j` is a part of the command `i`: it can run there, it reads no more, and the samples it
writes are among those of `i`. -/
structure IsPart (s : State) (i j : Instr) : Prop where
  checks : firstFault (checksOf s.mem j) = none
  duties : DutiesTo j s
  reads : ∀ a, InRegions (readFootprint j) a → InRegions (readFootprint i) a
  outs : outsOf s.mem j ⊆ outsOf s.mem i

/-- State `t` is `s` with some samples of the command `i` written, and holds the same memory for the host. -/
structure Partway (i : Instr) (s t : State) (outs : List (Nat × Sample)) : Prop where
  mem : t.mem = s.mem.writeSamples outs
  outs : outs ⊆ outsOf s.mem i
  readable : t.readable = s.readable
  writable : t.writable = s.writable

theorem Partway.start (i : Instr) (s : State) : Partway i s s [] := ⟨rfl, by simp, rfl, rfl⟩

/-- Partway through a command its input is as it was: the samples written so far lie in its write footprint. -/
theorem Partway.readByte_input {i : Instr} {s t : State} {outs : List (Nat × Sample)} (h : Partway i s t outs)
    (hm : s.mem.wf) (hd : DutiesTo i s) {a : Nat} (ha : InRegions (readFootprint i) a) :
    t.mem.readByte a = s.mem.readByte a := by
  rw [h.mem]
  refine Memory.readByte_writeSamples_outside hm fun e he => ?_
  by_contra hc
  have hin := outsOf_inside (h.outs he) (k := a - e.1) (by omega)
  rw [show e.1 + (a - e.1) = a by omega] at hin
  exact hd.inputApart a ha hin

/-- The next part of a command completes with `OK` and adds its samples: it finds its inputs as they were. -/
theorem Partway.exec_part {i j : Instr} {s t : State} {outs : List (Nat × Sample)} (h : Partway i s t outs)
    (hm : s.mem.wf) (hd : DutiesTo i s) (hj : IsPart s i j) :
    ∃ u, exec j t = .next u ∧ u.status = 0 ∧ Partway i s u (outs ++ outsOf s.mem j) := by
  have ha : InputsAgree s.mem t.mem j := .of_readFootprint fun a ha => h.readByte_input hm hd (hj.reads a ha)
  have hc : firstFault (checksOf t.mem j) = none := by rw [checksOf_congr ha, hj.checks]
  refine ⟨_, exec_of_duties hc (hj.duties.transfer h.readable h.writable ha), rfl, ?_, ?_, h.readable, h.writable⟩
  · rw [complete_mem, outsOf_congr (wellFormed_of_checks hj.checks) ha, h.mem, Memory.writeSamples_append]
  · exact List.append_subset.2 ⟨h.outs, hj.outs⟩

theorem rowOuts_append (dst : Nat) (xs ys : List Adc) :
    rowOuts dst (xs ++ ys) = rowOuts dst xs ++ rowOuts (dst + 2 * xs.length) ys := by
  rw [rowOuts, List.length_append, List.range_add, List.map_append, List.map_map]
  congr 1
  · refine List.map_congr_left fun i hi => ?_
    rw [List.getD_append _ _ _ _ (List.mem_range.1 hi)]
  · refine List.map_congr_left fun i _ => ?_
    rw [Function.comp_apply, List.getD_append_right _ _ _ _ (by omega), Nat.add_sub_cancel_left, Nat.mul_add,
      Nat.add_assoc]

/-- A row of lists of equal length is the rows of the lists, one after another. -/
theorem rowOuts_flatMap (dst : Nat) {f : Nat → List Adc} {len : Nat} (h : ∀ j, (f j).length = len) (n : Nat) :
    rowOuts dst ((List.range n).flatMap f) = (List.range n).flatMap fun j => rowOuts (dst + 2 * (len * j)) (f j) := by
  induction n with
  | zero => rfl
  | succ n ih =>
    have hlen : ((List.range n).flatMap f).length = len * n := by simp [h, Nat.mul_comm]
    simp only [List.range_succ, List.flatMap_append, List.flatMap_singleton, rowOuts_append, ih, hlen]

/-- The samples of `EXP64` are those of the four `EXP16` of its groups. -/
theorem exp64Outs_eq (m : Memory) (src dst : Nat) :
    exp64Outs m src dst = (List.range 4).flatMap fun j => exp16Outs m (src + 24 * j) (dst + 32 * j) := by
  rw [exp64Outs, unpack64, rowOuts_flatMap dst (fun j => length_unpack16 _ _ _) 4]
  refine List.flatMap_congr fun j hj => ?_
  have hj := List.mem_range.1 hj
  have hsrc : ∀ q, src + 8 * (3 * j + q) = src + 24 * j + 8 * q := fun q => by omega
  have hdst : dst + 2 * (16 * j) = dst + 32 * j := by omega
  rw [exp16Outs, Config.linkAdcWords, Memory.getD_readWords _ _ (by omega), Memory.getD_readWords _ _ (by omega),
    Memory.getD_readWords _ _ (by omega), hdst, hsrc 1, hsrc 2, ← Nat.add_zero (3 * j), hsrc 0, Nat.add_zero]

/-- The samples of `EXP128` are those of the `EXP64` of each link. -/
theorem exp128Outs_eq (m : Memory) (src dst : Nat) :
    exp128Outs m src dst = exp64Outs m (src + 32) dst ++ exp64Outs m (src + 144) (dst + 128) := by
  rw [exp128Outs, unpack128_eq_links, rowOuts_append, length_unpack64]
  rfl

/-- An expansion of aligned operands whose footprints lie inside those of another is a part of it when its samples are
among the other's. -/
theorem IsExpansion.isPart {s : State} {i j : Instr} {src dst src' dst' : Word} (hi : IsExpansion src dst i)
    (hj : IsExpansion src' dst' j) (hd : DutiesTo i s) (hsrc : src'.toNat % 8 = 0) (hdst : dst'.toNat % 2 = 0)
    (hreads : ∀ a, InRegions (readFootprint j) a → InRegions (readFootprint i) a) (hlo : dst.toNat ≤ dst'.toNat)
    (hhi : dst'.toNat + 2 * gridLen j ≤ dst.toNat + 2 * gridLen i) (houts : outsOf s.mem j ⊆ outsOf s.mem i) :
    IsPart s i j := by
  refine ⟨hj.checks_pass_iff.2 ⟨hsrc, hdst⟩, .of_footprints hj.ne_trnP (hd.toDuties.of_inside hreads ?_ ?_), hreads,
    houts⟩
  · intro a ha
    rw [hj.writeFootprint_eq, inRegions_singleton] at ha
    rw [hi.writeFootprint_eq, inRegions_singleton]
    simp only at ha ⊢
    omega
  · rw [hj.writeFootprint_eq]
    exact List.pairwise_singleton _ _

/-- An operand raised by an offset inside the interval it begins is that many bytes further on. -/
theorem toNat_add_of_inside {a k : Word} {len : Nat} (hfits : a.toNat + len ≤ 2 ^ 64) (hk : k.toNat < len) :
    (a + k).toNat = a.toNat + k.toNat := BitVec.toNat_add_of_lt (by omega)

/-- The `EXP16` of group `j` of a link is a part of the link's `EXP64`. -/
theorem isPart_exp16_exp64 {s : State} {src dst src' dst' : Word} {j : Nat} (hj : j < 4)
    (hd : DutiesTo (.exp64 src dst) s) (hc : firstFault (checksOf s.mem (.exp64 src dst)) = none)
    (hsrc : src'.toNat = src.toNat + 24 * j) (hdst : dst'.toNat = dst.toNat + 32 * j) :
    IsPart s (.exp64 src dst) (.exp16 src' dst') := by
  obtain ⟨hs, ht⟩ := IsExpansion.exp64.checks_pass_iff.1 hc
  refine IsExpansion.exp64.isPart .exp16 hd (by omega) (by omega) (fun a ha => ?_) (by omega)
    (by simp only [gridLen]; omega) ?_
  · simp only [readFootprint, inRegions_singleton] at ha ⊢
    omega
  · intro e he
    rw [outsOf, exp64Outs_eq]
    rw [outsOf, hsrc, hdst] at he
    exact List.mem_flatMap.2 ⟨j, List.mem_range.2 hj, he⟩

/-- The `EXP64` of a link is a part of the frame's `EXP128`. -/
theorem isPart_exp64_exp128 {s : State} {src dst src' dst' : Word} {link : Nat} (hlink : link < 2)
    (hd : DutiesTo (.exp128 src dst) s) (hc : firstFault (checksOf s.mem (.exp128 src dst)) = none)
    (hsrc : src'.toNat = src.toNat + 32 + 112 * link) (hdst : dst'.toNat = dst.toNat + 128 * link) :
    IsPart s (.exp128 src dst) (.exp64 src' dst') := by
  obtain ⟨hs, ht⟩ := IsExpansion.exp128.checks_pass_iff.1 hc
  refine IsExpansion.exp128.isPart .exp64 hd (by omega) (by omega) (fun a ha => ?_) (by omega)
    (by simp only [gridLen]; omega) ?_
  · simp only [readFootprint, frameRegion, Config.frameBytes, inRegions_singleton] at ha ⊢
    omega
  · intro e he
    rw [outsOf, exp128Outs_eq]
    rw [outsOf, hsrc, hdst] at he
    have hcases : link = 0 ∨ link = 1 := by omega
    obtain rfl | rfl := hcases
    · exact List.mem_append_left _ he
    · exact List.mem_append_right _ he

/-- Settles O35: `EXP64` is made by its four groups, one after another. -/
theorem exp64EqualsFourExp16 : Obligations.Exp64EqualsFourExp16 := by
  intro src dst s t hm h hok
  obtain ⟨hc, hd, rfl⟩ := exec_ok h hok
  have hsrc (k : Word) : k.toNat < 96 → (src + k).toNat = src.toNat + k.toNat :=
    toNat_add_of_inside (hd.fits ⟨src.toNat, 96⟩ (by simp [readFootprint]) (by simp))
  have hdst (k : Word) : k.toNat < 128 → (dst + k).toNat = dst.toNat + k.toNat :=
    toNat_add_of_inside (hd.fits ⟨dst.toNat, 128⟩ (by simp [writeFootprint]) (by simp))
  obtain ⟨t0, h0, -, p0⟩ := (Partway.start _ s).exec_part hm hd (isPart_exp16_exp64 (j := 0) (by omega) hd hc rfl rfl)
  obtain ⟨t1, h1, -, p1⟩ :=
    p0.exec_part hm hd (isPart_exp16_exp64 (j := 1) (by omega) hd hc (hsrc 24 (by decide)) (hdst 32 (by decide)))
  obtain ⟨t2, h2, -, p2⟩ :=
    p1.exec_part hm hd (isPart_exp16_exp64 (j := 2) (by omega) hd hc (hsrc 48 (by decide)) (hdst 64 (by decide)))
  obtain ⟨t3, h3, hok3, p3⟩ :=
    p2.exec_part hm hd (isPart_exp16_exp64 (j := 3) (by omega) hd hc (hsrc 72 (by decide)) (hdst 96 (by decide)))
  refine ⟨t0, t1, t2, t3, h0, h1, h2, h3, hok3, ?_⟩
  rw [p3.mem, complete_mem]
  simp (disch := decide) [outsOf, exp64Outs_eq, List.range_succ, hsrc, hdst]

/-- Settles O36: `EXP128` is made by its two links, one after the other. -/
theorem exp128EqualsTwoExp64 : Obligations.Exp128EqualsTwoExp64 := by
  intro src dst s t hm h hok
  obtain ⟨hc, hd, rfl⟩ := exec_ok h hok
  have hsrc (k : Word) : k.toNat < 240 → (src + k).toNat = src.toNat + k.toNat :=
    toNat_add_of_inside (hd.fits ⟨src.toNat, 240⟩ (by simp [readFootprint, frameRegion]) (by simp))
  have hdst (k : Word) : k.toNat < 256 → (dst + k).toNat = dst.toNat + k.toNat :=
    toNat_add_of_inside (hd.fits ⟨dst.toNat, 256⟩ (by simp [writeFootprint]) (by simp))
  obtain ⟨t0, h0, -, p0⟩ :=
    (Partway.start _ s).exec_part hm hd (isPart_exp64_exp128 (link := 0) (by omega) hd hc (hsrc 32 (by decide)) rfl)
  obtain ⟨t1, h1, hok1, p1⟩ :=
    p0.exec_part hm hd (isPart_exp64_exp128 (link := 1) (by omega) hd hc (hsrc 144 (by decide)) (hdst 128 (by decide)))
  refine ⟨t0, t1, h0, h1, hok1, ?_⟩
  rw [p1.mem, complete_mem]
  simp (disch := decide) [outsOf, exp128Outs_eq, hsrc, hdst]

end Sys2Proof.Machine
end

section
/-! SUPPORT. The statements about the transpose kernels (41_transpose_kernels.md): what a kernel writes, its checks in
order, its split in time, and its columns as expansions. -/

namespace Sys2Proof.Machine

/-! ### One description of the three kernels (41_transpose_kernels.md R122 to R124) -/

/-- The operation is the kernel of `n` frames. -/
inductive IsKernel : Nat → (BitVec 8 → Word → Word → Half → Instr) → Prop where
  | tr16x8 : IsKernel 8 .tr16x8
  | tr16x16 : IsKernel 16 .tr16x16
  | tr16x32 : IsKernel 32 .tr16x32

/-- Lane `i` of the words of group `g` is channel `16·g + i` (30_encoding.md R77). -/
theorem getD_groupLanes (m : Memory) (f g : Nat) {i : Nat} (hi : i < 16) :
    (groupLanes m f g).getD i 0 = sampleAt m f (16 * g + i) := by
  have hgroup : (16 * g + i) / 16 = g := by omega
  have hlane : (16 * g + i) % 16 = i := by omega
  rw [sampleAt_eq_lane, hgroup, hlane]
  rfl

/-- The samples of `n1 + n2` frames are those of the first `n1` frames and, `n1` columns further on, those of the next
`n2` frames (41_transpose_kernels.md R126). -/
theorem kernelOuts_add (m : Memory) (n1 n2 g src dst stride : Nat) :
    kernelOuts m (n1 + n2) g src dst stride =
      kernelOuts m n1 g src dst stride ++ kernelOuts m n2 g (src + 240 * n1) (dst + 2 * n1) stride := by
  have hframe : ∀ t, src + 240 * (n1 + t) = src + 240 * n1 + 240 * t := fun t => by omega
  have haddr : ∀ i t, flatAddr dst stride i (n1 + t) = flatAddr (dst + 2 * n1) stride i t := fun i t => by
    unfold flatAddr
    omega
  simp only [kernelOuts, Config.frameBytes, List.range_add, List.flatMap_append, List.flatMap_map, hframe, haddr]

theorem firstFault_cons_of_passes {c : Check} {cs : List Check} (h : c.fails = false) :
    firstFault (c :: cs) = firstFault cs := by
  simp [firstFault, h]

theorem firstFault_cons_of_fails {c : Check} {cs : List Check} (h : c.fails = true) :
    firstFault (c :: cs) = some c.code := by
  simp [firstFault, h]

/-- A kernel's checks on its operands are those of its group and stride, then those of an expansion. -/
theorem kernelChecks_eq (n : Nat) (grp : BitVec 8) (src dst : Word) (stride : Half) :
    kernelChecks n grp src dst stride = groupCheck grp :: strideCheck stride n :: expandChecks src dst := rfl

namespace IsKernel
variable {n : Nat} {kernel : BitVec 8 → Word → Word → Half → Instr}
variable {grp : BitVec 8} {src dst : Word} {stride : Half}

theorem frames_pos (h : IsKernel n kernel) : 0 < n := by cases h <;> decide

theorem ne_trnP (h : IsKernel n kernel) (n' : Half) (a b : Word) (offset : Half) :
    kernel grp src dst stride ≠ .trnP n' a b offset := by
  cases h <;> nofun

theorem checksOf_eq (h : IsKernel n kernel) (m : Memory) :
    checksOf m (kernel grp src dst stride) = kernelChecks n grp src dst stride := by
  cases h <;> rfl

theorem checks_pass_iff (h : IsKernel n kernel) {m : Memory} :
    firstFault (checksOf m (kernel grp src dst stride)) = none ↔
      grp.toNat < 8 ∧ n ≤ stride.toNat ∧ src.toNat % 8 = 0 ∧ dst.toNat % 2 = 0 := by
  rw [h.checksOf_eq, kernelChecks_pass_iff]

theorem readFootprint_eq (h : IsKernel n kernel) :
    readFootprint (kernel grp src dst stride) = [⟨src.toNat, 240 * n⟩] := by
  cases h <;> rfl

theorem writeFootprint_eq (h : IsKernel n kernel) (m : Memory) :
    writeFootprint m (kernel grp src dst stride) =
      (List.range 16).map fun i => ⟨dst.toNat + 2 * (i * stride.toNat), 2 * n⟩ := by
  cases h <;> rfl

theorem inRegions_writeFootprint (h : IsKernel n kernel) {m : Memory} {a : Nat} :
    InRegions (writeFootprint m (kernel grp src dst stride)) a ↔
      ∃ i < 16, dst.toNat + 2 * (i * stride.toNat) ≤ a ∧ a < dst.toNat + 2 * (i * stride.toNat) + 2 * n := by
  simp [h.writeFootprint_eq, InRegions]

theorem outsOf_eq (h : IsKernel n kernel) (m : Memory) :
    outsOf m (kernel grp src dst stride) = kernelOuts m n grp.toNat src.toNat dst.toNat stride.toNat := by
  cases h <;> rfl

theorem gridRows_eq (h : IsKernel n kernel) : gridRows (kernel grp src dst stride) = 16 := by cases h <;> rfl

theorem gridLen_eq (h : IsKernel n kernel) : gridLen (kernel grp src dst stride) = n := by cases h <;> rfl

theorem gridBase_add (h : IsKernel n kernel) (m : Memory) (i t : Nat) :
    gridBase m (kernel grp src dst stride) i + 2 * t = dst.toNat + 2 * (i * stride.toNat + t) := by
  have hbase : gridBase m (kernel grp src dst stride) i = flatAddr dst.toNat stride.toNat i 0 := by cases h <;> rfl
  rw [hbase, ← flatAddr_eq, flatAddr]

theorem gridVal_eq (h : IsKernel n kernel) (m : Memory) (i t : Nat) :
    gridVal m (kernel grp src dst stride) i t =
      zext16 ((groupLanes m (src.toNat + 240 * t) grp.toNat).getD i 0) := by
  cases h <;> rfl

/-! ### What a kernel writes (41_transpose_kernels.md R121, R127) -/

/-- The lanes of the frames are the columns of the output, and no other byte is changed. -/
theorem transposesItsGroup (h : IsKernel n kernel) : KernelTransposesItsGroup n kernel := by
  intro grp src dst stride s hm hgrp hstride hsrc hdst hd
  rw [← h.readFootprint_eq, ← h.writeFootprint_eq s.mem] at hd
  obtain ⟨u, hu, hok, hin, hout⟩ := exec_writes_grid hm
    (h.checks_pass_iff.2 ⟨Nat.lt_succ_of_le hgrp, hstride, hsrc, hdst⟩) (.of_footprints h.ne_trnP hd)
  refine ⟨u, hu, hok, fun i hi t ht => ?_, fun a ha => hout a fun hmem => ?_⟩
  · rw [← h.gridBase_add s.mem, hin i (h.gridRows_eq ▸ hi) t (h.gridLen_eq ▸ ht), h.gridVal_eq,
      getD_groupLanes _ _ _ hi, zext16]
  · obtain ⟨i, hi, hlo, hhi⟩ := h.inRegions_writeFootprint.1 hmem
    have := ha i hi
    omega

/-- Each sample of the grid of a kernel that completed with `OK` is read back. -/
theorem columnsAreExpansions (h : IsKernel n kernel) : ColumnsAreExpansions n kernel := by
  intro grp src dst stride s u hm hu hok i hi t ht
  obtain ⟨-, hd, rfl⟩ := exec_ok hu hok
  rw [← h.gridBase_add s.mem, complete_mem, readSample_outsOf hm hd (h.gridRows_eq ▸ hi) (h.gridLen_eq ▸ ht),
    h.gridVal_eq]
  rfl

/-! ### A kernel as two kernels (41_transpose_kernels.md R126) -/

/-- The frames and the first row of a kernel lie inside the address space (20_memory.md R52). -/
theorem operands_fit (h : IsKernel n kernel) {s : State} (hd : DutiesTo (kernel grp src dst stride) s) :
    src.toNat + 240 * n ≤ 2 ^ 64 ∧ dst.toNat + 2 * n ≤ 2 ^ 64 := by
  have hn := h.frames_pos
  have hfits := hd.fits
  rw [h.readFootprint_eq, h.writeFootprint_eq] at hfits
  have hframes := hfits ⟨src.toNat, 240 * n⟩ (by simp) (Nat.mul_ne_zero (by decide) hn.ne')
  have hrow := hfits ⟨dst.toNat + 2 * (0 * stride.toNat), 2 * n⟩
    (List.mem_append_right _ (List.mem_map.2 ⟨0, by simp, rfl⟩)) (Nat.mul_ne_zero (by decide) hn.ne')
  exact ⟨hframes, by simpa using hrow⟩

/-- A kernel of `n'` of the frames, `t0` frames and columns further on, is a part of the kernel of all `n` when its
samples are among the other's. -/
theorem isPart (h : IsKernel n kernel) {n' : Nat} {kernel' : BitVec 8 → Word → Word → Half → Instr}
    (h' : IsKernel n' kernel') {s : State} {src' dst' : Word} {t0 : Nat} (hn : t0 + n' ≤ n)
    (hc : firstFault (checksOf s.mem (kernel grp src dst stride)) = none) (hd : DutiesTo (kernel grp src dst stride) s)
    (hsrc : src'.toNat = src.toNat + 240 * t0) (hdst : dst'.toNat = dst.toNat + 2 * t0)
    (houts : outsOf s.mem (kernel' grp src' dst' stride) ⊆ outsOf s.mem (kernel grp src dst stride)) :
    IsPart s (kernel grp src dst stride) (kernel' grp src' dst' stride) := by
  obtain ⟨hgrp, hstride, hs, ht⟩ := h.checks_pass_iff.1 hc
  have hreads : ∀ a, InRegions (readFootprint (kernel' grp src' dst' stride)) a →
      InRegions (readFootprint (kernel grp src dst stride)) a := fun a ha => by
    rw [h'.readFootprint_eq, inRegions_singleton] at ha
    rw [h.readFootprint_eq, inRegions_singleton]
    simp only at ha ⊢
    omega
  refine ⟨h'.checks_pass_iff.2 ⟨hgrp, by omega, by omega, by omega⟩,
    .of_footprints h'.ne_trnP (hd.toDuties.of_inside hreads (fun a ha => ?_) ?_), hreads, houts⟩
  · obtain ⟨i, hi, hlo, hhi⟩ := h'.inRegions_writeFootprint.1 ha
    exact h.inRegions_writeFootprint.2 ⟨i, hi, by omega, by omega⟩
  · have hrows := hd.rowsApart
    rw [h.writeFootprint_eq, List.pairwise_map] at hrows
    rw [h'.writeFootprint_eq, List.pairwise_map]
    refine hrows.imp fun {i j} hij a hi hj => ?_
    simp only [inRegions_singleton] at hij hi hj
    exact hij a (by omega) (by omega)

/-- A kernel of `n1 + n2` frames leaves the memory that a kernel of the first `n1` and one of the next `n2` leave. -/
theorem splits {n1 n2 : Nat} {kernel1 kernel2 : BitVec 8 → Word → Word → Half → Instr}
    (h : IsKernel (n1 + n2) kernel) (h1 : IsKernel n1 kernel1) (h2 : IsKernel n2 kernel2) {s t : State}
    (hm : s.mem.wf) {srcOff dstOff : Word} (hsrcOff : srcOff.toNat = 240 * n1) (hdstOff : dstOff.toNat = 2 * n1)
    (hexec : exec (kernel grp src dst stride) s = .next t) (hok : t.status = 0) :
    ∃ t0 t1, exec (kernel1 grp src dst stride) s = .next t0 ∧
      exec (kernel2 grp (src + srcOff) (dst + dstOff) stride) t0 = .next t1 ∧ t1.status = 0 ∧ t1.mem = t.mem := by
  obtain ⟨hc, hd, rfl⟩ := exec_ok hexec hok
  obtain ⟨hsrcFits, hdstFits⟩ := h.operands_fit hd
  have hn2 := h2.frames_pos
  have hsrc : (src + srcOff).toNat = src.toNat + 240 * n1 :=
    hsrcOff ▸ toNat_add_of_inside hsrcFits (by omega)
  have hdst : (dst + dstOff).toNat = dst.toNat + 2 * n1 :=
    hdstOff ▸ toNat_add_of_inside hdstFits (by omega)
  have houts : outsOf s.mem (kernel grp src dst stride) = outsOf s.mem (kernel1 grp src dst stride) ++
      outsOf s.mem (kernel2 grp (src + srcOff) (dst + dstOff) stride) := by
    rw [h.outsOf_eq, h1.outsOf_eq, h2.outsOf_eq, hsrc, hdst, kernelOuts_add]
  obtain ⟨t0, hexec0, -, p0⟩ := (Partway.start _ s).exec_part hm hd (h.isPart h1 (t0 := 0) (by omega) hc hd rfl rfl
    (houts ▸ List.subset_append_left _ _))
  obtain ⟨t1, hexec1, hok1, p1⟩ := p0.exec_part hm hd (h.isPart h2 (by omega) hc hd hsrc hdst
    (houts ▸ List.subset_append_right _ _))
  refine ⟨t0, t1, hexec0, hexec1, hok1, ?_⟩
  rw [p1.mem, complete_mem, houts, List.nil_append]

/-! ### The checks of the kernels (41_transpose_kernels.md R125) -/

theorem checks_operandFault (h : IsKernel n kernel) (m : Memory) (hgrp : grp.toNat < 8) (hstride : stride.toNat < n) :
    firstFault (checksOf m (kernel grp src dst stride)) = some .operandFault := by
  rw [h.checksOf_eq, kernelChecks_eq, firstFault_cons_of_passes (groupCheck_passes.2 hgrp),
    firstFault_cons_of_fails (strideCheck_fails.2 hstride), strideCheck]

theorem checks_alignmentFault (h : IsKernel n kernel) (m : Memory) (hgrp : grp.toNat < 8) (hstride : n ≤ stride.toNat)
    (halign : src.toNat % 8 ≠ 0 ∨ dst.toNat % 2 ≠ 0) :
    firstFault (checksOf m (kernel grp src dst stride)) = some .alignmentFault := by
  rw [h.checksOf_eq, kernelChecks_eq, firstFault_cons_of_passes (groupCheck_passes.2 hgrp),
    firstFault_cons_of_passes (strideCheck_passes.2 hstride), expandChecks_fault halign]

end IsKernel

/-- A legal pattern whose `OP` is that of a kernel decodes to that kernel with its operands taken from the fields. -/
theorem decode_kernel {d : Command} {n : Nat} (hop : (Desc.op d, n) ∈ [(0x20#8, 8), (0x21#8, 16), (0x22#8, 32)])
    (hrsv : Desc.rsv d = 0) (hn : Desc.n d = 0) (hoffset : Desc.offset d = 0) (hgrp : (Desc.grp d).toNat < 8) :
    ∃ kernel, decode d = .ok (kernel (Desc.grp d) (Desc.src d) (Desc.dst d) (Desc.stride d)) ∧ IsKernel n kernel := by
  have hfields := And.intro hgrp (And.intro hn hoffset)
  simp only [List.mem_cons, List.not_mem_nil, or_false, Prod.mk.injEq] at hop
  obtain ⟨hop, rfl⟩ | ⟨hop, rfl⟩ | ⟨hop, rfl⟩ := hop
  · exact ⟨_, Desc.Legal.decode_eq (o := .tr16x8) ⟨hop, hrsv, hfields⟩, .tr16x8⟩
  · exact ⟨_, Desc.Legal.decode_eq (o := .tr16x16) ⟨hop, hrsv, hfields⟩, .tr16x16⟩
  · exact ⟨_, Desc.Legal.decode_eq (o := .tr16x32) ⟨hop, hrsv, hfields⟩, .tr16x32⟩

/-! ### The statements -/

/-- Settles O20. -/
theorem kernelsTransposeTheirGroup : Obligations.KernelsTransposeTheirGroup :=
  ⟨IsKernel.tr16x8.transposesItsGroup, IsKernel.tr16x16.transposesItsGroup, IsKernel.tr16x32.transposesItsGroup⟩

/-- Settles O24: a field that must be 0 or a group above 7 makes the pattern illegal, and the operands decide the other
checks. -/
theorem kernelChecksInOrder : Obligations.KernelChecksInOrder := by
  intro d s n hop
  refine ⟨fun hillegal => (illegalPatternsCompleteWithIllegalCommand d s).1 ?_, fun hrsv hn hoffset hgrp => ?_⟩
  · have hop' : Desc.op d ∈ [0x20#8, 0x21#8, 0x22#8] := List.mem_map_of_mem (f := Prod.fst) hop
    obtain hrsv | hrest := hillegal
    · exact .inr (.inl hrsv)
    · exact .inr (.inr (.inr (.inl ⟨hop', hrest⟩)))
  · have hgrp : (Desc.grp d).toNat < 8 := by omega
    obtain ⟨kernel, hdec, hk⟩ := decode_kernel hop hrsv hn hoffset hgrp
    exact ⟨fun hstride => faultsWith_of_checks hdec hk.ne_trnP (hk.checks_operandFault s.mem hgrp hstride),
      fun hstride halign => faultsWith_of_checks hdec hk.ne_trnP (hk.checks_alignmentFault s.mem hgrp hstride halign),
      fun hstride hsrc hdst => raisesNone_of_checks hdec (hk.checks_pass_iff.2 ⟨hgrp, hstride, hsrc, hdst⟩)⟩

/-- Settles O37: the only splits into two equal kernels are 16 = 8 + 8 and 32 = 16 + 16. -/
theorem kernelsSplitInTime : Obligations.KernelsSplitInTime := by
  intro grp src dst stride s t hm
  exact ⟨IsKernel.splits (n1 := 8) (n2 := 8) .tr16x16 .tr16x8 .tr16x8 hm rfl rfl,
    IsKernel.splits (n1 := 16) (n2 := 16) .tr16x32 .tr16x16 .tr16x16 hm rfl rfl⟩

/-- Settles O38. -/
theorem kernelColumnsAreExpansions : Obligations.KernelColumnsAreExpansions :=
  ⟨IsKernel.tr16x8.columnsAreExpansions, IsKernel.tr16x16.columnsAreExpansions, IsKernel.tr16x32.columnsAreExpansions⟩

end Sys2Proof.Machine
end

section
/-! SUPPORT. The statements about the full transposes `TRN.F` and `TRN.P` (42_transpose_full.md): what they write, their
checks in order, `N = 0`, their splits in time, the stride loop of kernels, and the recovery of the packed words. -/

namespace Sys2Proof.Machine

/-! ### The checks (42_transpose_full.md R142, R144) -/

/-- Checks of one code of which one fails decide that code. -/
theorem firstFault_eq_some {cs : List Check} {c : Code} (hcode : ∀ k ∈ cs, k.code = c)
    (hfails : ∃ k ∈ cs, k.fails = true) : firstFault cs = some c := by
  cases h : firstFault cs with
  | none =>
    obtain ⟨k, hk, hfail⟩ := hfails
    rw [firstFault_eq_none_iff.1 h k hk] at hfail
    cases hfail
  | some c' =>
    obtain ⟨k, hk, rfl⟩ := firstFault_mem h
    rw [hcode k hk]

/-- The checks of `TRN.F` are those of its count and stride, then those of an expansion. -/
theorem trnFChecks_eq (n : Half) (src dst : Word) (stride : Half) :
    trnFChecks n src dst stride = tickCheck n :: strideCheck stride n.toNat :: expandChecks src dst := rfl

theorem trnFChecks_tickFault {n : Half} (src dst : Word) (stride : Half) (hn : n.toNat % 8 ≠ 0) :
    firstFault (trnFChecks n src dst stride) = some .unsupportedTickCount :=
  firstFault_cons_of_fails (tickCheck_fails.2 hn)

theorem trnFChecks_operandFault {n : Half} (src dst : Word) {stride : Half} (hn : n.toNat % 8 = 0)
    (hstride : stride.toNat < n.toNat) : firstFault (trnFChecks n src dst stride) = some .operandFault := by
  rw [trnFChecks_eq, firstFault_cons_of_passes (tickCheck_passes.2 hn),
    firstFault_cons_of_fails (strideCheck_fails.2 hstride), strideCheck]

theorem trnFChecks_alignmentFault {n : Half} {src dst : Word} {stride : Half} (hn : n.toNat % 8 = 0)
    (hstride : n.toNat ≤ stride.toNat) (halign : src.toNat % 8 ≠ 0 ∨ dst.toNat % 2 ≠ 0) :
    firstFault (trnFChecks n src dst stride) = some .alignmentFault := by
  rw [trnFChecks_eq, firstFault_cons_of_passes (tickCheck_passes.2 hn),
    firstFault_cons_of_passes (strideCheck_passes.2 hstride), expandChecks_fault halign]

theorem trnPChecks_tickFault {n : Half} (src dst : Word) (hn : n.toNat % 8 ≠ 0) :
    firstFault (trnPChecks n src dst) = some .unsupportedTickCount :=
  firstFault_cons_of_fails (tickCheck_fails.2 hn)

theorem trnPChecks_alignmentFault {n : Half} {src dst : Word} (hn : n.toNat % 8 = 0)
    (halign : src.toNat % 8 ≠ 0 ∨ dst.toNat % 8 ≠ 0) : firstFault (trnPChecks n src dst) = some .alignmentFault := by
  rw [trnPChecks, firstFault_cons_of_passes (tickCheck_passes.2 hn)]
  exact firstFault_eq_some (by simp [alignCheck]) (by simpa using halign)

/-- An odd row pointer raises `AlignmentFault`. -/
theorem pointerChecks_alignmentFault {m : Memory} {table : Nat}
    (h : ∃ c < 128, (m.readWord (table + 8 * c)).toNat % 2 ≠ 0) :
    firstFault (pointerChecks (rowPointers m table)) = some .alignmentFault := by
  refine firstFault_eq_some (by simp [pointerChecks, alignCheck]) ?_
  obtain ⟨c, hc, hodd⟩ := h
  exact ⟨_, List.mem_map_of_mem (List.mem_map_of_mem (List.mem_range.2 hc)), alignCheck_fails.2 hodd⟩

/-- The checks of `TRN.P` all pass: those of its fields, then its row pointers. -/
theorem checksOf_trnP_pass_iff {m : Memory} {n : Half} {src dst : Word} {offset : Half} :
    firstFault (checksOf m (.trnP n src dst offset)) = none ↔
      (n.toNat % 8 = 0 ∧ src.toNat % 8 = 0 ∧ dst.toNat % 8 = 0) ∧
        ∀ c < 128, (m.readWord (dst.toNat + 8 * c)).toNat % 2 = 0 := by
  rw [checksOf, firstFault_append, Option.or_eq_none_iff, trnPChecks_pass_iff, pointerChecks_pass_iff]

/-- A command that raises a fault completes with its code and writes nothing. -/
theorem completed_of_raise {i : Instr} {s : State} {c : Code} (h : exec i s = .next (raise c s)) :
    ∃ t, exec i s = .next t ∧ Completed c s t ∧ t.mem = s.mem :=
  ⟨_, h, ⟨rfl, rfl, rfl, rfl, rfl, rfl, rfl⟩, rfl⟩

/-- Submitted bits that decode to a command that raises a fault complete with its code. -/
theorem faultsWith_of_raise {d : Command} {i : Instr} {s : State} {c : Code} (hdec : decode d = .ok i)
    (h : exec i s = .next (raise c s)) : FaultsWith d s c := by
  rw [FaultsWith, submit_nil, runBits_of_decode hdec]
  exact completed_of_raise h

/-- Settles O25: a field that must be 0 makes the pattern illegal, and the operands decide the other checks. -/
theorem trnFChecksInOrder : Obligations.TrnFChecksInOrder := by
  intro d s hop
  refine ⟨fun hzero => (illegalPatternsCompleteWithIllegalCommand d s).1 ?_, fun hgrp hrsv hoffset => ?_⟩
  · obtain hgrp | hrsv | hoffset := hzero
    · exact .inr (.inr (.inr (.inr (.inl ⟨hop, .inl hgrp⟩))))
    · exact .inr (.inl hrsv)
    · exact .inr (.inr (.inr (.inr (.inl ⟨hop, .inr hoffset⟩))))
  · have hdec := Desc.Legal.decode_eq (d := d) (o := .trnF) ⟨hop, hrsv, hgrp, hoffset⟩
    exact ⟨fun hn => faultsWith_of_checks hdec nofun (trnFChecks_tickFault _ _ _ hn),
      fun hn hstride => faultsWith_of_checks hdec nofun (trnFChecks_operandFault _ _ hn hstride),
      fun hn hstride halign => faultsWith_of_checks hdec nofun (trnFChecks_alignmentFault hn hstride halign),
      fun hn hstride hsrc hdst => raisesNone_of_checks hdec (trnFChecks_pass_iff.2 ⟨hn, hstride, hsrc, hdst⟩)⟩

/-- Settles O26: a field that must be 0 makes the pattern illegal, the operands decide the checks on the fields, and the
table decides the last one. -/
theorem trnPChecksInOrder : Obligations.TrnPChecksInOrder := by
  intro d s hop
  refine ⟨fun hzero => (illegalPatternsCompleteWithIllegalCommand d s).1 ?_, fun hgrp hrsv hstride => ?_⟩
  · obtain hgrp | hrsv | hstride := hzero
    · exact .inr (.inr (.inr (.inr (.inr ⟨hop, .inl hgrp⟩))))
    · exact .inr (.inl hrsv)
    · exact .inr (.inr (.inr (.inr (.inr ⟨hop, .inr hstride⟩))))
  · have hdec := Desc.Legal.decode_eq (d := d) (o := .trnP) ⟨hop, hrsv, hgrp, hstride⟩
    exact ⟨fun hn => faultsWith_of_raise hdec (exec_trnP_of_field_fault (trnPChecks_tickFault _ _ hn)),
      fun hn halign => faultsWith_of_raise hdec (exec_trnP_of_field_fault (trnPChecks_alignmentFault hn halign)),
      fun hn hsrc hdst htable hodd => faultsWith_of_raise hdec (exec_trnP_of_pointer_fault
        (trnPChecks_pass_iff.2 ⟨hn, hsrc, hdst⟩) htable (pointerChecks_alignmentFault hodd)),
      fun hn hsrc hdst heven => raisesNone_of_checks hdec (checksOf_trnP_pass_iff.2 ⟨⟨hn, hsrc, hdst⟩, heven⟩)⟩

/-! ### What a transpose writes (42_transpose_full.md R141, R143, R146) -/

theorem gridBase_trnF_add (m : Memory) (n : Half) (src dst : Word) (stride : Half) (c t : Nat) :
    gridBase m (.trnF n src dst stride) c + 2 * t = dst.toNat + 2 * (c * stride.toNat + t) :=
  (flatAddr_eq dst.toNat stride.toNat c t).symm

theorem gridBase_trnP (m : Memory) (n : Half) (src dst : Word) (offset : Half) {c : Nat} (hc : c < 128) :
    gridBase m (.trnP n src dst offset) c = (m.readWord (dst.toNat + 8 * c)).toNat + 2 * offset.toNat := by
  rw [gridBase, rowAddr, getD_rowPointers m _ hc, Nat.add_zero]

theorem gridVal_trnF (m : Memory) (n : Half) (src dst : Word) (stride : Half) {c : Nat} (hc : c < 128) (t : Nat) :
    gridVal m (.trnF n src dst stride) c t = zext16 (sampleAt m (src.toNat + 240 * t) c) :=
  congrArg zext16 (getD_unpack128 m _ hc)

theorem gridVal_trnP (m : Memory) (n : Half) (src dst : Word) (offset : Half) {c : Nat} (hc : c < 128) (t : Nat) :
    gridVal m (.trnP n src dst offset) c t = zext16 (sampleAt m (src.toNat + 240 * t) c) :=
  congrArg zext16 (getD_unpack128 m _ hc)

theorem writeFootprint_trnP (m : Memory) (n : Half) (src dst : Word) (offset : Half) :
    writeFootprint m (.trnP n src dst offset) = (List.range 128).map fun c =>
      ⟨(m.readWord (dst.toNat + 8 * c)).toNat + 2 * offset.toNat, 2 * n.toNat⟩ := by
  rw [writeFootprint_eq]
  exact List.map_congr_left fun c hc => by rw [gridBase_trnP m n src dst offset (List.mem_range.1 hc)]; rfl

theorem writeBuffers_trnP (m : Memory) (n : Half) (src dst : Word) (offset : Half) :
    writeBuffers m (.trnP n src dst offset) = (List.range 128).map fun c =>
      ⟨(m.readWord (dst.toNat + 8 * c)).toNat, 2 * (offset.toNat + n.toNat)⟩ :=
  List.map_congr_left fun c hc => by rw [getD_rowPointers m _ (List.mem_range.1 hc)]

/-- The duties towards a `TRN.P`, written with the words of its table. -/
theorem dutiesTo_trnP {s : State} {n : Half} {src dst : Word} {offset : Half}
    (hd : Duties s [⟨src.toNat, 240 * n.toNat⟩, ⟨dst.toNat, 1024⟩]
      ((List.range 128).map fun c =>
        ⟨(s.mem.readWord (dst.toNat + 8 * c)).toNat + 2 * offset.toNat, 2 * n.toNat⟩))
    (hrows : Held s ((List.range 128).map fun c =>
        ⟨(s.mem.readWord (dst.toNat + 8 * c)).toNat, 2 * (offset.toNat + n.toNat)⟩)) :
    DutiesTo (.trnP n src dst offset) s := by
  rw [← writeFootprint_trnP s.mem n src] at hd
  rw [← writeBuffers_trnP s.mem n src] at hrows
  exact ⟨hd, hrows⟩

/-- Settles O21: the samples are those of the grid of `TRN.F`. -/
theorem trnFWritesEveryChannelRow : Obligations.TrnFWritesEveryChannelRow := by
  intro n src dst stride s hm hn hstride hsrc hdst hd
  obtain ⟨u, hu, hok, hin, hout⟩ := exec_writes_grid (i := .trnF n src dst stride) hm
    (trnFChecks_pass_iff.2 ⟨hn, hstride, hsrc, hdst⟩) (.of_footprints nofun hd)
  refine ⟨u, hu, hok, fun c hc t ht => ?_, fun a ha => hout a fun hmem => ?_⟩
  · rw [← gridBase_trnF_add s.mem n src, hin c hc t ht, gridVal_trnF _ _ _ _ _ hc, zext16]
  · obtain ⟨c, hc, hlo, hhi⟩ := inRegions_writeFootprint.1 hmem
    have hbase := gridBase_trnF_add s.mem n src dst stride c 0
    have hrow := ha c hc
    simp only [gridLen] at hhi
    omega

/-- Settles O22: the samples are those of the grid of `TRN.P`. -/
theorem trnPWritesEveryChannelRow : Obligations.TrnPWritesEveryChannelRow := by
  intro n src dst offset s hm hn hsrc hdst heven hd hrows
  obtain ⟨u, hu, hok, hin, hout⟩ := exec_writes_grid hm
    (checksOf_trnP_pass_iff.2 ⟨⟨hn, hsrc, hdst⟩, heven⟩) (dutiesTo_trnP hd hrows)
  refine ⟨u, hu, hok, fun c hc t ht => ?_, fun a ha => hout a fun hmem => ?_⟩
  · have hsample := hin c hc t ht
    rw [gridBase_trnP _ _ _ _ _ hc, Nat.add_assoc, ← Nat.mul_add] at hsample
    rw [hsample, gridVal_trnP _ _ _ _ _ hc, zext16]
  · obtain ⟨c, hc, hlo, hhi⟩ := inRegions_writeFootprint.1 hmem
    rw [gridBase_trnP _ _ _ _ _ hc] at hlo hhi
    have hrow := ha c hc
    simp only [gridLen] at hhi
    omega

/-! ### No frames (42_transpose_full.md R149) -/

/-- Rows of no samples and frames of no bytes hold no address: they ask nothing of the host (log 6). -/
theorem Duties.of_empty {s : State} {rd wr : List Region} (h : Duties s rd []) (src : Nat)
    (hwr : ∀ r ∈ wr, r.len = 0) : Duties s (⟨src, 0⟩ :: rd) wr := by
  have hnone : ∀ a, ¬ InRegions wr a := fun a ⟨r, hr, hlo, hhi⟩ => by
    have := hwr r hr
    omega
  refine ⟨fun r hr hlen => ?_, fun a ha => ?_, fun a ha => absurd ha (hnone a), fun a _ => hnone a, ?_⟩
  · obtain (rfl | hr) | hr := (List.mem_append.1 hr).imp_left List.mem_cons.1
    · exact absurd rfl hlen
    · exact h.fits r (List.mem_append_left _ hr) hlen
    · exact absurd (hwr r hr) hlen
  · obtain hsrc | hrd := inRegions_cons.1 ha
    · rw [inRegions_singleton] at hsrc
      simp only at hsrc
      omega
    · exact h.inputValid a hrd
  · exact List.pairwise_of_forall_mem_list fun r hr q _ a ha => absurd (inRegions_iff_exists.2 ⟨r, hr, ha⟩) (hnone a)

/-- A command that passes its checks, the host's duties met, and has no sample to write leaves memory as it is. -/
theorem completed_of_no_outs {i : Instr} {s : State} (hc : firstFault (checksOf s.mem i) = none) (hd : DutiesTo i s)
    (houts : outsOf s.mem i = []) : ∃ t, exec i s = .next t ∧ Completed .ok s t ∧ t.mem = s.mem :=
  ⟨_, exec_of_duties hc hd, ⟨rfl, rfl, rfl, rfl, rfl, rfl, rfl⟩, by rw [houts]; rfl⟩

/-- A `TRN.F` of no frames asks nothing of the host. -/
theorem dutiesTo_trnF_zero (src dst : Word) (stride : Half) (s : State) : DutiesTo (.trnF 0 src dst stride) s :=
  have hnothing : Duties s [] [] := ⟨by simp, by simp, by simp, by simp, .nil⟩
  .of_footprints nofun (hnothing.of_empty _ (by simp [writeFootprint, flatRows]))

/-- A `TRN.P` of no frames asks for its table and the samples before `OFFSET` of its rows (log 7). -/
theorem dutiesTo_trnP_zero {src dst : Word} {offset : Half} {s : State} (htable : Duties s [⟨dst.toNat, 1024⟩] [])
    (hrows : Held s ((List.range 128).map fun c => ⟨(s.mem.readWord (dst.toNat + 8 * c)).toNat, 2 * offset.toNat⟩)) :
    DutiesTo (.trnP 0 src dst offset) s :=
  dutiesTo_trnP (htable.of_empty _ (by simp)) hrows

/-- Settles O28: the checks are made, and with no frame there is no sample to write. -/
theorem zeroFramesCompleteAndWriteNothing : Obligations.ZeroFramesCompleteAndWriteNothing := by
  intro src dst x s
  have hquantum : (0 : Half).toNat % 8 = 0 := rfl
  have hstride : (0 : Half).toNat ≤ x.toNat := Nat.zero_le _
  refine ⟨fun hsrc hdst => ?_, fun halign => ?_, fun hsrc hdst htable heven hrows => ?_,
    fun hsrc hdst htable hodd => ?_, fun halign => ?_⟩
  · exact completed_of_no_outs (trnFChecks_pass_iff.2 ⟨hquantum, hstride, hsrc, hdst⟩) (dutiesTo_trnF_zero ..) rfl
  · exact completed_of_raise (exec_of_fault nofun (trnFChecks_alignmentFault hquantum hstride halign))
  · exact completed_of_no_outs (checksOf_trnP_pass_iff.2 ⟨⟨hquantum, hsrc, hdst⟩, heven⟩)
      (dutiesTo_trnP_zero htable hrows) rfl
  · exact completed_of_raise (exec_trnP_of_pointer_fault (trnPChecks_pass_iff.2 ⟨hquantum, hsrc, hdst⟩) htable
      (pointerChecks_alignmentFault hodd))
  · exact completed_of_raise (exec_trnP_of_field_fault (trnPChecks_alignmentFault hquantum halign))

/-! ### A transpose as two in time (42_transpose_full.md R147) -/

/-- The command `j` writes the samples of `i` from index `t0` of each row on, as many as its rows have, and asks for no
byte that `i` does not ask for. -/
structure IsSlice (m : Memory) (i j : Instr) (t0 : Nat) : Prop where
  rows : gridRows j = gridRows i
  len : t0 + gridLen j ≤ gridLen i
  base : 0 < gridLen j → ∀ c < gridRows i, gridBase m j c = gridBase m i c + 2 * t0
  val : ∀ c < gridRows i, ∀ t < gridLen j, gridVal m j c t = gridVal m i c (t0 + t)
  reads : ∀ a, InRegions (readFootprint j) a → InRegions (readFootprint i) a
  buffers : ∀ a, InRegions (writeBuffers m j) a → InRegions (writeBuffers m i) a

/-- Buffers that lie inside others are held when those are. -/
theorem Held.of_inside {s : State} {bs bs' : List Region} (h : Held s bs)
    (hin : ∀ a, InRegions bs' a → InRegions bs a) : Held s bs' where
  fits r hr hlen := by
    obtain ⟨q, hq, hlo, hhi⟩ := hin (r.base + r.len - 1) ⟨r, hr, by omega, by omega⟩
    have := h.fits q hq (by omega)
    omega
  valid a ha := h.valid a (hin a ha)

namespace IsSlice
variable {s : State} {i j : Instr} {t0 : Nat}

/-- The rows of a slice lie inside those of the whole, row by row. -/
theorem inRegions_row (h : IsSlice s.mem i j t0) {c a : Nat} (hc : c < gridRows i)
    (ha : InRegions [⟨gridBase s.mem j c, 2 * gridLen j⟩] a) : InRegions [⟨gridBase s.mem i c, 2 * gridLen i⟩] a := by
  rw [inRegions_singleton] at ha ⊢
  have hlen := h.len
  simp only at ha ⊢
  have hbase := h.base (by omega) c hc
  omega

theorem duties (h : IsSlice s.mem i j t0) (hd : DutiesTo i s) : DutiesTo j s := by
  refine ⟨hd.toDuties.of_inside h.reads (fun a ha => ?_) ?_, hd.buffers.of_inside h.buffers⟩
  · obtain ⟨c, hc, hrow⟩ := inRegions_writeFootprint.1 ha
    rw [h.rows] at hc
    exact inRegions_writeFootprint.2 ⟨c, hc, inRegions_singleton.1 (h.inRegions_row hc (inRegions_singleton.2 hrow))⟩
  · have hrows := hd.rowsApart
    rw [writeFootprint_eq, List.pairwise_map] at hrows
    rw [writeFootprint_eq, h.rows, List.pairwise_map]
    refine hrows.imp_of_mem fun {c c'} hc hc' hapart a ha ha' => ?_
    exact hapart a (h.inRegions_row (List.mem_range.1 hc) ha) (h.inRegions_row (List.mem_range.1 hc') ha')

/-- The samples of a slice are those of the whole from index `t0` on. -/
theorem mem_outsOf (h : IsSlice s.mem i j t0) {e : Nat × Sample} :
    e ∈ outsOf s.mem j ↔ ∃ c < gridRows i, ∃ t < gridLen j,
      e = (gridBase s.mem i c + 2 * (t0 + t), gridVal s.mem i c (t0 + t)) := by
  rw [Machine.mem_outsOf, h.rows]
  refine exists_congr fun c => and_congr_right fun hc => exists_congr fun t => and_congr_right fun ht => ?_
  rw [h.base (by omega) c hc, h.val c hc t ht, Nat.add_assoc, ← Nat.mul_add]

theorem isPart (h : IsSlice s.mem i j t0) (hc : firstFault (checksOf s.mem j) = none) (hd : DutiesTo i s) :
    IsPart s i j := by
  refine ⟨hc, h.duties hd, h.reads, fun e he => ?_⟩
  obtain ⟨c, hc, t, ht, rfl⟩ := h.mem_outsOf.1 he
  have hlen := h.len
  exact Machine.mem_outsOf.2 ⟨c, hc, t0 + t, by omega, rfl⟩

/-- Two slices that together have all samples of each row leave, one after the other, the memory of the whole. -/
theorem exec_both {t : State} {j1 j2 : Instr} (hm : s.mem.wf) (h1 : IsSlice s.mem i j1 0)
    (h2 : IsSlice s.mem i j2 (gridLen j1)) (hlen : gridLen i = gridLen j1 + gridLen j2)
    (hc1 : firstFault (checksOf s.mem j1) = none) (hc2 : firstFault (checksOf s.mem j2) = none)
    (hexec : exec i s = .next t) (hok : t.status = 0) :
    ∃ t0 t1, exec j1 s = .next t0 ∧ exec j2 t0 = .next t1 ∧ t1.status = 0 ∧ t1.mem = t.mem := by
  obtain ⟨-, hd, rfl⟩ := exec_ok hexec hok
  obtain ⟨t0, hexec0, -, p0⟩ := (Partway.start i s).exec_part hm hd (h1.isPart hc1 hd)
  obtain ⟨t1, hexec1, hok1, p1⟩ := p0.exec_part hm hd (h2.isPart hc2 hd)
  refine ⟨t0, t1, hexec0, hexec1, hok1, ?_⟩
  rw [p1.mem, complete_mem]
  refine (Memory.writeSamples_congr hm (outsOf_compatible hd) fun e => ⟨fun he => ?_, fun he => p1.outs he⟩).symm
  obtain ⟨c, hc, t, ht, rfl⟩ := Machine.mem_outsOf.1 he
  rw [List.nil_append, List.mem_append]
  by_cases hfirst : t < gridLen j1
  · exact .inl (h1.mem_outsOf.2 ⟨c, hc, t, hfirst, by rw [Nat.zero_add]⟩)
  · refine .inr (h2.mem_outsOf.2 ⟨c, hc, t - gridLen j1, by omega, ?_⟩)
    rw [Nat.add_sub_cancel' (by omega)]

end IsSlice

/-- Some of the frames of a transpose: those from frame `t0` on. -/
theorem frames_inside {n n' : Nat} {src src' : Word} {t0 : Nat} (hlen : t0 + n' ≤ n)
    (hsrc : 0 < n' → src'.toNat = src.toNat + 240 * t0) {a : Nat} (ha : InRegions [frameRegion src' n'] a) :
    InRegions [frameRegion src n] a := by
  simp only [frameRegion, Config.frameBytes, inRegions_singleton] at ha ⊢
  have := hsrc (by omega)
  omega

/-- `TRN.F` on `n'` of the frames, `t0` frames and columns further on. -/
theorem isSlice_trnF (m : Memory) {n n' : Half} {src dst src' dst' : Word} (stride : Half) {t0 : Nat}
    (hlen : t0 + n'.toNat ≤ n.toNat) (hsrc : 0 < n'.toNat → src'.toNat = src.toNat + 240 * t0)
    (hdst : 0 < n'.toNat → dst'.toNat = dst.toNat + 2 * t0) :
    IsSlice m (.trnF n src dst stride) (.trnF n' src' dst' stride) t0 where
  rows := rfl
  len := hlen
  base hn c _ := by
    simp only [gridBase, flatAddr, hdst hn]
    omega
  val c hc t ht := by
    rw [gridVal_trnF _ _ _ _ _ hc, gridVal_trnF _ _ _ _ _ hc, hsrc (Nat.zero_lt_of_lt ht), Nat.mul_add, Nat.add_assoc]
  reads _ ha := frames_inside hlen hsrc ha
  buffers _ ha := ha

/-- `TRN.P` on `n'` of the frames, `t0` frames further on and with `OFFSET` raised by `t0`. -/
theorem isSlice_trnP (m : Memory) {n n' : Half} {src src' : Word} (dst : Word) {offset offset' : Half} {t0 : Nat}
    (hlen : t0 + n'.toNat ≤ n.toNat) (hsrc : 0 < n'.toNat → src'.toNat = src.toNat + 240 * t0)
    (hoffset : offset'.toNat = offset.toNat + t0) :
    IsSlice m (.trnP n src dst offset) (.trnP n' src' dst offset') t0 where
  rows := rfl
  len := hlen
  base _ c hc := by
    rw [gridBase_trnP _ _ _ _ _ hc, gridBase_trnP _ _ _ _ _ hc, hoffset]
    omega
  val c hc t ht := by
    rw [gridVal_trnP _ _ _ _ _ hc, gridVal_trnP _ _ _ _ _ hc, hsrc (Nat.zero_lt_of_lt ht), Nat.mul_add, Nat.add_assoc]
  reads a ha := by
    rw [readFootprint, inRegions_cons] at ha ⊢
    exact ha.imp_left (frames_inside hlen hsrc)
  buffers a ha := by
    rw [writeBuffers_trnP] at ha ⊢
    obtain ⟨r, hr, hlo, hhi⟩ := ha
    obtain ⟨c, hc, rfl⟩ := List.mem_map.1 hr
    refine ⟨_, List.mem_map_of_mem hc, hlo, ?_⟩
    simp only at hhi ⊢
    omega

/-- Operands of a second part that has frames do not pass the top of the address space. -/
theorem toNat_add_ofNat_of_inside {a : Word} {k len : Nat} (hfits : a.toNat + len ≤ 2 ^ 64) (hk : k < len) :
    (a + BitVec.ofNat 64 k).toNat = a.toNat + k := by
  have hword : (BitVec.ofNat 64 k).toNat = k := Nat.mod_eq_of_lt (by omega)
  rw [toNat_add_of_inside hfits (by omega), hword]

/-- Frame `t0` of `n` frames does not lie past the top of the address space (20_memory.md R52). -/
theorem toNat_frame {src : Word} {n t0 : Nat}
    (hfits : (frameRegion src n).len ≠ 0 → (frameRegion src n).base + (frameRegion src n).len ≤ 2 ^ 64) (ht0 : t0 < n) :
    (src + BitVec.ofNat 64 (240 * t0)).toNat = src.toNat + 240 * t0 :=
  toNat_add_ofNat_of_inside (hfits (Nat.mul_ne_zero (by decide) (Nat.ne_zero_of_lt ht0)))
    (Nat.mul_lt_mul_of_pos_left ht0 (by decide))

/-- An address raised by a multiple of its alignment stays aligned, round the top of the address space too. -/
theorem toNat_add_ofNat_mod {a : Word} {k q : Nat} (hq : q ∣ 2 ^ 64) (ha : a.toNat % q = 0) (hk : k % q = 0) :
    (a + BitVec.ofNat 64 k).toNat % q = 0 := by
  rw [BitVec.toNat_add, BitVec.toNat_ofNat, Nat.add_mod_mod, Nat.mod_mod_of_dvd _ hq, Nat.add_mod, ha, hk, Nat.zero_mod]

/-- Settles O40: the two commands are the two slices of the frames. -/
theorem trnFSplitsInTime : Obligations.TrnFSplitsInTime := by
  intro n n1 n2 src dst stride s t hm hn hn1 hn2 hexec hok
  obtain ⟨hc, hd, -⟩ := exec_ok hexec hok
  obtain ⟨-, hstride, hsrc, hdst⟩ := trnFChecks_pass_iff.1 hc
  refine IsSlice.exec_both hm (isSlice_trnF s.mem stride (by omega) (fun _ => rfl) (fun _ => rfl))
    (isSlice_trnF s.mem stride (t0 := n1.toNat) (by omega) (fun hpos => ?_) (fun hpos => ?_)) hn
    (trnFChecks_pass_iff.2 ⟨hn1, by omega, hsrc, hdst⟩)
    (trnFChecks_pass_iff.2 ⟨hn2, by omega, toNat_add_ofNat_mod (by decide) hsrc (by omega),
      toNat_add_ofNat_mod (by decide) hdst (by omega)⟩) hexec hok
  · exact toNat_frame (hd.fits _ List.mem_cons_self) (by omega)
  · have hrow : ⟨dst.toNat, 2 * n.toNat⟩ ∈ writeFootprint s.mem (.trnF n src dst stride) :=
      List.mem_map.2 ⟨0, by simp, by simp [flatAddr]⟩
    have hfits := hd.fits _ (List.mem_append_right _ hrow) (Nat.mul_ne_zero (by decide) (by omega))
    exact toNat_add_ofNat_of_inside hfits (Nat.mul_lt_mul_of_pos_left (by omega) (by decide))

/-- Settles O41: the two commands are the two slices of the frames. -/
theorem trnPAppends : Obligations.TrnPAppends := by
  intro n n1 n2 src dst offset s t hm hn hn1 hn2 hoffset hexec hok
  obtain ⟨hc, hd, -⟩ := exec_ok hexec hok
  obtain ⟨⟨-, hsrc, hdst⟩, heven⟩ := checksOf_trnP_pass_iff.1 hc
  refine IsSlice.exec_both hm (isSlice_trnP s.mem dst (by omega) (fun _ => rfl) rfl)
    (isSlice_trnP s.mem dst (t0 := n1.toNat) (by omega) (fun hpos => ?_) (BitVec.toNat_add_of_lt hoffset)) hn
    (checksOf_trnP_pass_iff.2 ⟨⟨hn1, hsrc, hdst⟩, heven⟩)
    (checksOf_trnP_pass_iff.2 ⟨⟨hn2, toNat_add_ofNat_mod (by decide) hsrc (by omega), hdst⟩, heven⟩) hexec hok
  exact toNat_frame (hd.fits _ List.mem_cons_self) (by omega)

/-! ### Flat rows and row pointers (42_transpose_full.md R148) -/

theorem transposeOuts_congr_addr (m : Memory) (n src : Nat) {addr addr' : Nat → Nat → Nat}
    (h : ∀ c < 128, ∀ t, addr c t = addr' c t) : transposeOuts m n src addr = transposeOuts m n src addr' := by
  unfold transposeOuts
  refine List.flatMap_congr fun t _ => List.map_congr_left fun c hc => ?_
  rw [h c (List.mem_range.1 hc) t]

/-- Settles O42: the row pointers are the addresses of the flat buffer's rows, so the samples are the same. -/
theorem trnPOnEvenRowsEqualsTrnF : Obligations.TrnPOnEvenRowsEqualsTrnF := by
  intro n src dst base stride s t u hm hrows ht hokt hu hoku
  obtain ⟨-, -, rfl⟩ := exec_ok ht hokt
  obtain ⟨-, -, rfl⟩ := exec_ok hu hoku
  have haddr : ∀ c < 128, ∀ t, rowAddr (rowPointers s.mem dst.toNat) 0 c t =
      flatAddr base.toNat stride.toNat c t := fun c hc t => by
    rw [rowAddr, getD_rowPointers _ _ hc, hrows c hc, flatAddr, Nat.mul_assoc]
    omega
  exact congrArg s.mem.writeSamples (transposeOuts_congr_addr s.mem n.toNat src.toNat haddr)

/-! ### The packed words recovered (42_transpose_full.md R151) -/

/-- A packed sample is the low 12 bits of its output sample (30_encoding.md R79). -/
theorem setWidth_zext16 (a : Adc) : (zext16 a).setWidth 12 = a := by
  simp [zext16]

/-- Settles O43: column `t` holds the channels of frame `t`, and packing the channels of a link gives its words. -/
theorem transposeLosesNoAdcWord : Obligations.TransposeLosesNoAdcWord := by
  intro n src dst stride s u hm hu hok t ht link hlink
  obtain ⟨-, hd, rfl⟩ := exec_ok hu hok
  have hsample : ∀ k < 64, (Memory.readSample (s.mem.writeSamples (outsOf s.mem (.trnF n src dst stride)))
      (dst.toNat + 2 * ((64 * link + k) * stride.toNat + t))).setWidth 12 =
        sampleAt s.mem (src.toNat + 240 * t) (64 * link + k) := fun k hk => by
    have hrow : 64 * link + k < 128 := by omega
    rw [← gridBase_trnF_add s.mem n src, readSample_outsOf hm hd hrow ht, gridVal_trnF _ _ _ _ _ hrow, setWidth_zext16]
  calc pack _
      = pack ((List.range 64).map fun k => sampleAt s.mem (src.toNat + 240 * t) (64 * link + k)) :=
        congrArg pack (List.map_congr_left fun k hk => hsample k (List.mem_range.1 hk))
    _ = s.mem.readWords (src.toNat + 240 * t + 8 * (4 + 14 * link)) 12 := by
        rw [← unpack64_link_eq_map_sampleAt, packingUndoesExpansion _ (by simp [Memory.readWords])]
    _ = _ := by simp only [Memory.readWords, Nat.mul_add, Nat.add_assoc]

/-! ### The stride loop (42_transpose_full.md R145) -/

/-- The strides of the loop in closed form: `rem div 32` of 32 frames, then `(rem mod 32) div 8` of 8. -/
theorem strides_eq {fuel rem : Nat} (t0 : Nat) (hfuel : rem ≤ fuel) :
    strides fuel t0 rem = (List.range (rem / 32)).map (fun k => (t0 + 32 * k, 32)) ++
      (List.range (rem % 32 / 8)).map (fun k => (t0 + 32 * (rem / 32) + 8 * k, 8)) := by
  induction fuel generalizing t0 rem with
  | zero =>
    obtain rfl : rem = 0 := by omega
    rfl
  | succ fuel ih =>
    rw [strides]
    split
    · rename_i h32
      obtain ⟨r, rfl⟩ := Nat.exists_eq_add_of_le' h32
      have hdiv : (r + 32) / 32 = r / 32 + 1 := by omega
      rw [Nat.add_sub_cancel, ih _ (by omega), hdiv, Nat.add_mod_right, List.range_succ_eq_map]
      simp [Function.comp_def, Nat.mul_add, Nat.add_assoc, Nat.add_comm 32]
    · split
      · rename_i h32 h8
        obtain ⟨r, rfl⟩ := Nat.exists_eq_add_of_le' h8
        have hmod : (r + 8) % 32 / 8 = r % 32 / 8 + 1 := by omega
        have hdiv : (r + 8) / 32 = 0 := by omega
        have hdiv' : r / 32 = 0 := by omega
        rw [Nat.add_sub_cancel, ih _ (by omega), hmod, hdiv, hdiv', List.range_succ_eq_map]
        simp [Function.comp_def, Nat.mul_add, Nat.add_assoc, Nat.add_comm 8]
      · have hdiv : rem / 32 = 0 := by omega
        have hmod : rem % 32 / 8 = 0 := by omega
        rw [hdiv, hmod]
        rfl

theorem mem_strides {n : Nat} {st : Nat × Nat} :
    st ∈ strides n 0 n ↔ (∃ k < n / 32, st = (32 * k, 32)) ∨ ∃ k < n % 32 / 8, st = (32 * (n / 32) + 8 * k, 8) := by
  simp [strides_eq 0 le_rfl, eq_comm]

theorem strides_inside {n : Nat} {st : Nat × Nat} (h : st ∈ strides n 0 n) : st.1 + st.2 ≤ n := by
  obtain ⟨k, hk, rfl⟩ | ⟨k, hk, rfl⟩ := mem_strides.1 h <;> simp only <;> omega

/-- Every frame of a legal count lies in one of the strides. -/
theorem strides_cover {n t : Nat} (hn : n % 8 = 0) (ht : t < n) : ∃ st ∈ strides n 0 n, st.1 ≤ t ∧ t < st.1 + st.2 := by
  by_cases h : t < 32 * (n / 32)
  · exact ⟨_, mem_strides.2 (.inl ⟨t / 32, by omega, rfl⟩), by simp only; omega, by simp only; omega⟩
  · exact ⟨_, mem_strides.2 (.inr ⟨(t - 32 * (n / 32)) / 8, by omega, rfl⟩), by simp only; omega, by simp only; omega⟩

/-- The kernels the loop calls, in order: for each stride (start, length) the eight groups. -/
def strideCalls (n : Nat) : List ((Nat × Nat) × Nat) :=
  (strides n 0 n).flatMap fun st => (List.range 8).map (st, ·)

/-- The samples of one call of the loop. -/
def callOuts (src dst stride : Nat) (m : Memory) (call : (Nat × Nat) × Nat) : List (Nat × Sample) :=
  kernelOuts m call.1.2 call.2 (src + 240 * call.1.1) (dst + 2 * (16 * call.2 * stride + call.1.1)) stride

theorem strideLoop_eq_foldl (n src dst stride : Nat) (m : Memory) :
    strideLoop n src dst stride m =
      (strideCalls n).foldl (fun m call => m.writeSamples (callOuts src dst stride m call)) m := by
  simp only [strideCalls, List.foldl_flatMap, List.foldl_map]
  rfl

/-- Calls that write samples of one set, none of which depends on a sample of the set, write together what they would
write each on the first memory. -/
theorem Memory.foldl_writeSamples {κ : Type} {outs : Memory → κ → List (Nat × Sample)} {m : Memory}
    {all : List (Nat × Sample)} {calls : List κ} (hsub : ∀ k ∈ calls, outs m k ⊆ all)
    (hstable : ∀ k ∈ calls, ∀ l ⊆ all, outs (m.writeSamples l) k = outs m k) {done : List (Nat × Sample)}
    (hdone : done ⊆ all) : calls.foldl (fun m k => Memory.writeSamples m (outs m k)) (m.writeSamples done) =
      m.writeSamples (done ++ calls.flatMap (outs m)) := by
  induction calls generalizing done with
  | nil => simp
  | cons k calls ih =>
    rw [List.foldl_cons, hstable k List.mem_cons_self done hdone, ← Memory.writeSamples_append,
      ih (fun k hk => hsub k (List.mem_cons_of_mem _ hk)) (fun k hk => hstable k (List.mem_cons_of_mem _ hk))
        (List.append_subset.2 ⟨hdone, hsub k List.mem_cons_self⟩), List.flatMap_cons, List.append_assoc]

/-- The sample of channel `c` at time `t` in a flat buffer, with its address (42_transpose_full.md R146). -/
def flatSample (m : Memory) (src dst stride c t : Nat) : Nat × Sample :=
  (flatAddr dst stride c t, transposed m src c t)

theorem mem_outsOf_trnF {m : Memory} {n : Half} {src dst : Word} {stride : Half} {e : Nat × Sample} :
    e ∈ outsOf m (.trnF n src dst stride) ↔
      ∃ c < 128, ∃ t < n.toNat, e = flatSample m src.toNat dst.toNat stride.toNat c t := by
  rw [outsOf, trnFOuts, mem_transposeOuts]
  refine exists_congr fun c => and_congr_right fun hc => ?_
  simp only [getD_unpack128 _ _ hc]
  rfl

/-- A call of group `g` from frame `t0` on writes the samples of the group's sixteen channels at its frames. -/
theorem mem_callOuts {m : Memory} {src dst stride t0 len g : Nat} {e : Nat × Sample} :
    e ∈ callOuts src dst stride m ((t0, len), g) ↔
      ∃ i < 16, ∃ t < len, e = flatSample m src dst stride (16 * g + i) (t0 + t) := by
  have haddr : ∀ i t, flatAddr (dst + 2 * (16 * g * stride + t0)) stride i t =
      flatAddr dst stride (16 * g + i) (t0 + t) := fun i t => by
    simp only [flatAddr, Nat.add_mul]
    omega
  have hframe : ∀ t, src + 240 * t0 + 240 * t = src + 240 * (t0 + t) := fun t => by omega
  rw [callOuts, mem_kernelOuts]
  refine exists_congr fun i => and_congr_right fun hi => ?_
  simp only [getD_groupLanes _ _ _ hi, haddr, hframe]
  rfl

theorem mem_strideCalls {n : Nat} {st : Nat × Nat} {g : Nat} :
    (st, g) ∈ strideCalls n ↔ st ∈ strides n 0 n ∧ g < 8 := by
  simp [strideCalls]

section Loop
variable {n : Half} {src dst : Word} {stride : Half} {s : State}

/-- The samples of a call of the loop are among those of `TRN.F`. -/
theorem callOuts_subset {m : Memory} {call : (Nat × Nat) × Nat} (hcall : call ∈ strideCalls n.toNat) :
    callOuts src.toNat dst.toNat stride.toNat m call ⊆ outsOf m (.trnF n src dst stride) := by
  obtain ⟨⟨t0, len⟩, g⟩ := call
  obtain ⟨hst, hg⟩ := mem_strideCalls.1 hcall
  have hlen := strides_inside hst
  intro e he
  obtain ⟨i, hi, t, ht, rfl⟩ := mem_callOuts.1 he
  exact mem_outsOf_trnF.2 ⟨16 * g + i, by omega, t0 + t, by omega, rfl⟩

/-- The calls of the loop write every sample of `TRN.F`, and no other. -/
theorem mem_flatMap_callOuts {m : Memory} (hn : n.toNat % 8 = 0) {e : Nat × Sample} :
    e ∈ (strideCalls n.toNat).flatMap (callOuts src.toNat dst.toNat stride.toNat m) ↔
      e ∈ outsOf m (.trnF n src dst stride) := by
  rw [List.mem_flatMap]
  refine ⟨fun ⟨call, hcall, he⟩ => callOuts_subset hcall he, fun he => ?_⟩
  obtain ⟨c, hc, t, ht, rfl⟩ := mem_outsOf_trnF.1 he
  obtain ⟨⟨t0, len⟩, hst, hlo, hhi⟩ := strides_cover hn ht
  refine ⟨((t0, len), c / 16), mem_strideCalls.2 ⟨hst, by omega⟩,
    mem_callOuts.2 ⟨c % 16, by omega, t - t0, by omega, ?_⟩⟩
  rw [Nat.div_add_mod, Nat.add_sub_cancel' hlo]

/-- A call of the loop finds the frames as they were, whatever samples of `TRN.F` are already written. -/
theorem callOuts_stable (hm : s.mem.wf) (hd : DutiesTo (.trnF n src dst stride) s) {call : (Nat × Nat) × Nat}
    (hcall : call ∈ strideCalls n.toNat) {l : List (Nat × Sample)} (hl : l ⊆ outsOf s.mem (.trnF n src dst stride)) :
    callOuts src.toNat dst.toNat stride.toNat (s.mem.writeSamples l) call =
      callOuts src.toNat dst.toNat stride.toNat s.mem call := by
  obtain ⟨⟨t0, len⟩, g⟩ := call
  obtain ⟨hst, hg⟩ := mem_strideCalls.1 hcall
  have hlen := strides_inside hst
  have hpart : Partway (.trnF n src dst stride) s { s with mem := s.mem.writeSamples l } l := ⟨rfl, hl, rfl, rfl⟩
  refine kernelOuts_congr hg fun t ht => .of_frame fun b hb hb' => hpart.readByte_input hm hd ?_
  simp only at ht hb hb' hlen
  exact inRegions_singleton.2 (by simp only [frameRegion, Config.frameBytes]; omega)

end Loop

/-- Settles O39: the kernels of the loop write the samples of `TRN.F`, and none of them reads a sample written. -/
theorem trnFEqualsItsStrideLoop : Obligations.TrnFEqualsItsStrideLoop := by
  intro n src dst stride s t hm hexec hok
  obtain ⟨hc, hd, rfl⟩ := exec_ok hexec hok
  obtain ⟨hn, -, -, -⟩ := trnFChecks_pass_iff.1 hc
  refine ⟨?_, by simpa using strides_eq 0 (le_refl n.toNat)⟩
  calc s.mem.writeSamples (outsOf s.mem (.trnF n src dst stride))
      = s.mem.writeSamples ((strideCalls n.toNat).flatMap (callOuts src.toNat dst.toNat stride.toNat s.mem)) :=
        Memory.writeSamples_congr hm (outsOf_compatible hd) fun _ => (mem_flatMap_callOuts hn).symm
    _ = strideLoop n.toNat src.toNat dst.toNat stride.toNat s.mem := by
        rw [strideLoop_eq_foldl]
        exact (Memory.foldl_writeSamples (fun _ => callOuts_subset) (fun _ hcall _ => callOuts_stable hm hd hcall)
          (List.nil_subset _)).symm

end Sys2Proof.Machine
end

section
/-! SUPPORT. The statements about completion codes (60_exceptions.md): which codes a command can end with, what raises
`UnsupportedTickCount`, the three outcomes of a command, and that a fault leaves no trace but its code. -/

namespace Sys2Proof.Machine

/-! ### The codes of the checks (60_exceptions.md R162, R164) -/

@[simp] theorem groupCheck_code (grp : BitVec 8) : (groupCheck grp).code = .illegalCommand := rfl
@[simp] theorem tickCheck_code (n : Half) : (tickCheck n).code = .unsupportedTickCount := rfl
@[simp] theorem strideCheck_code (stride : Half) (k : Nat) : (strideCheck stride k).code = .operandFault := rfl
@[simp] theorem alignCheck_code (a : Word) (k : Nat) : (alignCheck a k).code = .alignmentFault := rfl

theorem code_of_mem_expandChecks {src dst : Word} {k : Check} (hk : k ∈ expandChecks src dst) :
    k.code = .alignmentFault := by
  simp only [expandChecks, List.mem_cons, List.not_mem_nil, or_false] at hk
  obtain rfl | rfl := hk <;> exact alignCheck_code ..

theorem code_of_mem_pointerChecks {ps : List Word} {k : Check} (hk : k ∈ pointerChecks ps) :
    k.code = .alignmentFault := by
  obtain ⟨p, -, rfl⟩ := List.mem_map.1 hk
  exact alignCheck_code p 2

theorem code_of_mem_kernelChecks {n : Nat} {grp : BitVec 8} {src dst : Word} {stride : Half} {k : Check}
    (hk : k ∈ kernelChecks n grp src dst stride) :
    k.code ∈ [Code.illegalCommand, .alignmentFault, .operandFault] := by
  rw [kernelChecks_eq, List.mem_cons, List.mem_cons] at hk
  obtain rfl | rfl | hk := hk
  · simp
  · simp
  · simp [code_of_mem_expandChecks hk]

/-- The checks of `TRN.F` after the first are of the other codes. -/
theorem mem_trnFChecks {n : Half} {src dst : Word} {stride : Half} {k : Check}
    (hk : k ∈ trnFChecks n src dst stride) :
    k = tickCheck n ∨ k.code = .operandFault ∨ k.code = .alignmentFault := by
  rw [trnFChecks_eq, List.mem_cons, List.mem_cons] at hk
  obtain rfl | rfl | hk := hk
  · exact .inl rfl
  · exact .inr (.inl (strideCheck_code ..))
  · exact .inr (.inr (code_of_mem_expandChecks hk))

/-- The checks of `TRN.P` after the first, those of its row pointers among them, are of alignment. -/
theorem mem_checksOf_trnP {m : Memory} {n : Half} {src dst : Word} {offset : Half} {k : Check}
    (hk : k ∈ checksOf m (.trnP n src dst offset)) : k = tickCheck n ∨ k.code = .alignmentFault := by
  simp only [checksOf, trnPChecks, List.mem_append, List.mem_cons, List.not_mem_nil, or_false] at hk
  obtain (rfl | rfl | rfl) | hk := hk
  · exact .inl rfl
  · exact .inr (alignCheck_code src 8)
  · exact .inr (alignCheck_code dst 8)
  · exact .inr (code_of_mem_pointerChecks hk)

/-- The code of a check is one that the table of R162 allows the command, and not `OK`, the first of its list. -/
theorem code_mem_codesOf {m : Memory} {i : Instr} {k : Check} (hk : k ∈ checksOf m i) :
    k.code ∈ (codesOf i).tail := by
  cases i with
  | exp16 | exp64 | exp128 => simp [codesOf, code_of_mem_expandChecks hk]
  | tr16x8 | tr16x16 | tr16x32 => exact code_of_mem_kernelChecks hk
  | trnF => obtain rfl | hcode | hcode := mem_trnFChecks hk <;> simp [codesOf, *]
  | trnP => obtain rfl | hcode := mem_checksOf_trnP hk <;> simp [codesOf, *]

theorem codesOf_eq_cons (i : Instr) : codesOf i = .ok :: (codesOf i).tail := by cases i <;> rfl

theorem ok_not_mem_tail_codesOf (i : Instr) : Code.ok ∉ (codesOf i).tail := by
  cases i <;> simp [codesOf]

/-- The code a list of checks decides is that of a check of the list that fails. -/
theorem firstFault_fails {cs : List Check} {c : Code} (h : firstFault cs = some c) :
    ∃ k ∈ cs, k.fails = true ∧ k.code = c := by
  induction cs with
  | nil => cases h
  | cons k cs ih =>
    cases hk : k.fails with
    | true =>
      rw [firstFault_cons_of_fails hk, Option.some.injEq] at h
      exact ⟨k, List.mem_cons_self, hk, h⟩
    | false =>
      rw [firstFault_cons_of_passes hk] at h
      obtain ⟨j, hj, hfails⟩ := ih h
      exact ⟨j, List.mem_cons_of_mem k hj, hfails⟩

/-- The code a command's checks decide is one of the faults of its row (60_exceptions.md R162). -/
theorem fault_mem_codesOf {m : Memory} {i : Instr} {c : Code} (h : firstFault (checksOf m i) = some c) :
    c ∈ (codesOf i).tail := by
  obtain ⟨k, hk, rfl⟩ := firstFault_mem h
  exact code_mem_codesOf hk

theorem fault_ne_ok {m : Memory} {i : Instr} {c : Code} (h : firstFault (checksOf m i) = some c) : c ≠ .ok :=
  ne_of_mem_of_not_mem (fault_mem_codesOf h) (ok_not_mem_tail_codesOf i)

/-! ### Off the quantum (60_exceptions.md R167) -/

/-- Only a count off the quantum, in a `TRN.F` or a `TRN.P`, decides `UnsupportedTickCount` (60_exceptions.md R167). -/
theorem tickFault_of_checksOf {m : Memory} {i : Instr}
    (h : firstFault (checksOf m i) = some .unsupportedTickCount) :
    ∃ (n : Half) (src dst : Word) (x : Half),
      n.toNat % 8 ≠ 0 ∧ (i = .trnF n src dst x ∨ i = .trnP n src dst x) := by
  obtain ⟨k, hk, hfails, hcode⟩ := firstFault_fails h
  cases i with
  | trnF n src dst stride =>
    obtain rfl | hcode' | hcode' := mem_trnFChecks hk
    · exact ⟨n, src, dst, stride, tickCheck_fails.1 hfails, .inl rfl⟩
    · cases hcode.symm.trans hcode'
    · cases hcode.symm.trans hcode'
  | trnP n src dst offset =>
    obtain rfl | hcode' := mem_checksOf_trnP hk
    · exact ⟨n, src, dst, offset, tickCheck_fails.1 hfails, .inr rfl⟩
    · cases hcode.symm.trans hcode'
  | _ => exact absurd (fault_mem_codesOf h) (by simp [codesOf])

theorem eq_unsupportedTickCount_of_bits {c : Code} (h : c.bits = 1) : c = .unsupportedTickCount := by
  cases c with
  | unsupportedTickCount => rfl
  | _ => cases h

/-- Settles O27: the count is the first check of both commands, and of no other command a check at all. -/
theorem unsupportedTickCountExactlyOffQuantum : Obligations.UnsupportedTickCountExactlyOffQuantum := by
  refine ⟨fun n src dst x s hn i hi => ?_, fun i s t h hstatus => ?_⟩
  · simp only [List.mem_cons, List.not_mem_nil, or_false] at hi
    obtain rfl | rfl := hi
    · exact completed_of_raise (exec_of_fault nofun (trnFChecks_tickFault src dst x hn))
    · exact completed_of_raise (exec_trnP_of_field_fault (trnPChecks_tickFault src dst hn))
  · obtain ⟨c, hc, rfl⟩ | ⟨-, -, rfl⟩ := exec_cases h
    · exact tickFault_of_checksOf (eq_unsupportedTickCount_of_bits hstatus ▸ hc)
    · cases hstatus

/-! ### The codes a command ends with (60_exceptions.md R162, R163) -/

/-- Settles O29: a command ends with the code of one of its checks or with `OK`. -/
theorem commandsEndOnlyWithTheirCodes : Obligations.CommandsEndOnlyWithTheirCodes := by
  intro i s t h
  obtain ⟨c, hc, rfl⟩ | ⟨-, -, rfl⟩ := exec_cases h
  · exact ⟨c, List.mem_of_mem_tail (fault_mem_codesOf hc), rfl, rfl, rfl, rfl, rfl, rfl, rfl⟩
  · exact ⟨.ok, codesOf_eq_cons i ▸ List.mem_cons_self, rfl, rfl, rfl, rfl, rfl, rfl, rfl⟩

/-! ### The three outcomes (60_exceptions.md R170) -/

/-- The duties towards a `TRN.P` hold its table valid for reading (log 20). -/
theorem DutiesTo.table {n : Half} {src dst : Word} {offset : Half} {s : State}
    (hd : DutiesTo (.trnP n src dst offset) s) : Duties s [tableRegion dst] [] :=
  hd.toDuties.of_read_subset fun r hr => by
    rw [List.mem_singleton.1 hr, readFootprint]
    simp

/-- Where the host's duties are met a command that fails a check completes with that check's code. Only `TRN.P` needs
them: its row pointers are checked once its table is known to be the host's (log 20). -/
theorem exec_of_fault_of_duties {i : Instr} {s : State} {c : Code} (hc : firstFault (checksOf s.mem i) = some c)
    (hd : DutiesTo i s) : exec i s = .next (raise c s) := by
  cases i with
  | trnP n src dst offset =>
    simp only [checksOf, firstFault_append, Option.or_eq_some_iff] at hc
    obtain hfield | ⟨hfields, hpointer⟩ := hc
    · exact exec_trnP_of_field_fault hfield
    · exact exec_trnP_of_pointer_fault hfields hd.table hpointer
  | _ => exact exec_of_fault nofun hc

/-- A command is refused only where the host broke a duty (60_exceptions.md R170). -/
theorem exec_next_of_duties {i : Instr} {s : State} (hd : DutiesTo i s) : ∃ t, exec i s = .next t := by
  cases hc : firstFault (checksOf s.mem i) with
  | none => exact ⟨_, exec_of_duties hc hd⟩
  | some c => exact ⟨_, exec_of_fault_of_duties hc hd⟩

/-- A code other than `OK` is a fault's (60_exceptions.md R160). -/
theorem bits_mem_of_ne_ok {c : Code} (h : c ≠ .ok) : c.bits ∈ [1#8, 2#8, 3#8, 4#8] := by
  cases c with
  | ok => exact absurd rfl h
  | _ => decide

/-- Settles O30, by the outcome of `exec`. -/
theorem threeOutcomesOfACommand : Obligations.ThreeOutcomesOfACommand := by
  intro i s
  cases h : exec i s with
  | next t =>
    obtain ⟨c, hc, rfl⟩ | ⟨-, hd, rfl⟩ := exec_cases h
    · exact .inr (.inl ⟨_, rfl, bits_mem_of_ne_ok (fault_ne_ok hc), rfl⟩)
    · exact .inl ⟨hd, _, rfl, rfl⟩
  | fault f => exact absurd h exec_ne_fault
  | refused r =>
    refine .inr (.inr ⟨fun hd => ?_, r, rfl⟩)
    obtain ⟨t, ht⟩ := exec_next_of_duties hd
    cases h.symm.trans ht

/-! ### After a fault (60_exceptions.md R173) -/

/-- A command that ended with a fault code changed `CR.STATUS` and the replies alone (60_exceptions.md R165). -/
theorem eq_raise_of_status_ne_zero {i : Instr} {s t : State} (h : exec i s = .next t) (hstatus : t.status ≠ 0) :
    ∃ c, t = raise c s := by
  obtain ⟨c, -, ht⟩ | ⟨-, -, rfl⟩ := exec_cases h
  · exact ⟨c, ht⟩
  · exact absurd rfl hstatus

/-- Settles O46: the state after the fault holds the memory of the state before it, and the host holds the same memory
valid, so the other command finds the same inputs and the same duties met. -/
theorem faultsDoNotStick : Obligations.FaultsDoNotStick := by
  intro i j s t u hi hstatus hj
  obtain ⟨c, rfl⟩ := eq_raise_of_status_ne_zero hi hstatus
  have hinputs : InputsAgree s.mem (raise c s).mem j := .of_readFootprint fun _ _ => rfl
  obtain ⟨c', -, rfl, hv⟩ | ⟨-, rfl, hv⟩ := exec_transfer hj (raise_readable c s) (raise_writable c s) hinputs
  · exact ⟨_, hv, rfl, rfl⟩
  · exact ⟨_, hv, rfl, rfl⟩

end Sys2Proof.Machine
end

section
/-! SUPPORT. The statements about reset and hazards (70_reset_and_hazards.md): what the host's reads and writes of the
registers do, what a reset touches, what the host's acts beside a running command cannot change, and what a command cut
short by a reset leaves. -/

namespace Sys2Proof.Machine

/-! ### The idle block, the registers and the reset (70_reset_and_hazards.md R191, R200) -/

/-- Settles O49. -/
theorem idleBlockStaysAsItIs : Obligations.IdleBlockStaysAsItIs := fun _ hidle => step_of_empty hidle

/-- An act that is not refused leaves the judgement to the acts after it. -/
theorem actsRefusal_cons_of_accepted {rd wr : List Region} {act : HostAct} (h : act.refusal? rd wr = none)
    (acts : List HostAct) : actsRefusal rd wr (act :: acts) = actsRefusal rd wr acts := by
  simp [actsRefusal, h]

/-- Writing a register while a command runs is accepted and has no effect (92_eei_decisions.md D4). -/
theorem submit_cons_writeRegister (d : Command) (r : ControlRegister) (v : Word) (during : List HostAct) (s : State) :
    submit d (.writeRegister r v :: during) s = submit d during s := by
  have haccepted : (HostAct.writeRegister r v).refusal? (bitsRead d) (bitsWritten s.mem d) = none := rfl
  have heffect : HostAct.apply s (.writeRegister r v) = s := rfl
  rw [submit, submit, besideCommand, besideCommand, actsRefusal_cons_of_accepted haccepted, List.foldl_cons, heffect]

/-- Settles O52. -/
theorem registersReadAndIgnoreWrites : Obligations.RegistersReadAndIgnoreWrites := by
  intro s rest
  exact ⟨step_of_cons, step_of_cons, fun _ _ => step_of_cons,
    fun d r v during => submit_cons_writeRegister d r v during s⟩

/-- Settles O53. -/
theorem resetSetsTheTwoRegistersOnly : Obligations.ResetSetsTheTwoRegistersOnly := fun _ _ hin => step_of_cons hin

/-! ### The footprints of the submitted bits -/

theorem bitsRead_of_decode {d : Command} {i : Instr} (h : decode d = .ok i) : bitsRead d = readFootprint i := by
  simp [bitsRead, h]

theorem bitsWritten_of_decode {d : Command} {i : Instr} (h : decode d = .ok i) (m : Memory) :
    bitsWritten m d = writeFootprint m i := by
  simp [bitsWritten, h]

theorem bitsWritten_of_illegal {d : Command} {why : Illegal} (h : decode d = .error why) (m : Memory) :
    bitsWritten m d = [] := by
  simp [bitsWritten, h]

/-- What the bits write is decided by what they read: of `TRN.P` by its pointer table (20_memory.md R50). -/
theorem bitsWritten_congr {d : Command} {m m' : Memory}
    (h : ∀ a, InRegions (bitsRead d) a → m'.readByte a = m.readByte a) : bitsWritten m' d = bitsWritten m d := by
  cases hd : decode d with
  | error why => rw [bitsWritten_of_illegal hd, bitsWritten_of_illegal hd]
  | ok i =>
    rw [bitsRead_of_decode hd] at h
    rw [bitsWritten_of_decode hd, bitsWritten_of_decode hd, writeFootprint_congr (.of_readFootprint h)]

/-- A byte outside what the bits write is as before, whatever code they complete with (20_memory.md R55). -/
theorem runBits_readByte_outside {d : Command} {s t : State} (hm : s.mem.wf) (h : runBits d s = .next t) {a : Nat}
    (ha : ¬ InRegions (bitsWritten s.mem d) a) : t.mem.readByte a = s.mem.readByte a := by
  obtain ⟨c, -, rfl⟩ | ⟨i, hd, -, -, rfl⟩ := runBits_cases h
  · rfl
  · rw [bitsWritten_of_decode hd] at ha
    exact readByte_outsOf_outside hm ha

/-! ### What the host does beside a command (70_reset_and_hazards.md R200) -/

/-- An act that is not refused leaves the bytes of both footprints as they are (20_memory.md R56). -/
theorem apply_readByte_of_accepted {rd wr : List Region} {act : HostAct} {s : State} (hm : s.mem.wf)
    (h : act.refusal? rd wr = none) {a : Nat} (ha : InRegions rd a ∨ InRegions wr a) :
    (HostAct.apply s act).mem.readByte a = s.mem.readByte a := by
  cases act with
  | store b v =>
    have hne : a ≠ b.toNat := by
      rintro rfl
      have hrefused := refusal_of_breaksR56 (.inl ⟨b, v, rfl, ha⟩)
      rw [h] at hrefused
      cases hrefused
    exact Memory.readByte_writeByte_ne hm v hne
  | _ => rfl

/-- So do all acts, when none of them is refused. -/
theorem foldl_apply_readByte_of_accepted {rd wr : List Region} {acts : List HostAct} {s : State} (hm : s.mem.wf)
    (h : actsRefusal rd wr acts = none) {a : Nat} (ha : InRegions rd a ∨ InRegions wr a) :
    (acts.foldl HostAct.apply s).mem.readByte a = s.mem.readByte a := by
  induction acts generalizing s with
  | nil => rfl
  | cons act acts ih =>
    cases hact : act.refusal? rd wr with
    | some r => simp [actsRefusal, hact] at h
    | none =>
      rw [actsRefusal_cons_of_accepted hact] at h
      exact (ih (apply_wf hm act) h).trans (apply_readByte_of_accepted hm hact ha)

theorem foldl_apply_wf {s : State} (hm : s.mem.wf) (acts : List HostAct) : (acts.foldl HostAct.apply s).mem.wf :=
  foldl_apply_induction (P := fun u => u.mem.wf) (fun _ act h => apply_wf h act) hm acts

theorem foldl_apply_inbox (s : State) (acts : List HostAct) : (acts.foldl HostAct.apply s).inbox = s.inbox :=
  foldl_apply_induction (P := fun u => u.inbox = s.inbox) (fun u act hu => (apply_inbox u act).trans hu) rfl acts

/-- The acts that are not refused do not move what the bits write. -/
theorem bitsWritten_foldl_apply {d : Command} {acts : List HostAct} {s : State} (hm : s.mem.wf)
    (h : actsRefusal (bitsRead d) (bitsWritten s.mem d) acts = none) :
    bitsWritten (acts.foldl HostAct.apply s).mem d = bitsWritten s.mem d :=
  bitsWritten_congr fun _ ha => foldl_apply_readByte_of_accepted hm h (.inl ha)

theorem besideCommand_of_accepted {d : Command} {during : List HostAct} {s : State}
    (h : actsRefusal (bitsRead d) (bitsWritten s.mem d) during = none)
    (run : State → Host.Outcome State Fault Refusal) :
    besideCommand d during s run = run (during.foldl HostAct.apply s) := by
  simp [besideCommand, h]

/-- A command beside which the host acts, if it answers a next state, had no act refused. -/
theorem accepted_of_besideCommand_next {d : Command} {during : List HostAct} {s t : State}
    {run : State → Host.Outcome State Fault Refusal} (h : besideCommand d during s run = .next t) :
    actsRefusal (bitsRead d) (bitsWritten s.mem d) during = none := by
  obtain ⟨r, -, hr⟩ | ⟨haccepted, -⟩ := besideCommand_cases h
  · cases hr
  · exact haccepted

/-! ### A store beside a command (70_reset_and_hazards.md R200) -/

/-- A store outside both footprints is not refused. -/
theorem store_accepted {rd wr : List Region} {a : Word} (hrd : ¬ InRegions rd a.toNat) (hwr : ¬ InRegions wr a.toNat)
    (v : Byte) : (HostAct.store a v).refusal? rd wr = none := by
  refine if_neg fun hany => ?_
  obtain h | h := inRegions_append.1 (any_has_iff.1 hany)
  · exact hrd h
  · exact hwr h

/-- A byte stored outside the write footprint and the samples of a command can be written in either order. -/
theorem writeSamples_outsOf_writeByte {i : Instr} {s : State} (hm : s.mem.wf) (hd : DutiesTo i s) {a : Nat}
    (ha : ¬ InRegions (writeFootprint s.mem i) a) (v : Byte) :
    (s.mem.writeByte a v).writeSamples (outsOf s.mem i) = (s.mem.writeSamples (outsOf s.mem i)).writeByte a v := by
  have hbefore := Memory.wf_writeByte hm a v
  have hafter := Memory.wf_writeSamples hm (outsOf s.mem i)
  refine Memory.ext (Memory.wf_writeSamples hbefore _) (Memory.wf_writeByte hafter a v) fun b => ?_
  obtain ⟨hinside, houtside⟩ := readByte_outsOf_on hm hbefore hd b
  rw [Memory.readByte_writeByte hafter]
  by_cases hb : InRegions (writeFootprint s.mem i) b
  · have hne : b ≠ a := fun heq => ha (heq ▸ hb)
    rw [hinside hb, if_neg hne]
  · rw [houtside hb, Memory.readByte_writeByte hm, readByte_outsOf_outside hm hb]

/-- A command that answers a next state answers it with the byte stored, when a byte outside both its footprints was
stored before it. -/
theorem exec_after_store {i : Instr} {s t : State} (hm : s.mem.wf) (h : exec i s = .next t) {a : Nat}
    (hrd : ¬ InRegions (readFootprint i) a) (hwr : ¬ InRegions (writeFootprint s.mem i) a) (v : Byte) :
    exec i { s with mem := s.mem.writeByte a v } = .next { t with mem := t.mem.writeByte a v } := by
  have hinputs : InputsAgree s.mem (s.mem.writeByte a v) i := .of_readFootprint fun b hb =>
    Memory.readByte_writeByte_ne hm v fun heq => hrd (heq ▸ hb)
  obtain ⟨c, -, rfl, hrun⟩ | ⟨hd, rfl, hrun⟩ :=
    exec_transfer (s' := { s with mem := s.mem.writeByte a v }) h rfl rfl hinputs
  · exact hrun
  · rw [hrun, writeSamples_outsOf_writeByte hm hd hwr]
    rfl

/-- Settles O57: the store is accepted, and the command runs after it as before it. -/
theorem storesOutsideTheFootprintsCommute : Obligations.StoresOutsideTheFootprintsCommute := by
  intro d i s t a v hm hd hrd hwr h
  have haccepted : actsRefusal (bitsRead d) (bitsWritten s.mem d) [.store a v] = none := by
    rw [bitsRead_of_decode hd, bitsWritten_of_decode hd, actsRefusal_cons_of_accepted (store_accepted hrd hwr v),
      actsRefusal_nil]
  rw [submit_nil, runBits_of_decode hd] at h
  rw [submit, besideCommand_of_accepted haccepted, runBits_of_decode hd]
  exact exec_after_store hm h hrd hwr v

/-! ### A reset during a command (70_reset_and_hazards.md R193) -/

theorem runCut_of_next {d : Command} {s u : State} (h : runBits d s = .next u) :
    runCut d s = .next (cutShort s u) := by
  simp [runCut, h]

/-- A step whose next action is a submission that a reset cuts short, where the submission would have answered `u`. -/
theorem step_of_submitCut {s u : State} {d : Command} {during : List HostAct} {rest : List HostEvent}
    (hin : s.inbox = .submitCut d during :: rest) (h : submit d during { s with inbox := rest } = .next u) :
    step s = .next (cutShort (during.foldl HostAct.apply { s with inbox := rest }) u) :=
  calc step s = besideCommand d during { s with inbox := rest } (runCut d) := step_of_cons hin
    _ = runCut d (during.foldl HostAct.apply { s with inbox := rest }) :=
      besideCommand_of_accepted (accepted_of_besideCommand_next h) _
    _ = _ := runCut_of_next (besideCommand_next h)

/-- Each byte a command cut short leaves is the one before it or the one it would have left. -/
theorem cutShort_readByte {s : State} (hm : s.mem.wf) (u : State) (a : Nat) :
    (cutShort s u).mem.readByte a = s.mem.readByte a ∨ (cutShort s u).mem.readByte a = u.mem.readByte a := by
  rw [cutShort_mem, Memory.readByte_blend hm]
  split
  · exact .inr rfl
  · exact .inl rfl

/-- Settles O55: the acts leave `WR(cmd)` where it was, and outside it the command would have left every byte as they
did. -/
theorem resetDuringACommandLeavesOldOrNew : Obligations.ResetDuringACommandLeavesOldOrNew := by
  rintro d during s s' u rest hm hin rfl h
  have haccepted := accepted_of_besideCommand_next h
  have hrun := besideCommand_next h
  have hm' := foldl_apply_wf (s := { s with inbox := rest }) hm during
  have holdOrNew := cutShort_readByte hm' u
  refine ⟨_, step_of_submitCut hin h, rfl, rfl, rfl, foldl_apply_inbox _ during, rfl, rfl, holdOrNew,
    fun a ha => ?_⟩
  rw [← bitsWritten_foldl_apply (s := { s with inbox := rest }) hm haccepted] at ha
  have hsame := runBits_readByte_outside hm' hrun ha
  exact (holdOrNew a).elim id fun hnew => hnew.trans hsame

end Sys2Proof.Machine
end

section
/-! SUPPORT. The statement about the printed words (95_test_vectors.md section 2.6): each command's words are its
encoding, and each illegal pattern breaks one condition of 30_encoding.md R87. -/

namespace Sys2Proof

/-! ### Printed words -/

/-- Words that are a well-formed command's encoding decode to that command. -/
theorem decode_of_encode_eq {d : Command} {i : Instr} (hi : i.wellFormed = true) (h : encode i = d) :
    decode d = .ok i :=
  h ▸ decodeOfEncodeIsTheCommand i hi

/-- A pattern whose `OP` names no operation is refused for its opcode, whatever its other fields. -/
theorem decode_of_reserved_op {d : Command}
    (hop : Desc.op d ∉ [0x10#8, 0x11#8, 0x12#8, 0x20#8, 0x21#8, 0x22#8, 0x30#8, 0x31#8]) :
    decode d = .error (.reservedOpcode (Desc.op d)) := by
  simp [decode, Opcode.ofBits?_eq_none_iff.2 hop]

/-- A pattern of a known opcode whose `RSV` is not 0 is refused for it, whatever its other fields. -/
theorem decode_of_rsv_ne_zero {d : Command} {o : Opcode} (hop : Desc.op d = o.bits) (hrsv : Desc.rsv d ≠ 0) :
    decode d = .error .reservedField := by
  unfold decode
  rw [hop, Opcode.ofBits?_bits]
  exact if_pos hrsv

/-- A `TRN.P` whose `STRIDE` is not 0 is refused for a field that must be 0. -/
theorem decode_trnP_of_stride_ne_zero {d : Command} (hop : Desc.op d = Opcode.trnP.bits) (hrsv : Desc.rsv d = 0)
    (hstride : Desc.stride d ≠ 0) : decode d = .error .mustBeZero := by
  unfold decode
  rw [hop, Opcode.ofBits?_bits]
  simpa [hrsv] using fun _ => hstride

/-- Settles O1: the eight commands' words are their encodings, and the four patterns are illegal for their opcode, for
`RSV`, for a kernel's group, and for `TRN.P`'s `STRIDE`. -/
theorem specWordsDecodeAsPrinted : Obligations.SpecWordsDecodeAsPrinted := by
  refine ⟨?exp16, ?exp64, ?exp128, ?tr16x8, ?tr16x16, ?tr16x32, ?trnF, ?trnP, ?opcode, ?rsv, ?group, ?stride⟩
  case opcode => exact decode_of_reserved_op (by decide)
  case rsv => exact decode_of_rsv_ne_zero (o := .exp16) (by decide) (by decide)
  case group =>
    exact decode_of_group_above (o := .tr16x8) (by decide) (by decide) (by decide) (by decide) (by decide) (by decide)
  case stride => exact decode_trnP_of_stride_ne_zero (by decide) (by decide) (by decide)
  all_goals exact decode_of_encode_eq (by decide) (by decide)

end Sys2Proof
end
